-- ==== Sys2Proof/Word.lean ====
section
/-! DEFINITION. The words of the machine: the command word, the raw parameter register, the byte, the number formats
that the open parameter NUM can be, and the number type of every non-integer quantity. -/

namespace Sys2Proof

/-- The 64-bit command word of 30_encoding.md R80. -/
abbrev Word := BitVec 64

/-- A parameter register: an `int32` held as written (10_state.md R21, R24; 00_scope.md R10). -/
abbrev Raw := BitVec 32

/-- One byte of BANK (20_memory.md R62). -/
abbrev Byte := BitVec 8

/-- The direction in which a finite number format rounds. -/
inductive Rounding where
  | nearestEven
  | nearestAway
  | towardZero
  | upward
  | downward
  deriving DecidableEq, Repr, Inhabited

/-- NUM of 00_scope.md R6: "the number format of every non-integer value". `exact` is the reference semantics of R7.
`finite p emin emax mode` holds the numbers `n * 2^q` with an integer `|n| < 2^p`, `emin <= q` and a magnitude below
`2^(emax+1)`: `finite 24 (-149) 127 .nearestEven` is IEEE binary32 with its subnormals, and a fixed-point format with
`k` fraction bits and `m` integer bits is `finite (m + k) (-k) (m - 1) mode` (log entry 1). -/
inductive NumFormat where
  | exact
  | finite (precision : Nat) (minExp maxExp : Int) (mode : Rounding)
  deriving DecidableEq, Repr, Inhabited

/-- Num of 00_scope.md R7: a real number as plain data. A rational value is `rat`; any other is the expression that
R7 and R8 build it by, over the configuration functions `exp2`, `pow` and `sin`; Machine/Value.lean says which real
number each one is (log entry 2). -/
inductive Num where
  /-- A rational number. -/
  | rat (q : ℚ)
  /-- `exp2(x)`. -/
  | exp2Of (x : ℚ)
  /-- `pow(b, e)`. -/
  | powOf (b e : ℚ)
  /-- `sin(2*pi*i/512)`. -/
  | sineOf (i : Nat)
  | sum (x y : Num)
  | diff (x y : Num)
  | prod (x y : Num)
  | quot (x y : Num)
  /-- `fmod1(x)` (43 R158), its subtraction rounded by `f`, its `floor(x)` exact (log entry 20). -/
  | fractOf (f : NumFormat) (x : Num)
  /-- `OSC(x)` (41 R111), its operations rounded by `f`. -/
  | oscOf (f : NumFormat) (x : Num)
  /-- `x` rounded by `f`. -/
  | rounded (f : NumFormat) (x : Num)
  deriving DecidableEq, Repr, Inhabited

end Sys2Proof
end

