-- ==== Sys2Proof/Config.lean ====
section
/-! DEFINITION. The constants of 00_scope.md R5, the open parameters of R6 as plain data, and the free value of an
overflow. -/

namespace Sys2Proof

namespace Config

/-- NOPS of R5: operators per voice. -/
abbrev nOps : Nat := 6
/-- NP_OP of R5: parameter registers per operator. -/
abbrev npOp : Nat := 21
/-- NP_VOICE of R5: voice-level parameter registers. -/
abbrev npVoice : Nat := 29
/-- NPARAM of R5: the size of the flat parameter index space. -/
abbrev nParam : Nat := 155
/-- PK_OP of R5: bytes of one packed operator block. -/
abbrev pkOp : Nat := 17
/-- PK_REC of R5: bytes of one packed voice record. -/
abbrev pkRec : Nat := 128
/-- BANK_HDR of R5: header bytes of the framed bank message. -/
abbrev bankHdr : Nat := 6
/-- BANK_VOICES of R5: voice records in one bank. -/
abbrev bankVoices : Nat := 32
/-- BANK_LEN of R5: the exact framed length in bytes. -/
abbrev bankLen : Nat := 4104

end Config

/-- EG_REFRESH of R6: when the envelope latches follow parameter writes. -/
inductive EgRefresh where
  | atTick
  | atWrite
  deriving DecidableEq, Repr, Inhabited

/-- ALG_OOR of R6: the action on an algorithm index outside 0..31. -/
inductive AlgOor where
  | clamp
  | noop
  deriving DecidableEq, Repr, Inhabited

/-- One algorithm entry: eight row masks, bit `c` of mask `r` being the cell `ALG[a][r][c]` (44 R170, R173). -/
abbrev AlgEntry := Vector Byte 8

/-- 44 R171 (b): "For every algorithm 0..31 and every operator i, `matrix[alg][i][i] == false`". -/
def selfFree (cells : Vector AlgEntry 32) : Bool :=
  (List.finRange 32).all fun a => (List.finRange 6).all fun d =>
    !(cells[a][(d.castLE (by decide) : Fin 8)]).getLsbD d.val

/-- ALG_ROM of R6, "subject to (a) and (b)" of 44 R171: the cells, with the proof that no operator modulates itself.
No command writes it. -/
structure AlgRom where
  cells : Vector AlgEntry 32
  noSelf : selfFree cells = true
  deriving DecidableEq, Repr

/-- The open parameters of 00_scope.md R6 that are plain data: NUM, FS_SUPPORTED, ALG_ROM, PEG_GATE, EG_REFRESH,
ALG_OOR. The set FS_SUPPORTED is a finite list of inclusive ranges of integers. A machine's Config is fixed: it stands
in State so that a statement over every state covers every choice of the parameters (log entry 3, safe), and no command
writes it. The three functions of R6, exp2, pow and sin, are an argument of the value of a Num (`Functions` of
Machine/Value.lean; log entry 2). -/
structure Config where
  num : NumFormat
  fsRanges : List (Nat × Nat)
  algRom : AlgRom
  pegGate : Bool
  egRefresh : EgRefresh
  algOor : AlgOor
  deriving DecidableEq, Repr

namespace Config

/-- FREE VALUE (93 U6; log entry 1): what a result beyond the range of a finite format is, by its sign
(`true`: positive). -/
opaque overflowValue : NumFormat → Bool → ℚ

end Config

end Sys2Proof
end

