-- ==== Sys2Proof/Machine/AlgorithmRom.lean ====
section
/-! DEFINITION. The algorithm ROM: the default contents ALG_CLASSIC (44_algorithm_matrix.md R173), how a cell is read,
and the default configuration of 00_scope.md R6. -/

namespace Sys2Proof.Machine

/-- One entry from its eight row masks `m[0] .. m[7]` (R173). -/
abbrev algEntry (m0 m1 m2 m3 m4 m5 m6 m7 : Byte) : AlgEntry := #v[m0, m1, m2, m3, m4, m5, m6, m7]

/-- ALG_CLASSIC of R173, the spec's default of the open parameter ALG_ROM, transcribed mask by mask. -/
def algClassicCells : Vector AlgEntry 32 := #v[
  algEntry 0x40 0x01 0x02 0x04 0x00 0x10 0x01 0x28,
  algEntry 0x00 0x01 0x02 0x04 0x40 0x10 0x10 0x28,
  algEntry 0x40 0x01 0x02 0x00 0x08 0x10 0x01 0x24,
  algEntry 0x40 0x01 0x02 0x00 0x08 0x10 0x04 0x24,
  algEntry 0x40 0x01 0x00 0x04 0x00 0x10 0x01 0x2A,
  algEntry 0x40 0x01 0x00 0x04 0x00 0x10 0x02 0x2A,
  algEntry 0x40 0x01 0x00 0x06 0x00 0x10 0x01 0x28,
  algEntry 0x00 0x01 0x40 0x06 0x00 0x10 0x04 0x28,
  algEntry 0x00 0x01 0x00 0x06 0x40 0x10 0x10 0x28,
  algEntry 0x00 0x00 0x03 0x40 0x08 0x10 0x08 0x24,
  algEntry 0x40 0x00 0x03 0x00 0x08 0x10 0x01 0x24,
  algEntry 0x00 0x00 0x00 0x07 0x40 0x10 0x10 0x28,
  algEntry 0x40 0x00 0x00 0x07 0x00 0x10 0x01 0x28,
  algEntry 0x40 0x00 0x03 0x04 0x00 0x10 0x01 0x28,
  algEntry 0x00 0x00 0x03 0x04 0x40 0x10 0x10 0x28,
  algEntry 0x40 0x01 0x00 0x04 0x00 0x1A 0x01 0x20,
  algEntry 0x00 0x01 0x00 0x04 0x40 0x1A 0x10 0x20,
  algEntry 0x00 0x01 0x02 0x40 0x00 0x1C 0x08 0x20,
  algEntry 0x40 0x01 0x01 0x00 0x08 0x10 0x01 0x26,
  algEntry 0x00 0x00 0x03 0x40 0x08 0x08 0x08 0x34,
  algEntry 0x00 0x01 0x01 0x40 0x08 0x08 0x08 0x36,
  algEntry 0x40 0x01 0x01 0x01 0x00 0x10 0x01 0x2E,
  algEntry 0x40 0x01 0x01 0x00 0x08 0x00 0x01 0x36,
  algEntry 0x40 0x01 0x01 0x01 0x00 0x00 0x01 0x3E,
  algEntry 0x40 0x01 0x01 0x00 0x00 0x00 0x01 0x3E,
  algEntry 0x40 0x00 0x03 0x00 0x08 0x00 0x01 0x34,
  algEntry 0x00 0x00 0x03 0x40 0x08 0x00 0x08 0x34,
  algEntry 0x00 0x40 0x02 0x04 0x00 0x10 0x02 0x29,
  algEntry 0x40 0x01 0x00 0x04 0x00 0x00 0x01 0x3A,
  algEntry 0x00 0x40 0x02 0x04 0x00 0x00 0x02 0x39,
  algEntry 0x40 0x01 0x00 0x00 0x00 0x00 0x01 0x3E,
  algEntry 0x40 0x00 0x00 0x00 0x00 0x00 0x01 0x3F]

/-- ALG_CLASSIC with its proof of 44 R171 (b), 95 S4. -/
def algClassic : AlgRom := { cells := algClassicCells, noSelf := by decide }

/-- `ALG[a][r][c]` (R170): bit `c` of row mask `r` of entry `a`. -/
def algCell (rom : Vector AlgEntry 32) (a : Fin 32) (r c : Fin 8) : Bool := (rom[a][r]).getLsbD c.val

/-- FS_SUPPORTED of R6 as a test. -/
def fsSupported (cfg : Config) (fs : Nat) : Bool := cfg.fsRanges.any fun r => decide (r.1 ≤ fs) && decide (fs ≤ r.2)

/-- The defaults of R6: exact arithmetic, every rate 1 .. 2^32-1, ALG_CLASSIC, PEG_GATE = 0, EG_REFRESH = at_tick,
ALG_OOR = clamp. -/
def defaultConfig : Config where
  num := .exact
  fsRanges := [(1, 2 ^ 32 - 1)]
  algRom := algClassic
  pegGate := false
  egRefresh := .atTick
  algOor := .clamp

end Sys2Proof.Machine
end

