-- ==== Sys2Proof/Machine/State.lean ====
section
/-! DEFINITION. The state of FMVE as plain data (10_state.md), its stops, and the state at power-on. -/

namespace Sys2Proof

namespace Machine

/-- The discrete states of an envelope generator (42 R120, in the source's listing order, 10 R30). -/
inductive EgState where
  | attack
  | decay1
  | decay2
  | sustain
  | release
  | idle
  deriving DecidableEq, Repr, Inhabited

/-- One envelope generator's registers (10 R30): discrete state, value, segment start and target, and the eight
latches. Each is a Num that is rational: a raw integer scaled, or built from such by the four operations (DEDUCED, log
entry 11). -/
structure Eg where
  st : EgState
  val : ℚ
  start : ℚ
  target : ℚ
  er1 : ℚ
  er2 : ℚ
  er3 : ℚ
  er4 : ℚ
  el1 : ℚ
  el2 : ℚ
  el3 : ℚ
  el4 : ℚ
  deriving DecidableEq, Repr, Inhabited

/-- One operator's registers: its 21 parameter registers (10 R21), its runtime registers (R29), and the envelope
generator it owns (R150). VEL is rational (DEDUCED, log entry 11). -/
structure Op where
  p : Vector Raw 21
  phase : Num
  baseFreq : Num
  vel : ℚ
  note : Nat
  eg : Eg
  deriving DecidableEq, Repr, Inhabited

/-- Every state element that is undefined while INITED = 0 (10 R20, R37): all but STATUS. `op[0..5]` with their
envelopes eg[0..5]; `peg` is eg[6], the pitch envelope generator. -/
structure Regs where
  fs : Nat
  op : Vector Op 6
  pv : Vector Raw 29
  peg : Eg
  prev : Vector Num 6
  fb : Num
  deriving DecidableEq, Repr, Inhabited

/-- The STATUS register (10 R28). -/
structure Status where
  inited : Bool
  err : BitVec 2
  deriving DecidableEq, Repr, Inhabited

/-- Bytes by address, sorted, with no entry equal to what an unlisted address reads as. -/
abbrev Memory := List Host.Cell

/-- What the host does to FMVE: it presents a command word (30 R80), or, between commands, writes bytes of its own
BANK buffer (20 R62, R72). -/
inductive HostInput where
  | command (w : Word)
  | bankWrite (addr : Nat) (bytes : List Byte)
  deriving DecidableEq, Repr

/-- The whole state. `toRegs` is the state proper of 10 R20; `status` is STATUS; `sampleOut` and `sampleValid` are the
SAMPLE_OUT port with the validity of 30 R94; `bank` is the host's BANK buffer (20 R62); `inbox` is the host's command
stream (10 R35), oldest first. The model's own fields: `cfg`, the open parameters of 00 R6 (log entry 3), and
`freeCtr`, which counts the free values drawn (log entry 6). -/
structure State extends Regs where
  status : Status
  sampleOut : Num
  sampleValid : Bool
  bank : Memory
  inbox : List HostInput
  cfg : Config
  freeCtr : Nat
  deriving DecidableEq, Repr

/-- FMVE has no faults: "no command ever stops the engine" (60 R250, R254). -/
inductive Fault where
  deriving DecidableEq, Repr

/-- Where the spec gives a command no successor state. -/
inductive Refusal where
  /-- Raised by an arm of exec whose instruction has no meaning yet; safe. No arm raises it in this model. -/
  | notModelled (mnemonic : String)
  /-- Raised by every command but INIT while STATUS.INITED = 0: "A model *refuses* (gives no successor state for) any
  other defined command in that condition" (47 R229, 60 R251 row E10); safe. -/
  | notInitialised
  /-- Raised by SET_PARAM and NOTE_ON when a frequency would be `pow` of a base that is not positive, DET <= -993:
  "`pow` is undefined" (43 R152 (c)), `refuse` (93 U5, 95 NEG4); safe. -/
  | powBaseNotPositive
  deriving DecidableEq, Repr

end Machine

/-- FREE VALUES (10 R37; log entry 6): after the n-th failed INIT "every other state element becomes undefined". -/
opaque Config.undefinedRegs : Nat → Machine.Regs

namespace Machine

/-- An envelope generator after INIT or RESET (10 R37). -/
def Eg.initial : Eg :=
  { st := .idle, val := 0, start := 0, target := 0,
    er1 := 0, er2 := 0, er3 := 0, er4 := 0, el1 := 0, el2 := 0, el3 := 0, el4 := 0 }

/-- An operator with zeroed parameters after INIT (10 R37). -/
def Op.initial : Op :=
  { p := Vector.replicate 21 0, phase := .rat 0, baseFreq := .rat 0, vel := 0, note := 0, eg := Eg.initial }

/-- The registers at power-on. DESIGN CHOICE (log entry 4, unsafe): R37 calls every one of them undefined; the model
names zero, and IDLE for the envelopes. No command reads them before a successful INIT has written them (R229). -/
def Regs.powerOn : Regs :=
  { fs := 0, op := Vector.replicate 6 Op.initial, pv := Vector.replicate 29 0, peg := Eg.initial,
    prev := Vector.replicate 6 (.rat 0), fb := .rat 0 }

/-- Power-on (70 R280, 95 RST1): STATUS = 0b000, no command presented, nothing in BANK, the default parameters. -/
def State.reset : State :=
  { Regs.powerOn with
    status := { inited := false, err := 0 }, sampleOut := .rat 0, sampleValid := false,
    bank := [], inbox := [], cfg := defaultConfig, freeCtr := 0 }

end Machine

end Sys2Proof
end

