-- ==== Sys2Proof/Machine/Flags.lean ====
section
/-! DEFINITION. FMVE has no condition codes (10 R36): its only flags are the two fields of STATUS, written by INIT
alone (10 R28). -/

namespace Sys2Proof.Machine

/-- STATUS after a successful INIT: ERR = 0, INITED = 1 (47 R221). -/
def Status.afterInit : Status := { inited := true, err := 0 }

/-- STATUS after a failed INIT: INITED = 0, ERR = 1, "unsupported sample rate" (47 R221, 60 R251 row E1). -/
def Status.afterFailedInit : Status := { inited := false, err := 1 }

/-- The STATUS output: the 3-bit value with ERR in the high two bits and INITED in bit 0 (30 R94). -/
def Status.word (t : Status) : BitVec 3 := t.err ++ BitVec.ofBool t.inited

/-- The SAMPLE_OUT output as an observer may use it: a value while it is valid (30 R94), nothing otherwise (93 U11). -/
def State.sample (s : State) : Option Num := if s.sampleValid then some s.sampleOut else none

end Sys2Proof.Machine
end

