-- ==== Sys2Proof/Syntax.lean ====
section
/-! DEFINITION. The instruction set of FMVE: its seven host commands (30_encoding.md R81), with the operands of R82. -/

namespace Sys2Proof

/-- One constructor per row of the opcode table. Operands are the integers of R82; the value of SET_PARAM is the
`int32` register content itself. -/
inductive Instr where
  /-- INIT (R221): `fs`, the sample rate in hertz. -/
  | init (fs : Nat)
  /-- RESET (R222). -/
  | reset
  /-- NOTE_ON (R223). -/
  | noteOn (note velocity : Nat)
  /-- NOTE_OFF (R224): the note is carried and not used. -/
  | noteOff (note : Nat)
  /-- SET_PARAM (R225). -/
  | setParam (index : Nat) (value : Raw)
  /-- TICK (R226). -/
  | tick
  /-- LOAD_VOICE (R227): `v` the voice index, `len` the length L of BANK. -/
  | loadVoice (v len : Nat)
  deriving DecidableEq, Repr

end Sys2Proof
end

