-- ==== Sys2Proof/WellFormed.lean ====
section
/-! DEFINITION. An instruction is well formed when every operand fits its field of the command word
(30_encoding.md R82). -/

namespace Sys2Proof

/-- The operand types of R82: `uint32` for INIT's rate and LOAD_VOICE's length, `uint7` for notes and velocities,
`uint24` for the index and the voice number. -/
def Instr.wf : Instr → Bool
  | .init fs => decide (fs < 2 ^ 32)
  | .reset => true
  | .noteOn note velocity => decide (note < 128) && decide (velocity < 128)
  | .noteOff note => decide (note < 128)
  | .setParam index _ => decide (index < 2 ^ 24)
  | .tick => true
  | .loadVoice v len => decide (v < 2 ^ 24) && decide (len < 2 ^ 32)

end Sys2Proof
end

