-- ==== Sys2Proof/Decode.lean ====
section
/-! DEFINITION. Decoding a 64-bit command word and encoding a command, from the tables of 30_encoding.md R80 to R83. -/

namespace Sys2Proof

/-- `OPC = W[63:56]` (R80). -/
def Word.opc (w : Word) : Nat := (w.extractLsb 63 56).toNat
/-- `A = W[55:32]` (R80), as an unsigned integer. -/
def Word.fieldA (w : Word) : Nat := (w.extractLsb 55 32).toNat
/-- `B = W[31:0]` (R80). -/
def Word.fieldB (w : Word) : BitVec 32 := w.extractLsb 31 0
/-- `A[14:8] = W[46:40]` (R82): the note of NOTE_ON and NOTE_OFF. -/
def Word.fieldNote (w : Word) : Nat := (w.extractLsb 46 40).toNat
/-- `A[6:0] = W[38:32]` (R82): the velocity of NOTE_ON. -/
def Word.fieldVelocity (w : Word) : Nat := (w.extractLsb 38 32).toNat

/-- Why a word is no instruction. The machine goes on: a reserved word is a no-operation (R83 (a), R228). -/
inductive DecodeError where
  /-- OPC is 0x00 or 0x08..0xFF (R81, R83). -/
  | reservedOpcode (opc : Nat)
  deriving DecidableEq, Repr

/-- The decoder: total on every 64-bit word. Bits that R82 gives no operand are not examined (R83 (b)). -/
def decode (w : Word) : Except DecodeError Instr :=
  match Word.opc w with
  | 0x01 => .ok (.init (Word.fieldB w).toNat)
  | 0x02 => .ok .reset
  | 0x03 => .ok (.noteOn (Word.fieldNote w) (Word.fieldVelocity w))
  | 0x04 => .ok (.noteOff (Word.fieldNote w))
  | 0x05 => .ok (.setParam (Word.fieldA w) (Word.fieldB w))
  | 0x06 => .ok .tick
  | 0x07 => .ok (.loadVoice (Word.fieldA w) (Word.fieldB w).toNat)
  | opc => .error (.reservedOpcode opc)

/-- Assemble a command word from its three fields (R80). -/
def packWord (opc a b : Nat) : Word := BitVec.ofNat 64 (opc * 2 ^ 56 + a * 2 ^ 32 + b)

/-- The encoder (R81, R82, R91); bits that no operand takes are written as zero (R83 (b)). -/
def encode : Instr → Word
  | .init fs => packWord 0x01 0 fs
  | .reset => packWord 0x02 0 0
  | .noteOn note velocity => packWord 0x03 (note * 256 + velocity) 0
  | .noteOff note => packWord 0x04 (note * 256) 0
  | .setParam index value => packWord 0x05 index value.toNat
  | .tick => packWord 0x06 0 0
  | .loadVoice v len => packWord 0x07 v len

/-- The decoder on a word numbered as spec/opcode_table.json numbers it: the bits above `nbits` are zero, and FMVE's
only instruction length is 64 bits (R93), so a number that needs more is no command word. -/
def decodeTableWord (nbits w : Nat) : Option Instr :=
  if w % 2 ^ nbits < 2 ^ 64 then
    match decode (BitVec.ofNat 64 (w % 2 ^ nbits)) with
    | .ok i => some i
    | .error _ => none
  else none

end Sys2Proof
end

