-- ==== Sys2Proof/Machine/Numeric.lean ====
section
/-! DEFINITION. Arithmetic on Num under a number format (00_scope.md R6, R7), and the numeric primitives of R8 and R11:
`fmod1`, `exp2`, `pow`, the entries of the sine ROM. "Every result of this spec is the exact result rounded by that
format at every operation" (R7). -/

namespace Sys2Proof

/-! ## Rounding, over any ordered field with a floor: Num's rationals, and the reals of Machine/Value.lean -/

/-- The greatest integer `e` with `2^e <= x`, for a positive `x`. -/
def floorLog2 {α : Type} [Field α] [LinearOrder α] [FloorRing α] (x : α) : Int :=
  if 1 ≤ x then (Nat.log2 ⌊x⌋.toNat : Int) else -((Nat.log2 (⌈x⁻¹⌉.toNat - 1) : Int) + 1)

/-- The integer that a direction of rounding takes `y` to. -/
def Rounding.toInt {α : Type} [Field α] [LinearOrder α] [FloorRing α] (m : Rounding) (y : α) : Int :=
  let n := ⌊y⌋
  let d := y - (n : α)
  match m with
  | .nearestEven => if d < 1 / 2 then n else if 1 / 2 < d then n + 1 else if n % 2 = 0 then n else n + 1
  | .nearestAway => if d < 1 / 2 then n else if 1 / 2 < d then n + 1 else if 0 ≤ y then n + 1 else n
  | .towardZero => if 0 ≤ y then n else ⌈y⌉
  | .upward => ⌈y⌉
  | .downward => n

/-- The exponent of the unit in which a finite format holds `x`. -/
def unitExp {α : Type} [Field α] [LinearOrder α] [FloorRing α] (precision : Nat) (minExp : Int) (x : α) : Int :=
  max minExp (floorLog2 |x| - precision + 1)

/-- `x` rounded once by a format. A finite result whose magnitude reaches `2^(maxExp+1)` is the free value of its sign
(93 U6; log entry 1). -/
def NumFormat.roundTo {α : Type} [Field α] [LinearOrder α] [FloorRing α] (f : NumFormat) (x : α) : α :=
  match f with
  | .exact => x
  | .finite precision minExp maxExp mode =>
    if x = 0 then 0
    else
      let q := unitExp precision minExp x
      let r := (mode.toInt (x / (2 : α) ^ q) : α) * (2 : α) ^ q
      if (2 : α) ^ (maxExp + 1) ≤ |r| then ((Config.overflowValue f (decide (0 < x)) : ℚ) : α) else r

namespace NumFormat

/-! ## Rounded arithmetic on rationals -/

/-- An exact rational result, rounded. -/
def q (f : NumFormat) (x : ℚ) : ℚ := f.roundTo x
/-- `a + b`, rounded. -/
def qadd (f : NumFormat) (a b : ℚ) : ℚ := f.q (a + b)
/-- `a - b`, rounded. -/
def qsub (f : NumFormat) (a b : ℚ) : ℚ := f.q (a - b)
/-- `a * b`, rounded. -/
def qmul (f : NumFormat) (a b : ℚ) : ℚ := f.q (a * b)
/-- `a / b`, rounded. -/
def qdiv (f : NumFormat) (a b : ℚ) : ℚ := f.q (a / b)

end NumFormat

/-! ## Exact arithmetic on Num -/

namespace Num

/-- `x + y`; a term 0 leaves the other. -/
def add : Num → Num → Num
  | .rat a, .rat b => .rat (a + b)
  | .rat a, y => if a = 0 then y else .sum (.rat a) y
  | x, .rat b => if b = 0 then x else .sum x (.rat b)
  | x, y => .sum x y

/-- `x - y`. -/
def sub : Num → Num → Num
  | .rat a, .rat b => .rat (a - b)
  | x, y => .diff x y

/-- `x * y`; a factor 0 settles the product, and a factor 1 leaves the other. -/
def mul : Num → Num → Num
  | .rat a, .rat b => .rat (a * b)
  | .rat a, y => if a = 0 then .rat 0 else if a = 1 then y else .prod (.rat a) y
  | x, .rat b => if b = 0 then .rat 0 else if b = 1 then x else .prod x (.rat b)
  | x, y => .prod x y

/-- `x / y`; a divisor 1 leaves the dividend. -/
def div : Num → Num → Num
  | .rat a, .rat b => .rat (a / b)
  | x, .rat b => if b = 1 then x else .quot x (.rat b)
  | x, y => .quot x y

end Num

/-! ## Rounded arithmetic on Num -/

namespace NumFormat

/-- An exact result, rounded. -/
def round (f : NumFormat) (x : Num) : Num :=
  match f with
  | .exact => x
  | .finite p emin emax mode =>
    match x with
    | .rat a => .rat ((NumFormat.finite p emin emax mode).q a)
    | x => .rounded (.finite p emin emax mode) x

/-- `x + y`, rounded. -/
def add (f : NumFormat) (x y : Num) : Num := f.round (x.add y)
/-- `x - y`, rounded. -/
def sub (f : NumFormat) (x y : Num) : Num := f.round (x.sub y)
/-- `x * y`, rounded. -/
def mul (f : NumFormat) (x y : Num) : Num := f.round (x.mul y)
/-- `x / y`, rounded. -/
def div (f : NumFormat) (x y : Num) : Num := f.round (x.div y)

end NumFormat

namespace Machine

/-! ## The primitives -/

/-- `fmod1(x) = x - floor(x)` (00 R11, 43 R158). DESIGN CHOICE (log entry 20): under a finite NUM the integer `floor(x)`
is exact, and the difference is rounded. -/
def fmod1 (f : NumFormat) : Num → Num
  | .rat a => .rat (f.qsub a (⌊a⌋ : ℚ))
  | x => .fractOf f x

/-- `exp2(x) = 2^x` (00 R8), rounded; computed where 95 FN2 gives the value. -/
def exp2 (f : NumFormat) (x : ℚ) : Num := f.round (if x.den = 1 then .rat ((2 : ℚ) ^ x.num) else .exp2Of x)

/-- `pow(b, e) = b^e` for `b > 0` (00 R8), rounded; computed at an integer exponent. For any other base the value is
whatever the configuration function `pow` gives (log entry 10). -/
def pow (f : NumFormat) (b e : ℚ) : Num := f.round (if 0 < b ∧ e.den = 1 then .rat (b ^ e.num) else .powOf b e)

/-- `SINE[i] = sin(2*pi*i/512)` (41 R110): "Under a finite NUM each entry is that value rounded once"; computed at the
four exact entries. -/
def sine (f : NumFormat) (i : Nat) : Num :=
  f.round
    (if i = 0 then .rat 0 else if i = 128 then .rat 1 else if i = 256 then .rat 0 else if i = 384 then .rat (-1)
     else .sineOf i)

end Machine

end Sys2Proof
end

