-- ==== Sys2Proof/Machine/Ops.lean ====
section
/-! DEFINITION. The shared operations over memory, the register files and the command stream. FMVE has no traps
(60 R250, R254), so there is no exception entry and no return from one: what stands in their place is `complete`, with
which an absorbed error ends (R251), and the refusal of `whenInited` (47 R229). -/

namespace Sys2Proof.Machine

/-! ## BANK, the host's byte buffer (20 R62) -/

/-- What an address of BANK that nothing has written reads as: DESIGN CHOICE (log entry 5, unsafe). -/
def unlistedByte : Byte := 0

/-- `BANK[a]` (00 R11). -/
def Memory.read : Memory → Nat → Byte
  | [], _ => unlistedByte
  | c :: m, a => if c.1 = a then c.2 else Memory.read m a

/-- Write one byte, keeping the canonical form: sorted, and no entry equal to what an unlisted address reads as. -/
def Memory.write : Memory → Nat → Byte → Memory
  | [], a, b => if b = unlistedByte then [] else [(a, b)]
  | c :: m, a, b =>
    if a < c.1 then (if b = unlistedByte then c :: m else (a, b) :: c :: m)
    else if a = c.1 then (if b = unlistedByte then m else (a, b) :: m)
    else c :: Memory.write m a b

/-- Write a run of bytes from address `a` up: what the host does to its own buffer between commands. -/
def Memory.writeBytes : Memory → Nat → List Byte → Memory
  | m, _, [] => m
  | m, a, b :: bs => Memory.writeBytes (Memory.write m a b) (a + 1) bs

/-- The canonical form: addresses strictly rising, no entry equal to what an unlisted address reads as. -/
abbrev Memory.wf (m : Memory) : Prop :=
  m.Pairwise (fun c d => c.1 < d.1) ∧ ∀ c ∈ m, c.2 ≠ unlistedByte

/-- The least address `a` with `lo <= a < hi` and `BANK[a] = b`, for a byte `b` other than `unlistedByte` and a memory
in canonical form (46 R200: "the least a with ..."); Laws/Memory.lean proves that it is the least. -/
def Memory.findByte (m : Memory) (b : Byte) (lo hi : Nat) : Option Nat :=
  (m.find? fun c => decide (lo ≤ c.1) && decide (c.1 < hi) && decide (c.2 = b)).map (·.1)

/-! ## Register files -/

/-- A file of six registers from its six contents: the loops "for k = 0 .. 5" of 45 R180, R188. -/
def six {α : Type} (f : Fin 6 → α) : Vector α 6 := #v[f 0, f 1, f 2, f 3, f 4, f 5]

/-- Replace one operator's register set by a function of it. -/
def modifyOp (r : Regs) (k : Fin 6) (f : Op → Op) : Regs := { r with op := r.op.set k (f r.op[k]) }

/-- `sum / num(cnt)` over the listed values, accumulated in their order, 0 if there are none (45 R180, R183, R184:
"average, not sum", "0 if none"). DESIGN CHOICE (log entry 19): where a finite NUM too coarse to hold the count rounds
`num(cnt)` to 0, the quotient is 0. -/
def average (f : NumFormat) (l : List Num) : Num :=
  if l.length = 0 then .rat 0 else f.div (l.foldl f.add (.rat 0)) (.rat (f.q (l.length : ℚ)))

/-! ## How a command ends -/

/-- A command other than TICK has completed with the registers `r`: the validity of SAMPLE_OUT ends (30 R94), and
nothing else changes. A command that detects an absorbed error condition completes with the registers it found: it
"performs none of" its effect and nothing tells the host (47 R220, 60 R250 (c)). -/
def complete (s : State) (r : Regs) : State := { s with toRegs := r, sampleValid := false }

/-- A TICK has completed with the registers `r` and the sample `out`: "`SAMPLE_OUT <- V.TICK()`" (47 R226, 30 R94). -/
def completeTick (s : State) (r : Regs) (out : Num) : State :=
  { s with toRegs := r, sampleOut := out, sampleValid := true }

/-- Every command but INIT is refused while STATUS.INITED = 0 (47 R229, 60 R251 row E10, decided before anything else,
60 R255). -/
def whenInited (s : State) (o : Host.Outcome State Fault Refusal) : Host.Outcome State Fault Refusal :=
  if s.status.inited then o else .refused .notInitialised

/-! ## The command stream (10 R35, 47 R220) -/

/-- What the front of the inbox is, with the state from which it is executed. -/
inductive Fetched where
  /-- No command is presented: the engine "simply holds its state" (60 R258). -/
  | idle
  /-- The host has written its BANK buffer. -/
  | hostWrite (s : State)
  /-- A reserved word (30 R83 (a)). -/
  | reserved (s : State)
  /-- A command to execute. -/
  | run (i : Instr) (s : State)

/-- Take the next host input from the front of the inbox and decode it. -/
def fetch (s : State) : Fetched :=
  match s.inbox with
  | [] => .idle
  | .bankWrite a bs :: rest => .hostWrite { s with bank := s.bank.writeBytes a bs, inbox := rest }
  | .command w :: rest =>
    match decode w with
    | .ok i => .run i { s with inbox := rest }
    | .error _ => .reserved { s with inbox := rest }

end Sys2Proof.Machine
end

