-- ==== Sys2Proof/Machine/Operands.lean ====
section
/-! DEFINITION. Operands: the names of the parameter registers (10 R21, R24), how a flat index names one (10 R26), and
how each raw integer becomes the Num a formula uses (30 R89). -/

namespace Sys2Proof.Machine

/-! ## Operator field ordinals (10 R21) -/

namespace OpField
abbrev R1 : Fin 21 := 0
abbrev R2 : Fin 21 := 1
abbrev R3 : Fin 21 := 2
abbrev R4 : Fin 21 := 3
abbrev L1 : Fin 21 := 4
abbrev L2 : Fin 21 := 5
abbrev L3 : Fin 21 := 6
abbrev L4 : Fin 21 := 7
abbrev KLS_BP : Fin 21 := 8
abbrev KLS_LD : Fin 21 := 9
abbrev KLS_RD : Fin 21 := 10
abbrev KLS_LC : Fin 21 := 11
abbrev KLS_RC : Fin 21 := 12
abbrev DET : Fin 21 := 13
abbrev KRS : Fin 21 := 14
abbrev KVS : Fin 21 := 15
abbrev AMS : Fin 21 := 16
abbrev OL : Fin 21 := 17
abbrev COARSE : Fin 21 := 18
abbrev MODE : Fin 21 := 19
abbrev FINE : Fin 21 := 20
end OpField

/-! ## Voice field ordinals (10 R24); NAME0..NAME9 are 19..28 -/

namespace VField
abbrev PR1 : Fin 29 := 0
abbrev PR2 : Fin 29 := 1
abbrev PR3 : Fin 29 := 2
abbrev PR4 : Fin 29 := 3
abbrev PL1 : Fin 29 := 4
abbrev PL2 : Fin 29 := 5
abbrev PL3 : Fin 29 := 6
abbrev PL4 : Fin 29 := 7
abbrev ALG : Fin 29 := 8
abbrev FBL : Fin 29 := 9
abbrev OSYNC : Fin 29 := 10
abbrev LFS : Fin 29 := 11
abbrev LFD : Fin 29 := 12
abbrev PMD : Fin 29 := 13
abbrev AMD : Fin 29 := 14
abbrev PMS : Fin 29 := 15
abbrev LFW : Fin 29 := 16
abbrev LFKS : Fin 29 := 17
abbrev TRNSP : Fin 29 := 18
abbrev NAME0 : Fin 29 := 19
abbrev NAME9 : Fin 29 := 28
end VField

/-! ## The flat index (10 R26, 00 R12) -/

/-- `5 - (i div 21)`: the internal operator index that a flat index below 126 names ("reversed operator indexing"). -/
def opIndex (i : Nat) : Fin 6 := ⟨5 - i / 21, by omega⟩

/-- `i mod 21`: the field ordinal that a flat index below 126 names. -/
def opFieldIndex (i : Nat) : Fin 21 := ⟨i % 21, Nat.mod_lt _ (by decide)⟩

/-- DET, COARSE, MODE and FINE: the fields whose write recomputes the base frequency (43 R153). -/
def isFreqField (f : Fin 21) : Bool :=
  f == OpField.DET || f == OpField.COARSE || f == OpField.MODE || f == OpField.FINE

/-! ## Raw integer to Num (30 R89) -/

/-- `num(i)` of a register (00 R8): the `int32` it holds, as a Num. -/
def num (f : NumFormat) (r : Raw) : ℚ := f.q (r.toInt : ℚ)

/-- The constant `0.01` of 00 R8. -/
def centi (f : NumFormat) : ℚ := f.q (1 / 100)

/-- "scaled by 0.01": rates, levels, OL, FINE (R89). -/
def hundredth (f : NumFormat) (r : Raw) : ℚ := f.qmul (num f r) (centi f)

/-- `raw / 7`: KVS and FBL (R89). -/
def seventh (f : NumFormat) (r : Raw) : ℚ := f.qdiv (num f r) 7

/-- COARSE in ratio mode: `raw` if `raw > 0`, else 0.5 (R89, 43 R151). The test is one of the three that "are evaluated
on Num values as computed" (00 R7), so it is made on `num(COARSE)`. -/
def coarseRatio (f : NumFormat) (r : Raw) : ℚ := if 0 < num f r then num f r else 1 / 2

/-- COARSE in fixed mode: `raw tmod 4`, the remainder truncated toward zero (R89, 00 R10, 43 R152). -/
def coarseFixed (f : NumFormat) (r : Raw) : ℚ := f.q ((r.toInt.tmod 4 : Int) : ℚ)

/-- MODE: 0 is ratio, anything else is fixed (43 R150). -/
def isFixed (r : Raw) : Bool := decide (r ≠ 0)

/-- The algorithm entry in use, `min(max(P_V[ALG], 0), 31)` (44 R174, 45 R182). -/
def clampAlg (r : Raw) : Fin 32 := ⟨(min (max r.toInt 0) 31).toNat, by omega⟩

/-- Whether the algorithm index is in 0..31 (44 R174, 60 R251 row E8). -/
def algInRange (r : Raw) : Bool := decide (0 ≤ r.toInt) && decide (r.toInt ≤ 31)

end Sys2Proof.Machine
end

