-- ==== Sys2Proof/Machine/Envelope.lean ====
section
/-! DEFINITION. The envelope generator state machine (42_envelope.md). `e` is one of eg[0..6]. -/

namespace Sys2Proof.Machine

/-- The moving states: Attack, Decay1, Decay2, Release (00 glossary, 10 R31). -/
def EgState.moving : EgState → Bool
  | .attack => true
  | .decay1 => true
  | .decay2 => true
  | .sustain => false
  | .release => true
  | .idle => false

/-- EG.REFRESH (R121): load the eight latches, each raw value times 0.01. -/
def Eg.refresh (f : NumFormat) (e : Eg) (r1 r2 r3 r4 l1 l2 l3 l4 : Raw) : Eg :=
  { e with
    er1 := hundredth f r1, er2 := hundredth f r2, er3 := hundredth f r3, er4 := hundredth f r4,
    el1 := hundredth f l1, el2 := hundredth f l2, el3 := hundredth f l3, el4 := hundredth f l4 }

/-- EG.ENTER (R122): begin a segment; the value is set to the start. -/
def Eg.enter (e : Eg) (st : EgState) (start target : ℚ) : Eg :=
  { e with st := st, start := start, target := target, val := start }

/-- EG.GATE_ON (R123). -/
def Eg.gateOn (e : Eg) : Eg :=
  if e.er1 < 1 then e.enter .attack 0 e.el1
  else if e.er2 < 1 then e.enter .decay1 e.el1 e.el2
  else if e.er3 < 1 then e.enter .decay2 e.el2 e.el3
  else { e with st := .sustain, val := e.el3 }

/-- EG.GATE_OFF (R124). -/
def Eg.gateOff (e : Eg) : Eg :=
  if e.st = .idle then e
  else if e.er4 < 1 then e.enter .release e.val e.el4
  else { e with st := .idle, val := e.el4 }

/-- EG.COMPLETE (R128): the transition at segment completion; the value has just been set to the target. -/
def Eg.finish (e : Eg) : Eg :=
  match e.st with
  | .attack =>
    if e.er2 < 1 then e.enter .decay1 e.val e.el2
    else if e.er3 < 1 then e.enter .decay2 e.val e.el3
    else { e with st := .sustain }
  | .decay1 => if e.er3 < 1 then e.enter .decay2 e.val e.el3 else { e with st := .sustain }
  | .decay2 => { e with st := .sustain }
  | .release => { e with st := .idle }
  | .sustain => e
  | .idle => e

/-- The latched rate of the current segment (R120, R125): ER1 to ER4 for ATTACK, DECAY1, DECAY2, RELEASE. A holding
state has no segment; its rate is never used. -/
def Eg.rate (e : Eg) : ℚ :=
  match e.st with
  | .attack => e.er1
  | .decay1 => e.er2
  | .decay2 => e.er3
  | .release => e.er4
  | .sustain => 0
  | .idle => 0

/-- `N = (1 - R)^4 * num(FS)` (R125), `(1-R)^4 = ((1-R)*(1-R))*((1-R)*(1-R))`: the segment length in ticks. -/
def Eg.segmentTicks (f : NumFormat) (fs : Nat) (e : Eg) : ℚ :=
  let d := f.qsub 1 e.rate
  f.qmul (f.qmul (f.qmul d d) (f.qmul d d)) (f.q (fs : ℚ))

/-- Snap the value to the target and leave the segment (R125, R128). -/
def Eg.snap (e : Eg) : Eg := Eg.finish { e with val := e.target }

/-- EG.TICK in a moving state (R125); `N = 0` is the singular rate (R131). -/
def Eg.advance (f : NumFormat) (fs : Nat) (e : Eg) : Eg :=
  let n := e.segmentTicks f fs
  if n = 0 then e.snap
  else
    let v := f.qadd e.val (f.qdiv (f.qsub e.target e.start) n)
    if |f.qsub e.target e.start| ≤ |f.qsub v e.start| then e.snap else { e with val := v }

/-- EG.TICK: R125 in a moving state, R126 in SUSTAIN, R127 in IDLE. The value it returns is the VAL it leaves
(R130: "the value *after* this tick's advance"). -/
def Eg.step (f : NumFormat) (fs : Nat) (e : Eg) : Eg :=
  match e.st with
  | .sustain => { e with val := e.el3 }
  | .idle => { e with val := e.el4 }
  | .attack => e.advance f fs
  | .decay1 => e.advance f fs
  | .decay2 => e.advance f fs
  | .release => e.advance f fs

end Sys2Proof.Machine
end

