-- ==== Sys2Proof/Machine/Oscillator.lean ====
section
/-! DEFINITION. The oscillator (41_oscillator.md): the lookup in the sine ROM with linear interpolation. -/

namespace Sys2Proof.Machine

/-- `u = x - 512*floor(x/512)` with `x = phase*512 + 512` (R111): the table position. DESIGN CHOICE (log
entry 20): the integer `floor(x/512)` is exact, and under a finite NUM its product with 512 is rounded. -/
def oscPosition (f : NumFormat) (phase : ℚ) : ℚ :=
  let x := f.qadd (f.qmul phase 512) 512
  f.qsub x (f.qmul 512 (⌊f.qdiv x 512⌋ : ℚ))

/-- The ROM address of `floor(u)`: "the oscillator index is reduced modulo 512", so it is "always in range" (20 R63). -/
def tableIndex (n : Int) : Nat := (n % 512).toNat

/-- `SINE[i0] + fr*(SINE[i1] - SINE[i0])` (R111). -/
def interpolate (f : NumFormat) (i0 : Nat) (fr : ℚ) : Num :=
  f.add (sine f i0) (f.mul (.rat fr) (f.sub (sine f ((i0 + 1) % 512)) (sine f i0)))

/-- OSC (R111). Of a phase that is not known to be rational, the value is kept as the expression it is.
DESIGN CHOICE (log entry 16): under a finite NUM whose rounding or overflow leaves the position `u` outside [0, 512), the
index is reduced as 20 R63 says, and `fr` is `u - floor(u)`, from the integer before the reduction. DESIGN CHOICE (log
entry 20): that integer is exact, and the difference is rounded. -/
def osc (f : NumFormat) : Num → Num
  | .rat phase =>
    let u := oscPosition f phase
    interpolate f (tableIndex ⌊u⌋) (f.qsub u (⌊u⌋ : ℚ))
  | x => .oscOf f x

end Sys2Proof.Machine
end

