-- ==== Sys2Proof/Machine/Operator.lean ====
section
/-! DEFINITION. The operator (43_operator.md). `o` is one of op[0..5] with the envelope generator it owns; `f` is the
number format NUM. -/

namespace Sys2Proof.Machine

/-- `P_OP[k][f]` of this operator. -/
def Op.raw (o : Op) (f : Fin 21) : Raw := o.p[f]

/-- The base `10 + detune`, `detune = (num(DET) - 7) * 0.01`, of the fixed mode (R152). DESIGN CHOICE (log entry 1):
under a finite NUM the constants 10 and 7 stand as they are and 0.01 is rounded. -/
def Op.fixedBase (f : NumFormat) (o : Op) : ℚ := f.qadd 10 (f.qmul (f.qsub (num f (o.raw OpField.DET)) 7) (centi f))

/-- The exponent of the fixed mode (R152). -/
def Op.fixedExponent (f : NumFormat) (o : Op) : ℚ :=
  f.qadd (coarseFixed f (o.raw OpField.COARSE)) (hundredth f (o.raw OpField.FINE))

/-- OP.CALCFREQ, ratio mode (R151), as the value it writes. DESIGN CHOICE (log entry 17): under a finite NUM the
difference `note - 9` is rounded once, as R151 writes `num(note - 9)`, and the note is not rounded before it. -/
def Op.ratioFreq (f : NumFormat) (o : Op) (note : Nat) : Num :=
  let freq := f.mul (.rat (440 / 32)) (exp2 f (f.qdiv (f.q ((note : ℚ) - 9)) 12))
  let detune := f.qsub (num f (o.raw OpField.DET)) 7
  f.mul (f.mul (f.add freq (.rat detune)) (.rat (coarseRatio f (o.raw OpField.COARSE))))
    (.rat (f.qadd 1 (hundredth f (o.raw OpField.FINE))))

/-- OP.CALCFREQ, fixed mode (R152), as the value it writes; the note is not used. -/
def Op.fixedFreq (f : NumFormat) (o : Op) : Num := pow f (o.fixedBase f) (o.fixedExponent f)

/-- Whether OP.CALCFREQ has a value: in fixed mode `pow` is undefined "for an out-of-range DET <= -993" (R152 corner
(c), 93 U5). DESIGN CHOICE (log entry 10): the raw DET decides under a finite NUM too. Where such a NUM rounds the base
`10 + detune` to a number that is not positive although DET is above -993, the command completes, and BASEFREQ is
whatever the configuration function `pow` gives there, on which nothing is known. -/
def Op.freqDefined (o : Op) : Bool := !isFixed (o.raw OpField.MODE) || decide (-993 < (o.raw OpField.DET).toInt)

/-- The frequency OP.CALCFREQ writes to BASEFREQ (R150). -/
def Op.freq (f : NumFormat) (o : Op) (note : Nat) : Num :=
  if isFixed (o.raw OpField.MODE) then o.fixedFreq f else o.ratioFreq f note

/-- OP.CALCFREQ (R151, R152). -/
def Op.calcFreq (f : NumFormat) (o : Op) (note : Nat) : Op := { o with baseFreq := o.freq f note }

/-- EG.REFRESH of the owned envelope from P_OP[k][R1..R4, L1..L4] (R154 step (a)). -/
def Op.refreshEg (f : NumFormat) (o : Op) : Op :=
  { o with
    eg := o.eg.refresh f (o.raw OpField.R1) (o.raw OpField.R2) (o.raw OpField.R3) (o.raw OpField.R4)
      (o.raw OpField.L1) (o.raw OpField.L2) (o.raw OpField.L3) (o.raw OpField.L4) }

/-- `P_OP[k][f] <- value`. -/
def Op.store (o : Op) (f : Fin 21) (value : Raw) : Op := { o with p := o.p.set f value }

/-- OP.SETPARAM (R153), with the EG_REFRESH = at_write variant of 10 R39. -/
def Op.setParam (cfg : Config) (f : Fin 21) (value : Raw) (o : Op) : Op :=
  let o := o.store f value
  let o := if isFreqField f then o.calcFreq cfg.num o.note else o
  if cfg.egRefresh = .atWrite ∧ f.val < 8 then o.refreshEg cfg.num else o

/-- Whether OP.SETPARAM's recompute has a value (R152 corner (c), R153). -/
def Op.setParamDefined (f : Fin 21) (value : Raw) (o : Op) : Bool := !isFreqField f || (o.store f value).freqDefined

/-- `w = BASEFREQ / num(FS) * exp2(pitchMod * 8 - 4)`, in cycles per sample (R154 step (b)). DESIGN CHOICE (log entry 1):
under a finite NUM the constants 8 and 4 stand as they are. DESIGN CHOICE (log entry 19): where such a NUM rounds
`num(FS)` to 0, the quotient is 0. -/
def Op.increment (f : NumFormat) (fs : Nat) (pitchMod : ℚ) (o : Op) : Num :=
  f.mul (f.div o.baseFreq (.rat (f.q (fs : ℚ)))) (exp2 f (f.qsub (f.qmul pitchMod 8) 4))

/-- OP.TICK (R154): the operator after the tick, and its output sample. `ampMod` "is accepted but unused". The four
multiplications are in the order of corner (f). -/
def Op.tick (f : NumFormat) (fs : Nat) (phaseMod : Num) (pitchMod _ampMod : ℚ) (o : Op) : Op × Num :=
  let o := o.refreshEg f
  let w := o.increment f fs pitchMod
  let s := osc f o.phase
  let eg := o.eg.step f fs
  let out := f.mul (f.mul (f.mul s (.rat eg.val)) (.rat o.vel)) (.rat (hundredth f (o.raw OpField.OL)))
  ({ o with eg := eg, phase := fmod1 f (f.add (f.add o.phase w) (f.mul phaseMod (.rat (f.q (1 / 10))))) }, out)

/-- The note-velocity scalar (R155). -/
def velocityScalar (f : NumFormat) (kvs : Raw) (velocity : Nat) : ℚ :=
  f.qadd (f.qmul (f.qdiv (f.q (velocity : ℚ)) 127) (seventh f kvs)) (f.qsub 1 (seventh f kvs))

/-- OP.NOTEON (R155). -/
def Op.noteOn (f : NumFormat) (note velocity : Nat) (o : Op) : Op :=
  { o with
    note := note, baseFreq := o.freq f note, vel := velocityScalar f (o.raw OpField.KVS) velocity,
    phase := .rat 0, eg := o.eg.gateOn }

/-- OP.NOTEOFF (R156): gate the envelope off and nothing else; the note is not used. -/
def Op.noteOff (_note : Nat) (o : Op) : Op := { o with eg := o.eg.gateOff }

/-- An operator's runtime registers after RUNTIME_RESET; the parameters are kept (47 R222). -/
def Op.runtimeReset (o : Op) : Op :=
  { o with phase := .rat 0, baseFreq := .rat 0, vel := 0, note := 0, eg := Eg.initial }

end Sys2Proof.Machine
end

