-- ==== Sys2Proof/Machine/Voice.lean ====
section
/-! DEFINITION. The voice (45_voice.md): the routing crossbar, the feedback register and the per-sample schedule; and
RUNTIME_RESET (47 R222). -/

namespace Sys2Proof.Machine

/-- EG.REFRESH of PEG from P_V[PR1..PR4, PL1..PL4] (R181). -/
def refreshPeg (f : NumFormat) (r : Regs) : Eg :=
  r.peg.refresh f r.pv[VField.PR1] r.pv[VField.PR2] r.pv[VField.PR3] r.pv[VField.PR4]
    r.pv[VField.PL1] r.pv[VField.PL2] r.pv[VField.PL3] r.pv[VField.PL4]

/-- The operators `s` with `ALG[a][row][s]` true, in rising order. -/
def sources (rom : Vector AlgEntry 32) (a : Fin 32) (row : Fin 8) : List (Fin 6) :=
  (List.finRange 6).filter fun s => algCell rom a row (s.castLE (by decide))

/-- Step 3's modulation input of operator `d` (R183, R190): the average of the previous outputs of its sources other
than itself, in rising order, and, if its feedback gate is true, of `FB * fbLevel`, which counts as one source and
comes last. -/
def modulation (f : NumFormat) (rom : Vector AlgEntry 32) (a : Fin 32) (prev : Vector Num 6) (fb : Num) (fbLevel : ℚ)
    (d : Fin 6) : Num :=
  average f
    (((sources rom a (d.castLE (by decide))).filter fun s => s ≠ d).map (fun s => prev[s])
      ++ (if algCell rom a (d.castLE (by decide)) 6 then [f.mul fb (.rat fbLevel)] else []))

/-- Step 4's averages (R184): over `TMP[s]` where row 6 (feedback register) or row 7 (output) is true. -/
def mix (f : NumFormat) (rom : Vector AlgEntry 32) (a : Fin 32) (row : Fin 8) (tmp : Vector Num 6) : Num :=
  average f ((sources rom a row).map fun s => tmp[s])

/-- Step 3 (R183): the six operator ticks, each with its operator afterwards and its output TMP[d]. -/
def tickOps (cfg : Config) (r : Regs) (a : Fin 32) (pitchEnv : ℚ) : Vector (Op × Num) 6 :=
  six fun d =>
    (r.op[d]).tick cfg.num r.fs
      (modulation cfg.num cfg.algRom.cells a r.prev r.fb (seventh cfg.num r.pv[VField.FBL]) d) pitchEnv 0

/-- Steps 1 to 5 of V.TICK with algorithm entry `a` (R180 to R185): the registers afterwards and the output sample. -/
def tickWith (cfg : Config) (a : Fin 32) (r : Regs) : Regs × Num :=
  let peg := (refreshPeg cfg.num r).step cfg.num r.fs
  let ops := tickOps cfg r a peg.val
  let tmp := ops.map (·.2)
  ({ r with op := ops.map (·.1), peg := peg, prev := tmp, fb := mix cfg.num cfg.algRom.cells a 6 tmp },
    mix cfg.num cfg.algRom.cells a 7 tmp)

/-- V.TICK (R180). With ALG_OOR = noop "a TICK with an out-of-range index return[s] 0 and change[s] no state"
(44 R174); with ALG_OOR = clamp the index is clamped. -/
def voiceTick (cfg : Config) (r : Regs) : Regs × Num :=
  if cfg.algOor = .noop ∧ algInRange r.pv[VField.ALG] = false then (r, .rat 0)
  else tickWith cfg (clampAlg r.pv[VField.ALG]) r

/-- V.SETPARAM (R187). -/
def voiceSetParam (cfg : Config) (i : Nat) (value : Raw) (r : Regs) : Regs :=
  if i < 126 then modifyOp r (opIndex i) (Op.setParam cfg (opFieldIndex i) value)
  else if h : i < 155 then
    let r := { r with pv := r.pv.set (i - 126) value (by omega) }
    if cfg.egRefresh = .atWrite ∧ i - 126 < 8 then { r with peg := refreshPeg cfg.num r } else r
  else r

/-- Whether V.SETPARAM's recompute of BASEFREQ, if it makes one, has a value (43 R152 corner (c)). -/
def setParamDefined (i : Nat) (value : Raw) (r : Regs) : Bool :=
  !decide (i < 126) || (r.op[opIndex i]).setParamDefined (opFieldIndex i) value

/-- V.NOTEON (R188), with PEG_GATE (R189). -/
def voiceNoteOn (cfg : Config) (note velocity : Nat) (r : Regs) : Regs :=
  { r with op := r.op.map (Op.noteOn cfg.num note velocity), peg := if cfg.pegGate then r.peg.gateOn else r.peg }

/-- V.NOTEOFF (R188), with PEG_GATE (R189). -/
def voiceNoteOff (cfg : Config) (note : Nat) (r : Regs) : Regs :=
  { r with op := r.op.map (Op.noteOff note), peg := if cfg.pegGate then r.peg.gateOff else r.peg }

/-- RUNTIME_RESET (47 R222), with corner case (c): under EG_REFRESH = at_write it ends by refreshing all latches from
the kept parameters. -/
def runtimeReset (cfg : Config) (r : Regs) : Regs :=
  let r := { r with op := r.op.map Op.runtimeReset, peg := Eg.initial, prev := Vector.replicate 6 (.rat 0), fb := .rat 0 }
  if cfg.egRefresh = .atWrite then { r with op := r.op.map (Op.refreshEg cfg.num), peg := refreshPeg cfg.num r } else r

end Sys2Proof.Machine
end

