-- ==== Sys2Proof/Machine/PatchDecoder.lean ====
section
/-! DEFINITION. The patch parameter decode unit (46_patch_decoder.md). -/

namespace Sys2Proof.Machine

/-- `zext(b[h:l])` (00 R9, R11; 30 R88): a bit slice of a byte, zero-extended to a register. -/
def byteField (b : Byte) (h l : Nat) : Raw := (b.extractLsb h l).setWidth 32

/-- A whole-byte field: the byte "consumed verbatim", zero-extended (30 R88). -/
def wholeByte (b : Byte) : Raw := b.setWidth 32

/-- OPFIELD (R205, 30 R86): the 21 fields of an operator block `b(0..16)`, in ordinal order. -/
def opFields (b : Nat → Byte) : List Raw :=
  [wholeByte (b 0), wholeByte (b 1), wholeByte (b 2), wholeByte (b 3),
   wholeByte (b 4), wholeByte (b 5), wholeByte (b 6), wholeByte (b 7),
   wholeByte (b 8), wholeByte (b 9), wholeByte (b 10),
   byteField (b 11) 1 0, byteField (b 11) 3 2,
   byteField (b 12) 6 3, byteField (b 12) 2 0,
   byteField (b 13) 4 2, byteField (b 13) 1 0,
   wholeByte (b 14),
   byteField (b 15) 5 1, byteField (b 15) 0 0,
   wholeByte (b 16)]

/-- VFIELD (R206, 30 R87): the 19 fields of the voice-level block `c(0..15)`, in ordinal order. The name is not
read (R207). -/
def voiceFields (c : Nat → Byte) : List Raw :=
  [wholeByte (c 0), wholeByte (c 1), wholeByte (c 2), wholeByte (c 3),
   wholeByte (c 4), wholeByte (c 5), wholeByte (c 6), wholeByte (c 7),
   wholeByte (c 8),
   byteField (c 9) 2 0, byteField (c 9) 3 3,
   wholeByte (c 10), wholeByte (c 11), wholeByte (c 12), wholeByte (c 13),
   byteField (c 14) 6 4, byteField (c 14) 3 1, byteField (c 14) 0 0,
   wholeByte (c 15)]

/-- Write fields to rising flat indices from `i` up, each through V.SETPARAM (R204, R206). -/
def writeFields (cfg : Config) : Nat → List Raw → Regs → Regs
  | _, [], r => r
  | i, v :: vs, r => writeFields cfg (i + 1) vs (voiceSetParam cfg i v r)

/-- The operator loop for record ordinal `o` (R204): block bytes at `base + 17*o`, targets from `(5 - o)*21` up. -/
def loadOpBlock (cfg : Config) (bank : Memory) (base o : Nat) (r : Regs) : Regs :=
  writeFields cfg ((5 - o) * 21) (opFields fun j => bank.read (base + 17 * o + j)) r

/-- The voice-level fields (R206): block bytes at `base + 102`, targets from 126 up. -/
def loadVoiceBlock (cfg : Config) (bank : Memory) (base : Nat) (r : Regs) : Regs :=
  writeFields cfg 126 (voiceFields fun j => bank.read (base + 102 + j)) r

/-- Decode the record at `base` (R200, R204, R206): operator blocks 0 to 5, then the voice-level block. -/
def loadRecord (cfg : Config) (bank : Memory) (base : Nat) (r : Regs) : Regs :=
  loadVoiceBlock cfg bank base
    (loadOpBlock cfg bank base 5 (loadOpBlock cfg bank base 4 (loadOpBlock cfg bank base 3
      (loadOpBlock cfg bank base 2 (loadOpBlock cfg bank base 1 (loadOpBlock cfg bank base 0 r))))))

/-- The end of the frame that starts at `s`, if it is accepted (R201, R202): the first 0xF7 after `s` makes the framed
length, markers included, exactly 4104. -/
def frameEnds (bank : Memory) (len s : Nat) : Bool :=
  match bank.findByte 0xF7 (s + 1) len with
  | none => false
  | some e => decide (e - s + 1 = Config.bankLen)

/-- Where the accepted frame starts (R201, R202): the first 0xF0 of `BANK[0..L-1]`, if its frame is accepted. Only
this one candidate is examined. -/
def frameStart (bank : Memory) (len : Nat) : Option Nat :=
  match bank.findByte 0xF0 0 len with
  | none => none
  | some s => if frameEnds bank len s then some s else none

/-- The record that LOAD_VOICE `v, L` decodes, or none if a check of R200 fails (rows E4 to E7 of 60 R251):
`s + 6 + 128*v` (R203). -/
def recordBase (bank : Memory) (v len : Nat) : Option Nat :=
  if Config.bankVoices ≤ v then none
  else match frameStart bank len with
    | none => none
    | some s => some (s + Config.bankHdr + Config.pkRec * v)

/-- PD.LOAD (R200): all or nothing (R210 (a)). -/
def patchLoad (cfg : Config) (bank : Memory) (v len : Nat) (r : Regs) : Regs :=
  match recordBase bank v len with
  | none => r
  | some base => loadRecord cfg bank base r

end Sys2Proof.Machine
end

