-- ==== Sys2Proof/Machine/Commands.lean ====
section
/-! DEFINITION. The meanings of the seven host commands (47_host_commands.md), one definition each. -/

namespace Sys2Proof.Machine

/-- INIT (R221). A rate of 0 or one outside FS_SUPPORTED fails: STATUS reports it and every other state element is
undefined (10 R37), hence a free value (log entry 6). The BANK buffer, the command stream and the parameters of the
configuration are not FMVE's state, and SAMPLE_OUT is left unchanged (R220) and not valid (R221 (d)). -/
def execInit (fs : Nat) (s : State) : Host.Outcome State Fault Refusal :=
  if fs = 0 ∨ fsSupported s.cfg fs = false then
    .next { complete s (Config.undefinedRegs s.freeCtr) with
      status := Status.afterFailedInit, freeCtr := s.freeCtr + 1 }
  else
    .next { complete s (runtimeReset s.cfg
        { s.toRegs with
          fs := fs, op := s.op.map (fun o => { o with p := Vector.replicate 21 0 }), pv := Vector.replicate 29 0 })
      with status := Status.afterInit }

/-- RESET (R222): the runtime state alone; parameters, FS and STATUS are kept. -/
def execReset (s : State) : Host.Outcome State Fault Refusal :=
  whenInited s (.next (complete s (runtimeReset s.cfg s.toRegs)))

/-- NOTE_ON (R223). Refused only where an operator's frequency has no value (43 R152 corner (c)). -/
def execNoteOn (note velocity : Nat) (s : State) : Host.Outcome State Fault Refusal :=
  whenInited s
    (if s.op.all Op.freqDefined then .next (complete s (voiceNoteOn s.cfg note velocity s.toRegs))
     else .refused .powBaseNotPositive)

/-- NOTE_OFF (R224). -/
def execNoteOff (note : Nat) (s : State) : Host.Outcome State Fault Refusal :=
  whenInited s (.next (complete s (voiceNoteOff s.cfg note s.toRegs)))

/-- SET_PARAM (R225): an index of 155 or more is absorbed (60 R251 row E3, 45 R187). Refused only where the recomputed
frequency has no value (43 R152 corner (c)). -/
def execSetParam (index : Nat) (value : Raw) (s : State) : Host.Outcome State Fault Refusal :=
  whenInited s
    (if setParamDefined index value s.toRegs then .next (complete s (voiceSetParam s.cfg index value s.toRegs))
     else .refused .powBaseNotPositive)

/-- TICK (R226): one audio sample. -/
def execTick (s : State) : Host.Outcome State Fault Refusal :=
  whenInited s (.next (completeTick s (voiceTick s.cfg s.toRegs).1 (voiceTick s.cfg s.toRegs).2))

/-- LOAD_VOICE (R227): a failed check is absorbed (60 R251 rows E4 to E7). No write of a load can need `pow` of a base
that is not positive: DET, a 4-bit field, is written first (46 R204; `loadRecord_defined` in Laws/PatchDecoder.lean). -/
def execLoadVoice (v len : Nat) (s : State) : Host.Outcome State Fault Refusal :=
  whenInited s (.next (complete s (patchLoad s.cfg s.bank v len s.toRegs)))

end Sys2Proof.Machine
end

