-- ==== Sys2Proof/Machine/Dispatch.lean ====
section
/-! DEFINITION. One arm per command (30_encoding.md R81). -/

namespace Sys2Proof.Machine

def exec (i : Instr) (s : State) : Host.Outcome State Fault Refusal :=
  match i with
  | .init fs => Sys2Proof.Machine.execInit fs s
  | .reset => Sys2Proof.Machine.execReset s
  | .noteOn note velocity => Sys2Proof.Machine.execNoteOn note velocity s
  | .noteOff note => Sys2Proof.Machine.execNoteOff note s
  | .setParam index value => Sys2Proof.Machine.execSetParam index value s
  | .tick => Sys2Proof.Machine.execTick s
  | .loadVoice v len => Sys2Proof.Machine.execLoadVoice v len s

end Sys2Proof.Machine
end

