-- ==== Sys2Proof/Machine/Step.lean ====
section
/-! DEFINITION. One step: the next host input, executed to completion (47 R220). -/

namespace Sys2Proof.Machine

/-- One step of the machine. With nothing presented the engine "simply holds its state" (60 R258); a reserved word
changes no state (47 R228); a BANK write of the host is the host's own (20 R62). -/
def step (s : State) : Host.Outcome State Fault Refusal :=
  match fetch s with
  | .idle => .next s
  | .hostWrite t => .next t
  | .reserved t => .next t
  | .run i t => exec i t

/-- Present a command word as the next one to execute: FMVE stores no program (10 R35), so this stands for the host's
presenting it at the command port (30 R80; log entry 9). -/
def State.withFetchWord (s : State) (nbits w : Nat) : State :=
  { s with inbox := .command (BitVec.ofNat 64 (w % 2 ^ nbits)) :: s.inbox }

end Sys2Proof.Machine
end

