-- ==== Sys2Proof/Machine/Assembler.lean ====
section
/-! DEFINITION. The assembler's lines and pseudo-instructions (30_encoding.md R91, R92) as the host inputs they expand
to. -/

namespace Sys2Proof.Machine

/-- One line of assembly: the seven commands, the pseudo-instructions SETOP, SETV and `TICK n`, and the directive
BANK. -/
inductive Asm where
  | init (fs : Nat)
  | reset
  | noteOn (note velocity : Nat)
  | noteOff (note : Nat)
  | setp (index : Nat) (value : Int)
  | tick (n : Nat)
  | loadv (v len : Nat)
  | setop (k : Fin 6) (field : Fin 21) (value : Int)
  | setv (field : Fin 29) (value : Int)
  | bank (addr : Nat) (bytes : List Byte)
  deriving DecidableEq, Repr

/-- The flat index of an operator register: `(5 - k)*21 + f` (R92). -/
def flatOp (k : Fin 6) (f : Fin 21) : Nat := (5 - k.val) * 21 + f.val

/-- The flat index of a voice register: `126 + g` (R92). -/
def flatVoice (g : Fin 29) : Nat := 126 + g.val

/-- Present one command. -/
def present (i : Instr) : HostInput := .command (encode i)

/-- The expansion of a line (R91, R92). DESIGN CHOICE (log entry 18): a line whose operand is too wide for its field is
not rejected; the word is the sum that `packWord` forms modulo 2^64, so the operand carries into the fields above, and
a value outside `int32` is taken modulo 2^32. -/
def Asm.expand : Asm → List HostInput
  | .init fs => [present (.init fs)]
  | .reset => [present .reset]
  | .noteOn note velocity => [present (.noteOn note velocity)]
  | .noteOff note => [present (.noteOff note)]
  | .setp index value => [present (.setParam index (BitVec.ofInt 32 value))]
  | .tick n => List.replicate n (present .tick)
  | .loadv v len => [present (.loadVoice v len)]
  | .setop k f value => [present (.setParam (flatOp k f) (BitVec.ofInt 32 value))]
  | .setv g value => [present (.setParam (flatVoice g) (BitVec.ofInt 32 value))]
  | .bank a bytes => [.bankWrite a bytes]

end Sys2Proof.Machine
end

