-- ==== Sys2Proof/Machine/Observe.lean ====
section
/-! DEFINITION. What a run yields (70 R292): the values placed on SAMPLE_OUT, one per TICK, and the STATUS value after
each INIT. -/

namespace Sys2Proof.Machine

/-- One observable event of a run (R292). -/
inductive Observation where
  | sample (x : Num)
  | status (w : BitVec 3)
  deriving DecidableEq, Repr

/-- What an observer sees when the command `i` has completed in state `t`. -/
def observed (i : Instr) (t : State) : List Observation :=
  match i with
  | .init _ => [.status t.status.word]
  | .reset => []
  | .noteOn _ _ => []
  | .noteOff _ => []
  | .setParam _ _ => []
  | .tick => [.sample t.sampleOut]
  | .loadVoice _ _ => []

/-- What the next step shows. -/
def stepObservation (s : State) : List Observation :=
  match fetch s with
  | .idle => []
  | .hostWrite _ => []
  | .reserved _ => []
  | .run i t =>
    match exec i t with
    | .next u => observed i u
    | .fault _ => []
    | .refused _ => []

/-- The observable result of `k` steps (R292); a refusal ends the run. DESIGN CHOICE (log entry 14): R292 says "the
sequence of Num values ... together with the STATUS value after each INIT", and leaves open whether a sample and a
STATUS value are ordered among one another; this list keeps the order in which they appeared, and `samplesOf` and
`statusesOf` of Safety.lean are the two sequences each by itself. -/
def yields : Nat → State → List Observation
  | 0, _ => []
  | k + 1, s =>
    match step s with
    | .next t => stepObservation s ++ yields k t
    | .fault _ => []
    | .refused _ => []

end Sys2Proof.Machine
end

