-- ==== Sys2Proof/Machine/Value.lean ====
section
/-! DEFINITION. Which real number a Num is (00_scope.md R7, R8), for any choice of the configuration functions of R6.
No step of the machine computes it: statements about values are made in its terms. -/

namespace Sys2Proof

/-- The configuration functions `exp2`, `pow` and `sin` of 00 R6: "A model takes each as an argument". -/
structure Functions where
  exp2 : ℝ → ℝ
  pow : ℝ → ℝ → ℝ
  sin : ℝ → ℝ

/-- The default of R6: "the mathematical functions" (R8). -/
noncomputable def Functions.standard : Functions where
  exp2 x := (2 : ℝ) ^ x
  pow b e := b ^ e
  sin x := Real.sin x

/-- The properties of 95_test_vectors.md section 0 that a model needs of the functions: FN1 to FN3; FN4 to FN6, with
the integer powers of every positive base (DEDUCED from `pow(b, e) = b^e` of R8; 95 CF16 uses one); FN7, FN8. -/
structure Functions.Lawful (F : Functions) : Prop where
  exp2_int : ∀ n : Int, F.exp2 n = (2 : ℝ) ^ n
  exp2_pos : ∀ x, 0 < F.exp2 x
  exp2_add : ∀ x y, F.exp2 (x + y) = F.exp2 x * F.exp2 y
  pow_int : ∀ (b : ℝ) (n : Int), 0 < b → F.pow b n = b ^ n
  pow_pos : ∀ b e : ℝ, 0 < b → 0 < F.pow b e
  sin_zero : F.sin 0 = 0
  sin_half_pi : F.sin (Real.pi / 2) = 1
  sin_pi : F.sin Real.pi = 0
  sin_three_half_pi : F.sin (3 * Real.pi / 2) = -1
  sin_bounds : ∀ x, -1 ≤ F.sin x ∧ F.sin x ≤ 1
  sin_pi_sub : ∀ x, F.sin (Real.pi - x) = F.sin x
  sin_pi_add : ∀ x, F.sin (Real.pi + x) = -F.sin x

/-- A real number rounded once by a format (R7). -/
noncomputable def NumFormat.roundReal (f : NumFormat) (x : ℝ) : ℝ := f.roundTo x

/-- The numbers a format holds (log entry 1). -/
def NumFormat.holds : NumFormat → ℝ → Prop
  | .exact, _ => True
  | .finite precision minExp maxExp _, y =>
    |y| < (2 : ℝ) ^ (maxExp + 1) ∧ ∃ n q : Int, minExp ≤ q ∧ |n| < 2 ^ precision ∧ y = (n : ℝ) * (2 : ℝ) ^ q

/-- The sine ROM's entry as a real number (41 R110). -/
noncomputable def Functions.entry (F : Functions) (f : NumFormat) (i : Nat) : ℝ :=
  f.roundReal (F.sin (2 * Real.pi * i / 512))

/-- The table position of 41 R111 as a real number, as `Machine.oscPosition` computes it (log entry 20). -/
noncomputable def oscPositionReal (f : NumFormat) (phase : ℝ) : ℝ :=
  let r := f.roundReal
  let x := r (r (phase * 512) + 512)
  r (x - r (512 * (⌊r (x / 512)⌋ : ℝ)))

/-- OSC of 41 R111 on a real phase. DESIGN CHOICE (log entries 16, 20), as in `Machine.osc`: under a finite NUM `fr` is
`u - floor(u)`, from the exact integer before it is reduced modulo 512. -/
noncomputable def Functions.osc (F : Functions) (f : NumFormat) (phase : ℝ) : ℝ :=
  let r := f.roundReal
  let u := oscPositionReal f phase
  let i0 := Machine.tableIndex ⌊u⌋
  r (F.entry f i0 + r (r (u - (⌊u⌋ : ℝ)) * r (F.entry f ((i0 + 1) % 512) - F.entry f i0)))

/-- The real number that a Num is. -/
noncomputable def Num.val (F : Functions) : Num → ℝ
  | .rat q => q
  | .exp2Of x => F.exp2 x
  | .powOf b e => F.pow b e
  | .sineOf i => F.sin (2 * Real.pi * i / 512)
  | .sum x y => x.val F + y.val F
  | .diff x y => x.val F - y.val F
  | .prod x y => x.val F * y.val F
  | .quot x y => x.val F / y.val F
  | .fractOf f x => f.roundReal (x.val F - (⌊x.val F⌋ : ℝ))
  | .oscOf f x => F.osc f (x.val F)
  | .rounded f x => f.roundReal (x.val F)

end Sys2Proof
end

