-- ==== Sys2Proof/Safety.lean ====
section
/-! DEFINITION. The terms claims are stated in: the invariants of a run, the nominal ranges of the parameters, and the
relations between two runs. -/

namespace Sys2Proof.Machine

/-! ## The invariant of every run -/

/-- The envelope invariant (10 R31): in a moving state the value is between START and TARGET. -/
def Eg.between (e : Eg) : Prop :=
  e.st.moving = true → min e.start e.target ≤ e.val ∧ e.val ≤ max e.start e.target

/-- What every run keeps of an operator: NOTE in 0..127 (10 R29), a frequency that has a value (43 R152 corner (c)),
and, under the reference semantics, PHASE in [0,1) (10 R29), whatever the configuration functions are, and its
envelope's invariant. (A finite format can round `fmod1` of a negative number up to 1.) -/
structure Op.Inv (f : NumFormat) (o : Op) : Prop where
  note_lt : o.note < 128
  freq_defined : o.freqDefined = true
  phase_range : f = .exact → ∀ F : Functions, 0 ≤ o.phase.val F ∧ o.phase.val F < 1
  eg_between : f = .exact → o.eg.between

/-- What every run keeps of the registers once INIT has succeeded: FS a supported positive integer below 2^32 (10 R27),
and the invariants of the operators and of the pitch envelope. -/
structure Regs.Inv (cfg : Config) (r : Regs) : Prop where
  fs_pos : 0 < r.fs
  fs_lt : r.fs < 2 ^ 32
  fs_supported : fsSupported cfg r.fs = true
  ops : ∀ k : Fin 6, (r.op[k]).Inv cfg.num
  peg_between : cfg.num = .exact → r.peg.between

/-- The invariant of every run: BANK in canonical form, STATUS with a legal value (10 R28: ERR 2 and 3 never occur, and
ERR is 0 after a successful INIT), and, while INITED = 1, the registers' invariant. -/
structure State.Inv (s : State) : Prop where
  bank_wf : s.bank.wf
  err_legal : s.status.err = 0 ∨ s.status.err = 1
  err_of_inited : s.status.inited = true → s.status.err = 0
  regs : s.status.inited = true → s.toRegs.Inv s.cfg

/-! ## Further invariants -/

/-- Every envelope latch holds its parameter times 0.01. -/
def Regs.latchesCurrent (f : NumFormat) (r : Regs) : Prop :=
  (∀ k : Fin 6, (r.op[k]).refreshEg f = r.op[k]) ∧ refreshPeg f r = r.peg

/-- Under EG_REFRESH = at_write the latches always follow the parameter registers (00 R6, 10 R39). -/
def State.LatchInv (s : State) : Prop :=
  s.status.inited = true → s.cfg.egRefresh = .atWrite → s.toRegs.latchesCurrent s.cfg.num

/-- With PEG_GATE = 0 the pitch envelope "is IDLE from INIT on" (45 R189). -/
def State.PegInv (s : State) : Prop := s.status.inited = true → s.cfg.pegGate = false → s.peg.st = .idle

/-- BASEFREQ is 0 (after INIT or RESET) or what OP.CALCFREQ gives for the present parameters and the latched note
(70 R286). -/
def State.FreqInv (s : State) : Prop :=
  s.status.inited = true →
    ∀ k : Fin 6, (s.op[k]).baseFreq = .rat 0 ∨ (s.op[k]).baseFreq = (s.op[k]).freq s.cfg.num (s.op[k]).note

/-! ## Silence (10 R38, 47 R226 (c)) -/

/-- An initialised engine whose output levels, PREV and FB are all 0. -/
structure State.Quiet (s : State) : Prop where
  inited : s.status.inited = true
  levels : ∀ k : Fin 6, (s.op[k]).raw OpField.OL = 0
  prev : ∀ k : Fin 6, s.prev[k] = .rat 0
  fb : s.fb = .rat 0

/-- A quiet engine whose phases stand still at 0, every BASEFREQ being 0. -/
structure State.Still (s : State) : Prop where
  quiet : s.Quiet
  freq : ∀ k : Fin 6, (s.op[k]).baseFreq = .rat 0
  phase : ∀ k : Fin 6, (s.op[k]).phase = .rat 0

/-! ## Nominal ranges (10 R21, R24) -/

/-- A register holds an integer of the range. -/
def inRange (r : Raw) (lo hi : Int) : Prop := lo ≤ r.toInt ∧ r.toInt ≤ hi

/-- The nominal range of operator field `f` (10 R21, last but one column). -/
def opNominal (f : Fin 21) : Int × Int :=
  match f.val with
  | 0 | 1 | 2 | 3 => (0, 99)
  | 4 | 5 | 6 | 7 => (0, 100)
  | 8 | 9 | 10 => (0, 255)
  | 11 | 12 => (0, 3)
  | 13 => (0, 15)
  | 14 | 15 => (0, 7)
  | 16 => (0, 3)
  | 17 => (0, 100)
  | 18 => (0, 31)
  | 19 => (0, 1)
  | _ => (0, 99)

/-- The nominal range of voice field `g` (10 R24) for the fields that reach the datapath; any other holds anything. -/
def voiceNominal (g : Fin 29) : Int × Int :=
  match g.val with
  | 0 | 1 | 2 | 3 => (0, 99)
  | 4 | 5 | 6 | 7 => (0, 100)
  | 8 => (0, 31)
  | 9 => (0, 7)
  | _ => (-2 ^ 31, 2 ^ 31 - 1)

/-- All parameters of an operator are nominal. -/
def Op.nominal (o : Op) : Prop := ∀ f : Fin 21, inRange (o.raw f) (opNominal f).1 (opNominal f).2

/-- All parameters of a voice are nominal. -/
structure Regs.NominalParams (r : Regs) : Prop where
  ops : ∀ k : Fin 6, (r.op[k]).nominal
  voice : ∀ g : Fin 29, inRange r.pv[g] (voiceNominal g).1 (voiceNominal g).2

/-- An envelope generator whose value, segment and level latches are in [0,1]. -/
structure Eg.unit (e : Eg) : Prop where
  val : 0 ≤ e.val ∧ e.val ≤ 1
  start : 0 ≤ e.start ∧ e.start ≤ 1
  target : 0 ≤ e.target ∧ e.target ≤ 1
  el1 : 0 ≤ e.el1 ∧ e.el1 ≤ 1
  el2 : 0 ≤ e.el2 ∧ e.el2 ≤ 1
  el3 : 0 ≤ e.el3 ∧ e.el3 ≤ 1
  el4 : 0 ≤ e.el4 ∧ e.el4 ≤ 1

/-- The registers of a voice whose parameters are nominal and whose runtime values are in the ranges of 43 R157, for
the configuration functions `F`. -/
structure Regs.Nominal (F : Functions) (r : Regs) : Prop where
  fs_pos : 0 < r.fs
  params : r.NominalParams
  vel : ∀ k : Fin 6, 0 ≤ (r.op[k]).vel ∧ (r.op[k]).vel ≤ 1
  egs : ∀ k : Fin 6, (r.op[k]).eg.unit ∧ (r.op[k]).eg.between
  peg : r.peg.unit ∧ r.peg.between
  prev : ∀ k : Fin 6, |(r.prev[k]).val F| ≤ 1
  fb : |r.fb.val F| ≤ 1

/-! ## Number formats -/

/-- The format holds 1 and 512, the two numbers that the table position of phase 0 is computed from (41 R111): exact
arithmetic, every IEEE binary format, binary16 with the others, and every fixed-point format whose unit is at most 1
and whose range takes in 512, such as Q16.16. -/
def ample : NumFormat → Bool
  | .exact => true
  | .finite precision minExp maxExp _ => decide (1 ≤ precision) && decide (minExp ≤ 0) && decide (9 ≤ maxExp)

/-! ## Two runs -/

/-- The operator registers that no rule reads (10 R23). -/
def unreadOp (f : Fin 21) : Bool := (8 ≤ f.val && f.val ≤ 12) || f.val == 14 || f.val == 16

/-- The voice registers that no rule reads (10 R25). -/
def unreadVoice (g : Fin 29) : Bool := 10 ≤ g.val

/-- Two operators that agree on everything but the registers no rule reads. -/
structure Op.SameSound (a b : Op) : Prop where
  params : ∀ f : Fin 21, unreadOp f = false → a.raw f = b.raw f
  phase : a.phase = b.phase
  baseFreq : a.baseFreq = b.baseFreq
  vel : a.vel = b.vel
  note : a.note = b.note
  eg : a.eg = b.eg

/-- Two states that agree on everything but the registers no rule reads. -/
structure State.SameSound (s t : State) : Prop where
  fs : s.fs = t.fs
  ops : ∀ k : Fin 6, (s.op[k]).SameSound t.op[k]
  voice : ∀ g : Fin 29, unreadVoice g = false → s.pv[g] = t.pv[g]
  peg : s.peg = t.peg
  prev : s.prev = t.prev
  fb : s.fb = t.fb
  status : s.status = t.status
  sampleOut : s.sampleOut = t.sampleOut
  sampleValid : s.sampleValid = t.sampleValid
  bank : s.bank = t.bank
  inbox : s.inbox = t.inbox
  cfg : s.cfg = t.cfg
  freeCtr : s.freeCtr = t.freeCtr

/-- The Num values a run placed on SAMPLE_OUT, in order (70 R292). -/
def samplesOf (l : List Observation) : List Num :=
  l.filterMap fun o =>
    match o with
    | .sample x => some x
    | .status _ => none

/-- The STATUS values after each INIT of a run, in order (70 R292). -/
def statusesOf (l : List Observation) : List (BitVec 3) :=
  l.filterMap fun o =>
    match o with
    | .sample _ => none
    | .status w => some w

/-- "Two runs are observably equal when these sequences are equal" (70 R292): the two sequences each by itself, the
samples compared as the real numbers they are. -/
def ObservablyEqual (F : Functions) (a b : List Observation) : Prop :=
  (samplesOf a).map (Num.val F) = (samplesOf b).map (Num.val F) ∧ statusesOf a = statusesOf b

/-- How two outcomes of a step compare: related next states, or the same stop. -/
def SameOutcome (R : State → State → Prop) :
    Host.Outcome State Fault Refusal → Host.Outcome State Fault Refusal → Prop
  | .next s, .next t => R s t
  | .fault a, .fault b => a = b
  | .refused a, .refused b => a = b
  | _, _ => False

/-- `n` advances of an envelope generator whose latches do not change. -/
def Eg.steps (f : NumFormat) (fs : Nat) : Nat → Eg → Eg
  | 0, e => e
  | n + 1, e => Eg.steps f fs n (e.step f fs)

/-- The bytes of an accepted frame (46 R201, R202): `s` holds the first 0xF0 of `BANK[0..L-1]`, `s + 4103` the first
0xF7 after it, inside the buffer. -/
structure FrameAt (bank : Memory) (len s : Nat) : Prop where
  first : ∀ a, a < s → bank.read a ≠ 0xF0
  start : bank.read s = 0xF0
  inner : ∀ a, s < a → a < s + 4103 → bank.read a ≠ 0xF7
  last : bank.read (s + 4103) = 0xF7
  inside : s + 4103 < len

/-! ## The crossbar as the sums of 45 R183 and R184 -/

/-- `ALG[a][d][s]`, the modulation gate from operator `s` to operator `d` (44 R170). -/
def gate (rom : Vector AlgEntry 32) (a : Fin 32) (d s : Fin 6) : Bool :=
  algCell rom a (d.castLE (by decide)) (s.castLE (by decide))

/-- `ALG[a][d][6]`, the feedback gate of operator `d`. -/
def fbGate (rom : Vector AlgEntry 32) (a : Fin 32) (d : Fin 6) : Bool := algCell rom a (d.castLE (by decide)) 6

/-- `ALG[a][row][s]` for row 6 (feedback sources) and row 7 (carriers). -/
def rowGate (rom : Vector AlgEntry 32) (a : Fin 32) (row : Fin 8) (s : Fin 6) : Bool :=
  algCell rom a row (s.castLE (by decide))

/-- `sum = 0; for s = 0 .. 5: if on(s): sum = sum + x(s)` of 45 R180, `r` rounding each result. -/
def accumulate (r : ℝ → ℝ) (on : Fin 6 → Prop) [DecidablePred on] (x : Fin 6 → ℝ) : ℝ :=
  (List.finRange 6).foldl (fun acc s => if on s then r (acc + x s) else acc) 0

/-- How many of the six are counted. -/
def countOn (on : Fin 6 → Prop) [DecidablePred on] : Nat := ∑ s : Fin 6, if on s then 1 else 0

/-- Operator `s` is a source of operator `d` (45 R183). -/
abbrev isSource (rom : Vector AlgEntry 32) (a : Fin 32) (d s : Fin 6) : Prop := s ≠ d ∧ gate rom a d s = true

/-- The count of step 3 (45 R190): the matrix alone decides it, and the feedback term counts as one. -/
def crossbarCount (rom : Vector AlgEntry 32) (a : Fin 32) (d : Fin 6) : Nat :=
  countOn (isSource rom a d) + if fbGate rom a d = true then 1 else 0

/-- The sum of step 3 (45 R180, R183), the feedback term `FB * fbLevel` last. -/
noncomputable def crossbarSum (f : NumFormat) (rom : Vector AlgEntry 32) (a : Fin 32) (prev : Fin 6 → ℝ)
    (fb fbLevel : ℝ) (d : Fin 6) : ℝ :=
  let sum := accumulate f.roundReal (isSource rom a d) prev
  if fbGate rom a d = true then f.roundReal (sum + f.roundReal (fb * fbLevel)) else sum

/-- The averaged modulation input of step 3 (45 R180, R183). -/
noncomputable def crossbarInput (f : NumFormat) (rom : Vector AlgEntry 32) (a : Fin 32) (prev : Fin 6 → ℝ)
    (fb fbLevel : ℝ) (d : Fin 6) : ℝ :=
  if crossbarCount rom a d = 0 then 0
  else f.roundReal (crossbarSum f rom a prev fb fbLevel d / f.roundReal (crossbarCount rom a d))

/-- The average of step 4 (45 R180, R184) over the operators whose cell in `row` is true, 0 if none. -/
noncomputable def rowMean (f : NumFormat) (rom : Vector AlgEntry 32) (a : Fin 32) (row : Fin 8) (tmp : Fin 6 → ℝ) : ℝ :=
  if countOn (fun s => rowGate rom a row s = true) = 0 then 0
  else f.roundReal
    (accumulate f.roundReal (fun s => rowGate rom a row s = true) tmp
      / f.roundReal (countOn fun s => rowGate rom a row s = true))

/-- The TICK is one whose algorithm index is used (44 R174): clamped, or in range. -/
def State.indexUsed (s : State) : Prop := s.cfg.algOor = .clamp ∨ algInRange s.pv[VField.ALG] = true

/-- The pitch envelope value of a tick (45 R181). -/
def State.pitchEnv (s : State) : ℚ := ((refreshPeg s.cfg.num s.toRegs).step s.cfg.num s.fs).val

/-- The modulation input of operator `d` in a tick (45 R182, R183), as a real number. -/
noncomputable def State.modInput (F : Functions) (s : State) (d : Fin 6) : ℝ :=
  crossbarInput s.cfg.num s.cfg.algRom.cells (clampAlg s.pv[VField.ALG]) (fun k => (s.prev[k]).val F) (s.fb.val F)
    (seventh s.cfg.num s.pv[VField.FBL]) d

/-- Two algorithm ROMs agree on every cell that a rule reads (44 R172). -/
def SameReadCells (x y : Vector AlgEntry 32) : Prop :=
  ∀ a : Fin 32,
    (∀ d s : Fin 6, s ≠ d → gate x a d s = gate y a d s) ∧ (∀ d : Fin 6, fbGate x a d = fbGate y a d) ∧
      (∀ s : Fin 6, rowGate x a 6 s = rowGate y a 6 s) ∧ (∀ s : Fin 6, rowGate x a 7 s = rowGate y a 7 s)

/-! ## Frames -/

/-- What no command of the engine writes: BANK, which "FMVE never writes" (20 R62), the command stream, and the open
parameters. -/
structure State.HostPartSame (s t : State) : Prop where
  bank : ∀ a, t.bank.read a = s.bank.read a
  bank_data : t.bank = s.bank
  inbox : t.inbox = s.inbox
  cfg : t.cfg = s.cfg

/-- The frame of every command but INIT and TICK: the host's part, FS, STATUS, SAMPLE_OUT and the counter of free
values are unchanged, and the validity of SAMPLE_OUT ends (30 R94). -/
structure State.OutsideSame (s t : State) : Prop where
  host : s.HostPartSame t
  fs : t.fs = s.fs
  status : t.status = s.status
  sampleOut : t.sampleOut = s.sampleOut
  sampleValid : t.sampleValid = false
  freeCtr : t.freeCtr = s.freeCtr

/-- Every parameter register is unchanged. -/
def State.ParamsSame (s t : State) : Prop := (∀ k : Fin 6, (t.op[k]).p = (s.op[k]).p) ∧ t.pv = s.pv

/-- The mask of the bits of a command word that 30 R82 assigns to the opcode and its operands. -/
def assignedBits (opc : Nat) : Word :=
  match opc with
  | 0x01 => 0xFF000000FFFFFFFF
  | 0x03 => 0xFF007F7F00000000
  | 0x04 => 0xFF007F0000000000
  | 0x05 => 0xFFFFFFFFFFFFFFFF
  | 0x07 => 0xFFFFFFFFFFFFFFFF
  | _ => 0xFF00000000000000

end Sys2Proof.Machine
end

