-- ==== Sys2Proof/Certificates/Slice0/Obligations.lean ====
section
/-! DEFINITION. The statements for the provers, each from the rules its docstring names. -/

open Sys2Proof Sys2Proof.Machine

/-! ## Encoding and the step -/

/-- 95 ENC1 to ENC10, ENC14 to ENC16 (30 R80 to R83): the spec's own words decode to the commands they stand for. -/
def Obligations.SpecWordsDecode : Prop :=
  decode 0x010000000000BB80 = .ok (.init 48000) ∧
  decode 0x0100000000000FA0 = .ok (.init 4000) ∧
  decode 0x0200000000000000 = .ok .reset ∧
  decode 0x0300457F00000000 = .ok (.noteOn 69 127) ∧
  decode 0x03003C0000000000 = .ok (.noteOn 60 0) ∧
  decode 0x0400450000000000 = .ok (.noteOff 69) ∧
  decode 0x0500007A00000064 = .ok (.setParam 122 100) ∧
  decode 0x05000086FFFFFFFF = .ok (.setParam 134 (BitVec.ofInt 32 (-1))) ∧
  decode 0x0600000000000000 = .ok .tick ∧
  decode 0x070000010000100B = .ok (.loadVoice 1 4107) ∧
  decode 0x03FFC5FFDEADBEEF = .ok (.noteOn 69 127) ∧
  decode 0x0000000000000000 = .error (.reservedOpcode 0) ∧
  decode 0x0800000000000000 = .error (.reservedOpcode 8) ∧
  decode 0xFF00000000000001 = .error (.reservedOpcode 255) ∧
  decode 0x06123456789ABCDE = .ok .tick

/-- 30 R80 to R82: decoding an encoded well-formed command gives it back, with every operand at every value its field
admits. -/
def Obligations.DecodeEncodeRoundTrip : Prop := ∀ i : Instr, i.wf = true → decode (encode i) = .ok i

/-- 30 R82: the operands of a decoded command fit their fields. -/
def Obligations.DecodedCommandsFitTheirFields : Prop := ∀ (w : Word) (i : Instr), decode w = .ok i → i.wf = true

/-- 30 R82, R83 (b): a command word carries its command in the assigned bits alone; encoding what a word decodes to
keeps exactly those and writes every ignored bit as zero. -/
def Obligations.WordCarriesOnlyAssignedBits : Prop :=
  ∀ (w : Word) (i : Instr), decode w = .ok i → encode i = w &&& assignedBits (Word.opc w)

/-- 47 R228, whole: a word with OPC = 0x00 or 0x08..0xFF changes no state (it is only taken from the command stream)
and produces no output. -/
def Obligations.ReservedWordsDoNothing : Prop :=
  ∀ (s : State) (w : Word) (rest : List HostInput),
    s.inbox = .command w :: rest → (Word.opc w = 0x00 ∨ 0x08 ≤ Word.opc w) →
      step s = .next { s with inbox := rest } ∧ stepObservation s = []

/-- A step runs the decoded command (10 R35, 20 R69, 47 R220): when the word presented decodes to `i`, the step is exec
of `i` at the state from which that word has been taken. -/
def Obligations.StepRunsTheDecodedCommand : Prop :=
  ∀ (s : State) (w : Word) (rest : List HostInput) (i : Instr),
    s.inbox = .command w :: rest → decode w = .ok i → step s = exec i { s with inbox := rest }

/-- With nothing presented the engine holds its state (60 R258); a write of the host to its BANK buffer (20 R62) changes
the bytes written and nothing else, and keeps BANK's canonical form. That such a write is a step of its own, an entry
of the inbox, and leaves the validity of SAMPLE_OUT, is the model's choice (log entry 12). -/
def Obligations.HostInputsChangeOnlyTheBank : Prop :=
  (∀ s : State, s.inbox = [] → step s = .next s) ∧
  ∀ (s : State) (a : Nat) (bs : List Byte) (rest : List HostInput),
    s.bank.wf → s.inbox = .bankWrite a bs :: rest →
      ∃ m : Memory, step s = .next { s with bank := m, inbox := rest } ∧ m.wf ∧
        (∀ j : Fin bs.length, m.read (a + j.val) = bs[j]) ∧
        ∀ x, (x < a ∨ a + bs.length ≤ x) → m.read x = s.bank.read x

/-! ## INIT, RESET, STATUS and the outputs -/

/-- 47 R221: INIT with a supported rate writes FS, zeroes the 155 parameter registers, resets the runtime state as 10
R37's table says, and reports success; with rate 0 or an unsupported one it reports failure in STATUS, every other
state element being left undefined. -/
def Obligations.InitOutcome : Prop :=
  ∀ (s : State) (fs : Nat),
    (fs ≠ 0 → fsSupported s.cfg fs = true →
      ∃ t : State, exec (.init fs) s = .next t ∧ t.fs = fs ∧
        (∀ (k : Fin 6) (f : Fin 21), (t.op[k]).raw f = 0) ∧ (∀ g : Fin 29, t.pv[g] = 0) ∧
        (∀ k : Fin 6, (t.op[k]).phase = .rat 0 ∧ (t.op[k]).baseFreq = .rat 0 ∧ (t.op[k]).vel = 0 ∧
          (t.op[k]).note = 0 ∧ (t.op[k]).eg = Eg.initial ∧ t.prev[k] = .rat 0) ∧
        t.peg = Eg.initial ∧ t.fb = .rat 0 ∧ t.status = { inited := true, err := 0 } ∧ t.status.word = 0b001#3 ∧
        t.sampleOut = s.sampleOut ∧ t.sampleValid = false ∧ s.HostPartSame t ∧ t.freeCtr = s.freeCtr) ∧
    (fs = 0 ∨ fsSupported s.cfg fs = false →
      ∃ t : State, exec (.init fs) s = .next t ∧ t.status = { inited := false, err := 1 } ∧
        t.status.word = 0b010#3 ∧ t.sampleOut = s.sampleOut ∧ t.sampleValid = false ∧ s.HostPartSame t)

/-- 47 R229, whole: while STATUS.INITED = 0 only INIT has an effect, every other command is refused, and a reserved word
remains a no-operation. -/
def Obligations.OnlyInitBeforeInit : Prop :=
  ∀ s : State, s.status.inited = false →
    (∀ fs : Nat, ∃ t : State, exec (.init fs) s = .next t) ∧
    (∀ i : Instr, (∀ fs : Nat, i ≠ .init fs) → exec i s = .refused .notInitialised) ∧
    ∀ (w : Word) (rest : List HostInput) (e : DecodeError),
      s.inbox = .command w :: rest → decode w = .error e → step s = .next { s with inbox := rest }

/-- 47 R222: RESET (OPC = 0x02, all other bits ignored) resets the runtime state alone and keeps the parameters,
FS and STATUS; under EG_REFRESH = at_write it ends by refreshing all latches from the kept parameters; the next TICK
returns 0, under every number format. For a format too coarse to hold the number of carriers, that last clause rests on
the model's 0 for a quotient by 0 (log entry 19). -/
def Obligations.ResetClearsRuntimeState : Prop :=
  (∀ w : Word, Word.opc w = 0x02 → decode w = .ok .reset) ∧
  ∀ s : State, s.status.inited = true →
    ∃ t : State, exec .reset s = .next t ∧
      (∃ u : State, exec .tick t = .next u ∧ u.sampleOut = .rat 0) ∧
      s.ParamsSame t ∧ s.OutsideSame t ∧ t.fb = .rat 0 ∧
      (∀ k : Fin 6, (t.op[k]).phase = .rat 0 ∧ (t.op[k]).baseFreq = .rat 0 ∧ (t.op[k]).vel = 0 ∧
        (t.op[k]).note = 0 ∧ t.prev[k] = .rat 0) ∧
      (s.cfg.egRefresh = .atTick → (∀ k : Fin 6, (t.op[k]).eg = Eg.initial) ∧ t.peg = Eg.initial) ∧
      (s.cfg.egRefresh = .atWrite →
        (∀ k : Fin 6, (t.op[k]).eg = Eg.initial.refresh s.cfg.num ((s.op[k]).raw OpField.R1)
          ((s.op[k]).raw OpField.R2) ((s.op[k]).raw OpField.R3) ((s.op[k]).raw OpField.R4)
          ((s.op[k]).raw OpField.L1) ((s.op[k]).raw OpField.L2) ((s.op[k]).raw OpField.L3)
          ((s.op[k]).raw OpField.L4)) ∧
        t.peg = Eg.initial.refresh s.cfg.num s.pv[VField.PR1] s.pv[VField.PR2] s.pv[VField.PR3] s.pv[VField.PR4]
          s.pv[VField.PL1] s.pv[VField.PL2] s.pv[VField.PL3] s.pv[VField.PL4])

/-- 47 R220, 30 R94: of the outputs, SAMPLE_OUT is written by TICK alone and is valid from a TICK to the next command,
STATUS by INIT alone; and no command writes BANK (20 R62), the command stream or the open parameters. 70 R292: a run
yields the sample of each TICK and the STATUS value after each INIT, in order, and nothing else. That the two sequences
are taken out of one trace, and that a refused command ends it, is the model's choice (log entry 14). -/
def Obligations.OutputsWrittenByTickAndInitAlone : Prop :=
  (∀ (i : Instr) (s t : State), exec i s = .next t →
    s.HostPartSame t ∧ (i ≠ .tick → t.sampleOut = s.sampleOut ∧ t.sampleValid = false) ∧
      (i = .tick → t.sample = some t.sampleOut) ∧ ((∀ fs : Nat, i ≠ .init fs) → t.status = s.status)) ∧
  (∀ (s t : State) (w : Word) (rest : List HostInput) (i : Instr),
    s.inbox = .command w :: rest → decode w = .ok i → step s = .next t →
      (i = .tick → stepObservation s = [.sample t.sampleOut] ∧ ∀ k : Nat,
        samplesOf (yields (k + 1) s) = t.sampleOut :: samplesOf (yields k t) ∧
        statusesOf (yields (k + 1) s) = statusesOf (yields k t)) ∧
      (∀ fs : Nat, i = .init fs → stepObservation s = [.status t.status.word] ∧ ∀ k : Nat,
        samplesOf (yields (k + 1) s) = samplesOf (yields k t) ∧
        statusesOf (yields (k + 1) s) = t.status.word :: statusesOf (yields k t)) ∧
      (i ≠ .tick → (∀ fs : Nat, i ≠ .init fs) →
        stepObservation s = [] ∧ ∀ k : Nat, yields (k + 1) s = yields k t)) ∧
  (∀ s t : State, step s = .next t →
    (∀ (w : Word) (rest : List HostInput) (i : Instr), s.inbox = .command w :: rest → decode w ≠ .ok i) →
      stepObservation s = [] ∧ ∀ k : Nat, yields (k + 1) s = yields k t) ∧
  (∀ s : State, yields 0 s = []) ∧
  ∀ s : State, (∀ t : State, step s ≠ .next t) → stepObservation s = [] ∧ ∀ k : Nat, yields k s = []

/-! ## Notes and the envelope generator -/

/-- 43 R155, for all six operators (45 R188), with 45 R189: NOTE_ON latches the note, recomputes BASEFREQ, computes
VEL from KVS and the velocity, zeroes PHASE and gates the envelope on; the pitch envelope is gated only if PEG_GATE =
1; nothing else changes. `q` is the rounding of the number format NUM. That a finite format takes 1, 7 and 127 as they
are and divides by 7 and 127 is the model's choice (log entry 1). An operator without a frequency is
`NoteOnRefusedExactlyWithoutFrequency`'s. -/
def Obligations.NoteOnEffect : Prop :=
  ∀ (s : State) (n v : Nat), s.status.inited = true → (∀ k : Fin 6, (s.op[k]).freqDefined = true) →
    let q : ℚ → ℚ := s.cfg.num.q
    ∃ t : State, exec (.noteOn n v) s = .next t ∧ s.ParamsSame t ∧ s.OutsideSame t ∧ t.prev = s.prev ∧ t.fb = s.fb ∧
      t.peg = (if s.cfg.pegGate = true then s.peg.gateOn else s.peg) ∧
      ∀ k : Fin 6,
        let velSens : ℚ := q (q ((s.op[k]).raw OpField.KVS).toInt / 7)
        (t.op[k]).note = n ∧ (t.op[k]).baseFreq = (s.op[k]).freq s.cfg.num n ∧
        (t.op[k]).vel = q (q (q (q v / 127) * velSens) + q (1 - velSens)) ∧
        (t.op[k]).phase = .rat 0 ∧ (t.op[k]).eg = (s.op[k]).eg.gateOn

/-- 43 R156, whole, for all six operators (45 R188), with 47 R224 and 45 R189: NOTE_OFF gates every operator envelope
off, whatever the note, and changes nothing else; the pitch envelope only if PEG_GATE = 1. -/
def Obligations.NoteOffEffect : Prop :=
  ∀ (s : State) (n : Nat), s.status.inited = true →
    ∃ t : State, exec (.noteOff n) s = .next t ∧ s.ParamsSame t ∧ s.OutsideSame t ∧ t.prev = s.prev ∧ t.fb = s.fb ∧
      t.peg = (if s.cfg.pegGate = true then s.peg.gateOff else s.peg) ∧
      (∀ k : Fin 6, (t.op[k]).note = (s.op[k]).note ∧ (t.op[k]).baseFreq = (s.op[k]).baseFreq ∧
        (t.op[k]).vel = (s.op[k]).vel ∧ (t.op[k]).phase = (s.op[k]).phase ∧ (t.op[k]).eg = (s.op[k]).eg.gateOff) ∧
      ∀ m : Nat, exec (.noteOff m) s = exec (.noteOff n) s

/-- 42 R121: EG.REFRESH loads the eight latches, each raw value times 0.01, and touches nothing else. Under a finite
number format the constant 0.01 is itself rounded, `f.q (1 / 100)`: the model's choice (log entry 1). -/
def Obligations.RefreshLoadsTheLatches : Prop :=
  ∀ (f : NumFormat) (e : Eg) (r1 r2 r3 r4 l1 l2 l3 l4 : Raw),
    let scaled : Raw → ℚ := fun r => f.q (f.q r.toInt * f.q (1 / 100))
    e.refresh f r1 r2 r3 r4 l1 l2 l3 l4 =
      { e with
        er1 := scaled r1, er2 := scaled r2, er3 := scaled r3, er4 := scaled r4
        el1 := scaled l1, el2 := scaled l2, el3 := scaled l3, el4 := scaled l4 }

/-- 42 R123, whole, with R122: GATE_ON enters the first open segment at its start, or SUSTAIN at EL3 with START and
TARGET as they were. -/
def Obligations.GateOnEntersFirstOpenSegment : Prop :=
  ∀ e : Eg,
    (e.er1 < 1 → e.gateOn = { e with st := .attack, start := 0, target := e.el1, val := 0 }) ∧
    (1 ≤ e.er1 → e.er2 < 1 → e.gateOn = { e with st := .decay1, start := e.el1, target := e.el2, val := e.el1 }) ∧
    (1 ≤ e.er1 → 1 ≤ e.er2 → e.er3 < 1 →
      e.gateOn = { e with st := .decay2, start := e.el2, target := e.el3, val := e.el2 }) ∧
    (1 ≤ e.er1 → 1 ≤ e.er2 → 1 ≤ e.er3 → e.gateOn = { e with st := .sustain, val := e.el3 })

/-- 42 R124, whole, with R122: GATE_OFF does nothing in IDLE, else enters RELEASE from the current value, or IDLE at EL4
when ER4 >= 1. -/
def Obligations.GateOffReleasesFromCurrentValue : Prop :=
  ∀ e : Eg,
    (e.st = .idle → e.gateOff = e) ∧
    (e.st ≠ .idle → e.er4 < 1 → e.gateOff = { e with st := .release, start := e.val, target := e.el4, val := e.val }) ∧
    (e.st ≠ .idle → 1 ≤ e.er4 → e.gateOff = { e with st := .idle, val := e.el4 })

/-- 42 R125 and R128, with R131: one tick of a moving segment moves the value by `(TARGET - START)/N` with `N =
(1-R)^4 * FS`, or, when that reaches the target or `N = 0`, snaps the value to TARGET and goes to the state that the
completion rule names. `q` is the rounding of the number format (00 R7). That a finite format takes the 1 of `1-R` as
it is is the model's choice (log entry 1). -/
def Obligations.MovingSegmentTick : Prop :=
  ∀ (f : NumFormat) (fs : Nat) (e : Eg) (R : ℚ), e.st.moving = true →
    R = (match e.st with | .attack => e.er1 | .decay1 => e.er2 | .decay2 => e.er3 | _ => e.er4) →
    let q : ℚ → ℚ := f.q
    let D : ℚ := q (1 - R)
    let N : ℚ := q (q (q (D * D) * q (D * D)) * q fs)
    let v : ℚ := q (e.val + q (q (e.target - e.start) / N))
    (N ≠ 0 → |q (v - e.start)| < |q (e.target - e.start)| → e.step f fs = { e with val := v }) ∧
    ((N = 0 ∨ |q (e.target - e.start)| ≤ |q (v - e.start)|) →
      (e.step f fs).val = e.target ∧
      (e.st = .attack → e.er2 < 1 →
        e.step f fs = { e with st := .decay1, start := e.target, target := e.el2, val := e.target }) ∧
      (e.st = .attack → 1 ≤ e.er2 → e.er3 < 1 →
        e.step f fs = { e with st := .decay2, start := e.target, target := e.el3, val := e.target }) ∧
      (e.st = .attack → 1 ≤ e.er2 → 1 ≤ e.er3 → e.step f fs = { e with st := .sustain, val := e.target }) ∧
      (e.st = .decay1 → e.er3 < 1 →
        e.step f fs = { e with st := .decay2, start := e.target, target := e.el3, val := e.target }) ∧
      (e.st = .decay1 → 1 ≤ e.er3 → e.step f fs = { e with st := .sustain, val := e.target }) ∧
      (e.st = .decay2 → e.step f fs = { e with st := .sustain, val := e.target }) ∧
      (e.st = .release → e.step f fs = { e with st := .idle, val := e.target }))

/-- 42 R126 and R127, of all seven generators: in SUSTAIN and IDLE the value follows the parameters L3 and L4 (PL3 and
PL4 for the pitch envelope, 45 R181) live, at every TICK, and the state does not leave by itself. That under a finite
number format the constant 0.01 is itself rounded is the model's choice (log entry 1), and that a TICK refreshes the
latches under at_write too is its reading (log entry 15). -/
def Obligations.HoldingStatesFollowTheirLevel : Prop :=
  ∀ s : State, s.status.inited = true → s.indexUsed →
    let scaled : Raw → ℚ := fun r => s.cfg.num.q (s.cfg.num.q r.toInt * s.cfg.num.q (1 / 100))
    ∃ t : State, exec .tick s = .next t ∧
      (∀ k : Fin 6,
        ((s.op[k]).eg.st = .sustain → (t.op[k]).eg.st = .sustain ∧
          (t.op[k]).eg.val = scaled ((s.op[k]).raw OpField.L3)) ∧
        ((s.op[k]).eg.st = .idle → (t.op[k]).eg.st = .idle ∧
          (t.op[k]).eg.val = scaled ((s.op[k]).raw OpField.L4))) ∧
      (s.peg.st = .sustain → t.peg.st = .sustain ∧ t.peg.val = scaled s.pv[VField.PL3]) ∧
      (s.peg.st = .idle → t.peg.st = .idle ∧ t.peg.val = scaled s.pv[VField.PL4])

/-- 42 R129, under the reference semantics: a segment of length N entered at its start with a constant rate below 1
returns `START + n*(TARGET-START)/N` at its n-th tick for n < N, and TARGET exactly at tick ceil(N); with
START = TARGET it completes at its first tick. -/
def Obligations.SegmentLastsCeilN : Prop :=
  ∀ (fs : Nat) (e : Eg), 0 < fs → e.st.moving = true → e.rate < 1 → e.val = e.start →
    let N : ℚ := (1 - e.rate) ^ 4 * (fs : ℚ)
    (e.start ≠ e.target →
      (∀ n : Nat, (n : ℚ) < N →
        (Eg.steps .exact fs n e).st = e.st ∧
          (Eg.steps .exact fs n e).val = e.start + (n : ℚ) * (e.target - e.start) / N) ∧
      (Eg.steps .exact fs ⌈N⌉₊ e).val = e.target ∧ (Eg.steps .exact fs ⌈N⌉₊ e) = e.snap) ∧
    (e.start = e.target → e.step .exact fs = e.snap ∧ (e.step .exact fs).val = e.target)

/-! ## Frequencies and the numeric functions -/

/-- 43 R151, with R150: in ratio mode BASEFREQ is `(440/32 * exp2((note-9)/12) + (DET-7)) * coarse * (1 + fine)`, `r`
rounding each result (the identity under the reference semantics). That a finite format rounds the constant 0.01 too,
`r (1 / 100)`, and takes 440/32, 1/2 and the integers as they are is the model's choice (log entry 1), and so is the
one rounding of `note - 9` (log entry 17). The test `COARSE > 0` is made on the Num as computed (00 R7). -/
def Obligations.RatioModeFrequency : Prop :=
  ∀ (F : Functions) (f : NumFormat) (o : Op) (n : Nat), F.Lawful → o.raw OpField.MODE = 0 →
    let r : ℝ → ℝ := f.roundReal
    let freq : ℝ := r (440 / 32 * r (F.exp2 (r (r ((n : ℝ) - 9) / 12))))
    let numCoarse : ℝ := r ((o.raw OpField.COARSE).toInt : ℝ)
    let coarse : ℝ := if 0 < numCoarse then numCoarse else 1 / 2
    let fine : ℝ := r (r ((o.raw OpField.FINE).toInt : ℝ) * r (1 / 100))
    let detune : ℝ := r (r ((o.raw OpField.DET).toInt : ℝ) - 7)
    o.freqDefined = true ∧ (o.freq f n).val F = r (r (r (freq + detune) * coarse) * r (1 + fine))

/-- 43 R150, R152: in fixed mode BASEFREQ is `pow(10 + (DET-7)*0.01, (COARSE tmod 4) + FINE*0.01)`, whatever the note,
`r` rounding each result; and it has a value exactly when DET is above -993. That a finite format rounds the constant
0.01 too, `r (1 / 100)`, and takes 10 and 7 as they are is the model's choice (log entry 1), and so is what stands for
the value of `pow` where the base is not positive: where DET is -993 or below, or where a finite format rounds the base
so, and that DET alone decides whether there is a value (log entry 10). -/
def Obligations.FixedModeFrequency : Prop :=
  ∀ (F : Functions) (f : NumFormat) (o : Op) (n : Nat), F.Lawful → o.raw OpField.MODE ≠ 0 →
    let r : ℝ → ℝ := f.roundReal
    let detune : ℝ := r (r (r ((o.raw OpField.DET).toInt : ℝ) - 7) * r (1 / 100))
    let exponent : ℝ := r (r (((o.raw OpField.COARSE).toInt.tmod 4 : Int) : ℝ)
      + r (r ((o.raw OpField.FINE).toInt : ℝ) * r (1 / 100)))
    (o.freqDefined = true ↔ -993 < (o.raw OpField.DET).toInt) ∧
      (o.freq f n).val F = r (F.pow (r (10 + detune)) exponent)

/-- 00 R8 with 95 FN1 to FN6, under the reference semantics and any lawful configuration functions: `exp2` and `pow` are
computed exactly at integers and are positive, and `exp2` turns sums into products. -/
def Obligations.PowersAreExactAtIntegers : Prop :=
  (∀ n : Int, exp2 .exact (n : ℚ) = .rat ((2 : ℚ) ^ n)) ∧
  (∀ (b : ℚ) (n : Int), 0 < b → pow .exact b (n : ℚ) = .rat (b ^ n)) ∧
  ∀ F : Functions, F.Lawful →
    (∀ x : ℚ, 0 < (exp2 .exact x).val F) ∧
    (∀ x y : ℚ, (exp2 .exact (x + y)).val F = (exp2 .exact x).val F * (exp2 .exact y).val F) ∧
    ∀ b e : ℚ, 0 < b → 0 < (pow .exact b e).val F

/-- 00 R6, R7, R8: under every number format, whatever lawful configuration functions a model takes, the machine's
`exp2(x)` and `pow(b, e)` are the functions' values rounded once; with the default, "the mathematical functions", and
exact arithmetic they are the real powers `2^x` and `b^e` themselves. At a base that is not positive R8 gives `pow` no
value: that the machine's `pow` is the configuration function's value, rounded, there too is the model's choice (log
entry 10), and `Functions.Lawful` says nothing of that value. -/
def Obligations.PowersAreTheConfiguredPowers : Prop :=
  (∀ (F : Functions) (f : NumFormat), F.Lawful →
    (∀ x : ℚ, (exp2 f x).val F = f.roundReal (F.exp2 x)) ∧
    ∀ b e : ℚ, (pow f b e).val F = f.roundReal (F.pow b e)) ∧
  (∀ x : ℚ, (exp2 .exact x).val Functions.standard = (2 : ℝ) ^ (x : ℝ)) ∧
  ∀ b e : ℚ, 0 < b → (pow .exact b e).val Functions.standard = (b : ℝ) ^ (e : ℝ)

/-- 43 R151 corner (c), under the reference semantics and any lawful configuration functions: with nominal parameters
the ratio-mode frequency of every note is positive. -/
def Obligations.NominalRatioFrequencyIsPositive : Prop :=
  ∀ (F : Functions) (o : Op) (n : Nat), F.Lawful → o.nominal → o.raw OpField.MODE = 0 → n < 128 →
    0 < (o.freq .exact n).val F

/-! ## The oscillator -/

/-- 41 R111, 20 R63: under every number format OSC is the value of R111's formula, each result rounded; under the
reference semantics it is the linear interpolation between the two neighbouring ROM entries at the position
`(phase*512 + 512) mod 512`, the upper neighbour wrapping modulo 512, and lies in [-1, 1]; the index is reduced modulo
512 and so is always in range. How `fr` is taken where a finite format leaves the position outside the table, that the
integers `floor(x)` are exact, and that 512 is taken as it is, is the model's choice (log entries 16, 20 and 1). -/
def Obligations.OscillatorInterpolates : Prop :=
  ∀ F : Functions, F.Lawful →
    (∀ (f : NumFormat) (x : Sys2Proof.Num), (osc f x).val F = F.osc f (x.val F)) ∧
    (∀ n : Int, tableIndex n < 512 ∧ (tableIndex n : Int) = n % 512) ∧
    ∀ x : Sys2Proof.Num, ∃ (u fr : ℝ) (i0 : Nat),
      (∃ m : Int, u = x.val F * 512 + 512 - 512 * (m : ℝ)) ∧ 0 ≤ u ∧ u < 512 ∧ i0 < 512 ∧ u = (i0 : ℝ) + fr ∧
        0 ≤ fr ∧ fr < 1 ∧
        (osc .exact x).val F =
          (sine .exact i0).val F + fr * ((sine .exact ((i0 + 1) % 512)).val F - (sine .exact i0).val F) ∧
        -1 ≤ (osc .exact x).val F ∧ (osc .exact x).val F ≤ 1

/-- 41 R112 (a), under the reference semantics: the oscillator has period 1, whatever the two phases are held as. -/
def Obligations.OscillatorHasPeriodOne : Prop :=
  ∀ (F : Functions) (x y : Sys2Proof.Num) (n : Int), F.Lawful → y.val F = x.val F + (n : ℝ) →
    (osc .exact y).val F = (osc .exact x).val F

/-- 41 R110: every entry of the sine ROM is `sin(2*pi*i/512)`, rounded once under a finite NUM, for any lawful
configuration function and so for the mathematical sine; the four exact entries, in every format that holds the number
1; and, under the reference semantics, the two symmetries and the range. -/
def Obligations.SineRomEntries : Prop :=
  (∀ (F : Functions) (f : NumFormat) (i : Nat), F.Lawful →
    (sine f i).val F = f.roundReal (F.sin (2 * Real.pi * i / 512))) ∧
  (∀ i : Nat, (sine .exact i).val Functions.standard = Real.sin (2 * Real.pi * i / 512)) ∧
  (∀ f : NumFormat, f.holds 1 →
    sine f 0 = .rat 0 ∧ sine f 128 = .rat 1 ∧ sine f 256 = .rat 0 ∧ sine f 384 = .rat (-1)) ∧
  ∀ (F : Functions) (i : Nat), F.Lawful → i < 256 →
    (sine .exact (256 + i)).val F = -(sine .exact i).val F ∧
    (sine .exact (256 - i)).val F = (sine .exact i).val F ∧
    -1 ≤ (sine .exact i).val F ∧ (sine .exact i).val F ≤ 1

/-! ## TICK -/

/-- 43 R154, of every operator, under every number format (`r` rounds each result) and any lawful configuration
functions: the phase advances by `BASEFREQ/FS * exp2(8*pitchEnv - 4)` and a tenth of the modulation input, wrapped by
`fmod1`; the output is the oscillator at the phase before the advance times the envelope after it, VEL and OL*0.01; the
envelope is refreshed and advanced; the parameters, BASEFREQ, VEL and NOTE are kept. That a finite format rounds the
constants 0.1 and 0.01 too, `r (1 / 10)` and `r (1 / 100)`, and takes 8 and 4 as they are is the model's choice (log
entry 1); for a position outside the table see log entry 16, for the exact `floor` log entry 20, for a divisor
`num(FS)` or `num(cnt)` that it rounds to 0 log entry 19. The TICK that ALG_OOR = noop makes a no-operation is
`AlgorithmIndexOutOfRange`'s. -/
def Obligations.TickAdvancesEveryOperator : Prop :=
  ∀ s : State, s.status.inited = true → s.indexUsed →
    ∃ t : State, exec .tick s = .next t ∧ t.peg = (refreshPeg s.cfg.num s.toRegs).step s.cfg.num s.fs ∧
      (∀ k : Fin 6,
        (t.op[k]).eg = ((s.op[k]).eg.refresh s.cfg.num ((s.op[k]).raw OpField.R1) ((s.op[k]).raw OpField.R2)
          ((s.op[k]).raw OpField.R3) ((s.op[k]).raw OpField.R4) ((s.op[k]).raw OpField.L1)
          ((s.op[k]).raw OpField.L2) ((s.op[k]).raw OpField.L3) ((s.op[k]).raw OpField.L4)).step s.cfg.num s.fs ∧
        (t.op[k]).p = (s.op[k]).p ∧ (t.op[k]).baseFreq = (s.op[k]).baseFreq ∧ (t.op[k]).vel = (s.op[k]).vel ∧
        (t.op[k]).note = (s.op[k]).note) ∧
      ∀ (F : Functions) (k : Fin 6), F.Lawful →
        let r : ℝ → ℝ := s.cfg.num.roundReal
        let w : ℝ := r (r ((s.op[k]).baseFreq.val F / r (s.fs : ℝ)) * r (F.exp2 (r (r ((s.pitchEnv : ℝ) * 8) - 4))))
        let y : ℝ := r (r ((s.op[k]).phase.val F + w) + r (s.modInput F k * r (1 / 10)))
        (t.op[k]).phase.val F = r (y - (⌊y⌋ : ℝ)) ∧
        (t.prev[k]).val F =
          r (r (r (F.osc s.cfg.num ((s.op[k]).phase.val F) * ((t.op[k]).eg.val : ℝ)) * ((s.op[k]).vel : ℝ))
            * r (r (((s.op[k]).raw OpField.OL).toInt : ℝ) * r (1 / 100)))

/-- 45 R190, with R183: the modulation input of an operator is the sum over its sources other than itself, and
the scaled feedback register if its feedback gate is set, divided by their count, 0 if there are none: under every
number format the loop of R180, each result rounded; under the reference semantics the sum itself. What stands for the
quotient where a finite format rounds the count to 0 is the model's choice (log entry 19). -/
def Obligations.ModulationIsTheAverageOfItsSources : Prop :=
  (∀ (F : Functions) (f : NumFormat) (rom : Vector AlgEntry 32) (a : Fin 32) (prev : Vector Sys2Proof.Num 6)
      (fb : Sys2Proof.Num) (fbLevel : ℚ) (d : Fin 6),
    (modulation f rom a prev fb fbLevel d).val F =
      crossbarInput f rom a (fun s => (prev[s]).val F) (fb.val F) fbLevel d) ∧
  ∀ (rom : Vector AlgEntry 32) (a : Fin 32) (prev : Fin 6 → ℝ) (fb fbLevel : ℝ) (d : Fin 6),
    crossbarInput .exact rom a prev fb fbLevel d =
      if crossbarCount rom a d = 0 then 0
      else ((∑ s : Fin 6, if s ≠ d ∧ gate rom a d s = true then prev s else 0)
        + if fbGate rom a d = true then fb * fbLevel else 0) / (crossbarCount rom a d : ℝ)

/-- 45 R184 and R185 (with 47 R226): after all six operators are computed, FB becomes the unscaled average of
their outputs over row 6 of the entry in use and the sample their average over row 7, 0 if none; the outputs are
committed to PREV; the sample is driven on SAMPLE_OUT. What stands for an average where a finite format rounds the count
to 0 is the model's choice (log entry 19), and so is the quotient by 7 of the feedback level (log entry 1). -/
def Obligations.TickMixesAndCommits : Prop :=
  ∀ s : State, s.status.inited = true → s.indexUsed →
    let a : Fin 32 := clampAlg s.pv[VField.ALG]
    ∃ (t : State) (tmp : Vector Sys2Proof.Num 6), exec .tick s = .next t ∧
      (∀ d : Fin 6, tmp[d] = ((s.op[d]).tick s.cfg.num s.fs
        (modulation s.cfg.num s.cfg.algRom.cells a s.prev s.fb (seventh s.cfg.num s.pv[VField.FBL]) d)
        s.pitchEnv 0).2) ∧
      t.prev = tmp ∧ t.sample = some t.sampleOut ∧
      ∀ F : Functions,
        t.fb.val F = rowMean s.cfg.num s.cfg.algRom.cells a 6 (fun k => (tmp[k]).val F) ∧
        t.sampleOut.val F = rowMean s.cfg.num s.cfg.algRom.cells a 7 (fun k => (tmp[k]).val F)

/-- 45 R180, last sentence ("Never written by V.TICK"), with 10 R40 and 20 R62: TICK writes no parameter register, FS,
STATUS, BASEFREQ, VEL or NOTE, nor BANK. -/
def Obligations.TickFrame : Prop :=
  ∀ s t : State, exec .tick s = .next t →
    s.ParamsSame t ∧ s.HostPartSame t ∧ t.fs = s.fs ∧ t.status = s.status ∧ t.freeCtr = s.freeCtr ∧
      ∀ k : Fin 6, (t.op[k]).baseFreq = (s.op[k]).baseFreq ∧ (t.op[k]).vel = (s.op[k]).vel ∧
        (t.op[k]).note = (s.op[k]).note

/-- 44 R174: a TICK uses the entry `min(max(P_V[ALG], 0), 31)` and the register keeps its value; with ALG_OOR = noop an
index outside 0..31 makes the TICK return 0 and change no state. That this 0 stands on SAMPLE_OUT and is valid there,
as after every TICK (30 R94, 47 R226), is the model's reading (log entry 7). -/
def Obligations.AlgorithmIndexOutOfRange : Prop :=
  ∀ s : State, s.status.inited = true →
    (s.indexUsed →
      ∃ (t : State) (a : Fin 32), exec .tick s = .next t ∧
        (a.val : Int) = min (max (s.pv[VField.ALG]).toInt 0) 31 ∧ t.pv[VField.ALG] = s.pv[VField.ALG] ∧
        t.toRegs = (tickWith s.cfg a s.toRegs).1 ∧ t.sampleOut = (tickWith s.cfg a s.toRegs).2) ∧
    (s.cfg.algOor = .noop → ((s.pv[VField.ALG]).toInt < 0 ∨ 31 < (s.pv[VField.ALG]).toInt) →
      exec .tick s = .next { s with sampleOut := .rat 0, sampleValid := true })

/-- 44 R172: the cells that no rule reads cannot be observed: two ROMs that agree on the others give the same TICK. -/
def Obligations.UnreadRomCellsAreUnobservable : Prop :=
  ∀ (s : State) (rom : AlgRom), SameReadCells s.cfg.algRom.cells rom.cells →
    voiceTick { s.cfg with algRom := rom } s.toRegs = voiceTick s.cfg s.toRegs

/-- 44 R171 (a) and (b), 95 S4: whatever ALG_ROM a machine is configured with, no entry lets an operator modulate
itself, and no step changes the ROM. -/
def Obligations.RomIsConstantWithoutSelfModulation : Prop :=
  (∀ (cfg : Config) (a : Fin 32) (d : Fin 6), gate cfg.algRom.cells a d d = false) ∧
  ∀ s t : State, step s = .next t → t.cfg.algRom = s.cfg.algRom

/-- 45 R186: the one-sample delay: what PREV and FB hold does not reach this tick's output; it reaches the phases
alone. -/
def Obligations.DelayRegistersReachOnlyPhases : Prop :=
  ∀ (s : State) (prev : Vector Sys2Proof.Num 6) (fb : Sys2Proof.Num), s.status.inited = true → s.indexUsed →
    ∃ t u : State, exec .tick s = .next t ∧ exec .tick { s with prev := prev, fb := fb } = .next u ∧
      u.sampleOut = t.sampleOut ∧ u.prev = t.prev ∧ u.fb = t.fb ∧ u.peg = t.peg ∧
      ∀ k : Fin 6, { u.op[k] with phase := (t.op[k]).phase } = t.op[k]

/-- 47 R223 corner (d): the first sample after a NOTE_ON is 0 for every parameter setting, under every number format
that holds 1 and 512 (`ample`), the numbers from which the table position of phase 0 is computed. -/
def Obligations.FirstSampleOfANoteIsZero : Prop :=
  ∀ (s t : State) (n v : Nat), ample s.cfg.num = true → exec (.noteOn n v) s = .next t →
    ∃ u : State, exec .tick t = .next u ∧ u.sampleOut = .rat 0

/-- 47 R226 corner (c), 10 R38 (a) to (c): an engine whose output levels, PREV and FB are 0 is silent: its TICK returns
0, and it stays so under every step after which it is initialised and its output levels are still 0. While also every
BASEFREQ is 0, its phases stand still at 0. INIT leaves such an engine; so every TICK returns 0 until an OL is written,
and no phase moves until a note starts or a frequency field is written. For a format too coarse to hold FS or a count,
that a quotient by 0 is 0 is the model's choice (log entry 19). -/
def Obligations.SilentUntilALevelIsWritten : Prop :=
  (∀ s t : State, s.Quiet → step s = .next t → t.status.inited = true →
    (∀ k : Fin 6, (t.op[k]).raw OpField.OL = 0) → t.Quiet) ∧
  (∀ s t : State, s.Quiet → exec .tick s = .next t → t.sampleOut = .rat 0) ∧
  (∀ s t : State, s.Still → step s = .next t → t.status.inited = true →
    (∀ k : Fin 6, (t.op[k]).raw OpField.OL = 0) → (∀ k : Fin 6, (t.op[k]).baseFreq = .rat 0) → t.Still) ∧
  ∀ (s t : State) (fs : Nat), exec (.init fs) s = .next t → t.status.inited = true → t.Still

/-- 43 R154 (a), 45 R181, 20 R71 (d): after a TICK every latch holds its parameter times 0.01 (0.01 itself rounded under
a finite number format: log entry 1; under at_write too: log entry 15). -/
def Obligations.TickRefreshesLatches : Prop :=
  ∀ s : State, s.status.inited = true → s.indexUsed →
    ∃ t : State, exec .tick s = .next t ∧ t.toRegs.latchesCurrent s.cfg.num

/-! ## SET_PARAM -/

/-- 43 R153, whole (with R12, R26, R187): SET_PARAM of flat index `(5-k)*21 + f` stores the value in P_OP[k][f]; a
write of DET, COARSE, MODE or FINE recomputes that operator's BASEFREQ with the latched note; under EG_REFRESH =
at_write a write of R1..R4, L1..L4 refreshes its latches; nothing else changes. -/
def Obligations.SetOperatorParameter : Prop :=
  ∀ (s : State) (k : Fin 6) (f : Fin 21) (v : Raw), s.status.inited = true →
    (f ∈ [OpField.DET, OpField.COARSE, OpField.MODE, OpField.FINE] → ((s.op[k]).store f v).freqDefined = true) →
    ∃ t : State, exec (.setParam (flatOp k f) v) s = .next t ∧ s.OutsideSame t ∧ t.pv = s.pv ∧ t.peg = s.peg ∧
      t.prev = s.prev ∧ t.fb = s.fb ∧
      (∀ (j : Fin 6) (g : Fin 21), (t.op[j]).raw g = if j = k ∧ g = f then v else (s.op[j]).raw g) ∧
      ∀ j : Fin 6, (t.op[j]).phase = (s.op[j]).phase ∧ (t.op[j]).vel = (s.op[j]).vel ∧
        (t.op[j]).note = (s.op[j]).note ∧
        (t.op[j]).baseFreq = (if j = k ∧ f ∈ [OpField.DET, OpField.COARSE, OpField.MODE, OpField.FINE] then
          (t.op[j]).freq s.cfg.num (s.op[j]).note else (s.op[j]).baseFreq) ∧
        (t.op[j]).eg = (if j = k ∧ s.cfg.egRefresh = .atWrite ∧ f.val < 8 then
          (s.op[j]).eg.refresh s.cfg.num ((t.op[j]).raw OpField.R1) ((t.op[j]).raw OpField.R2)
            ((t.op[j]).raw OpField.R3) ((t.op[j]).raw OpField.R4) ((t.op[j]).raw OpField.L1) ((t.op[j]).raw OpField.L2)
            ((t.op[j]).raw OpField.L3) ((t.op[j]).raw OpField.L4)
          else (s.op[j]).eg)

/-- 45 R187 (with 10 R26): SET_PARAM of flat index `126 + g` stores the value in P_V[g] and, under EG_REFRESH = at_write
with g < 8, refreshes the pitch envelope's latches; nothing else changes. -/
def Obligations.SetVoiceParameter : Prop :=
  ∀ (s : State) (g : Fin 29) (v : Raw), s.status.inited = true →
    ∃ t : State, exec (.setParam (flatVoice g) v) s = .next t ∧ s.OutsideSame t ∧ t.op = s.op ∧ t.prev = s.prev ∧
      t.fb = s.fb ∧ (∀ h : Fin 29, t.pv[h] = if h = g then v else s.pv[h]) ∧
      t.peg = (if s.cfg.egRefresh = .atWrite ∧ g.val < 8 then
        s.peg.refresh s.cfg.num t.pv[VField.PR1] t.pv[VField.PR2] t.pv[VField.PR3] t.pv[VField.PR4]
          t.pv[VField.PL1] t.pv[VField.PL2] t.pv[VField.PL3] t.pv[VField.PL4]
        else s.peg)

/-- 20 R61 with 60 R251 row E3: an index at or above 155 names nothing and the write is absorbed. That an absorbed
command too ends the validity of SAMPLE_OUT ("until the next command", 30 R94) is the model's reading (log entry 7). -/
def Obligations.IndexOutOfRangeIsAbsorbed : Prop :=
  ∀ (s : State) (i : Nat) (v : Raw), s.status.inited = true → 155 ≤ i →
    exec (.setParam i v) s = .next { s with sampleValid := false }

/-- 43 R152 corner (c), 93 U5, 95 NEG4 (the refusal: log entry 10): after INIT, SET_PARAM is refused exactly when it
writes an oscillator-frequency field and leaves that operator in fixed mode with DET at or below -993. -/
def Obligations.SetParamRefusedExactlyWithoutFrequency : Prop :=
  ∀ (s : State) (i : Nat) (v : Raw), s.status.inited = true →
    (exec (.setParam i v) s = .refused .powBaseNotPositive ↔
      ∃ (k : Fin 6) (f : Fin 21), i = flatOp k f ∧
        f ∈ [OpField.DET, OpField.COARSE, OpField.MODE, OpField.FINE] ∧
        (if f = OpField.MODE then v else (s.op[k]).raw OpField.MODE) ≠ 0 ∧
        (if f = OpField.DET then v else (s.op[k]).raw OpField.DET).toInt ≤ -993)

/-- After INIT, NOTE_ON is refused exactly when some operator is in fixed mode with DET at or below -993, where `pow`
has no value (43 R152 corner (c), 93 U5). That NOTE_ON stops there, as NEG4 says of SET_PARAM, is the model's reading
(log entry 10). -/
def Obligations.NoteOnRefusedExactlyWithoutFrequency : Prop :=
  ∀ (s : State) (n v : Nat), s.status.inited = true →
    (exec (.noteOn n v) s = .refused .powBaseNotPositive ↔
      ∃ k : Fin 6, (s.op[k]).raw OpField.MODE ≠ 0 ∧ ((s.op[k]).raw OpField.DET).toInt ≤ -993)

/-- 70 R285, R289: a parameter write, by SET_PARAM or by LOAD_VOICE, moves no running segment: state, value, START and
TARGET of every envelope are unchanged. -/
def Obligations.ParameterWritesLeaveSegments : Prop :=
  ∀ (s t : State) (i : Instr), ((∃ x v, i = .setParam x v) ∨ (∃ v len, i = .loadVoice v len)) →
    exec i s = .next t →
    (∀ k : Fin 6, (t.op[k]).eg.st = (s.op[k]).eg.st ∧ (t.op[k]).eg.val = (s.op[k]).eg.val ∧
      (t.op[k]).eg.start = (s.op[k]).eg.start ∧ (t.op[k]).eg.target = (s.op[k]).eg.target) ∧
    t.peg.st = s.peg.st ∧ t.peg.val = s.peg.val ∧ t.peg.start = s.peg.start ∧ t.peg.target = s.peg.target

/-! ## LOAD_VOICE -/

/-- 46 R205 (30 R86, R88): the value of every operator field from the bytes of a packed operator block. -/
def Obligations.PackedOperatorLayout : Prop :=
  ∀ b : Nat → Byte, (opFields b).map (fun r => r.toNat) =
    [(b 0).toNat, (b 1).toNat, (b 2).toNat, (b 3).toNat, (b 4).toNat, (b 5).toNat, (b 6).toNat, (b 7).toNat,
     (b 8).toNat, (b 9).toNat, (b 10).toNat, (b 11).toNat % 4, (b 11).toNat / 4 % 4, (b 12).toNat / 8 % 16,
     (b 12).toNat % 8, (b 13).toNat / 4 % 8, (b 13).toNat % 4, (b 14).toNat, (b 15).toNat / 2 % 32,
     (b 15).toNat % 2, (b 16).toNat]

/-- 46 R206 (30 R87, R88): the value of every voice field from the bytes of the packed voice-level block. -/
def Obligations.PackedVoiceLayout : Prop :=
  ∀ c : Nat → Byte, (voiceFields c).map (fun r => r.toNat) =
    [(c 0).toNat, (c 1).toNat, (c 2).toNat, (c 3).toNat, (c 4).toNat, (c 5).toNat, (c 6).toNat, (c 7).toNat,
     (c 8).toNat, (c 9).toNat % 8, (c 9).toNat / 8 % 2, (c 10).toNat, (c 11).toNat, (c 12).toNat, (c 13).toNat,
     (c 14).toNat / 16 % 8, (c 14).toNat / 2 % 8, (c 14).toNat % 2, (c 15).toNat]

/-- 46 R200 to R207, R210: LOAD_VOICE of an accepted frame writes the 126 operator registers (record ordinal = internal
index, 00 R12) and P_V[0..18] from record `v`, recomputes the six BASEFREQ with the latched notes, leaves the name
registers and every other runtime register; under EG_REFRESH = at_write the latches follow. -/
def Obligations.LoadOfAnAcceptedFrame : Prop :=
  ∀ (s : State) (v len a : Nat), s.status.inited = true → s.bank.wf → v < 32 → FrameAt s.bank len a →
    let base := a + 6 + 128 * v
    ∃ t : State, exec (.loadVoice v len) s = .next t ∧ s.OutsideSame t ∧ t.prev = s.prev ∧ t.fb = s.fb ∧
      (∀ (o : Fin 6) (f : Fin 21),
        some ((t.op[o]).raw f) = (opFields fun j => s.bank.read (base + 17 * o.val + j))[f.val]?) ∧
      (∀ g : Fin 29, some t.pv[g] =
        if g.val < 19 then (voiceFields fun j => s.bank.read (base + 102 + j))[g.val]? else some s.pv[g]) ∧
      (∀ o : Fin 6, (t.op[o]).baseFreq = (t.op[o]).freq s.cfg.num (s.op[o]).note ∧ (t.op[o]).phase = (s.op[o]).phase ∧
        (t.op[o]).vel = (s.op[o]).vel ∧ (t.op[o]).note = (s.op[o]).note ∧
        (t.op[o]).eg = (if s.cfg.egRefresh = .atWrite then
          (s.op[o]).eg.refresh s.cfg.num ((t.op[o]).raw OpField.R1) ((t.op[o]).raw OpField.R2)
            ((t.op[o]).raw OpField.R3) ((t.op[o]).raw OpField.R4) ((t.op[o]).raw OpField.L1) ((t.op[o]).raw OpField.L2)
            ((t.op[o]).raw OpField.L3) ((t.op[o]).raw OpField.L4)
          else (s.op[o]).eg)) ∧
      t.peg = (if s.cfg.egRefresh = .atWrite then
        s.peg.refresh s.cfg.num t.pv[VField.PR1] t.pv[VField.PR2] t.pv[VField.PR3] t.pv[VField.PR4]
          t.pv[VField.PL1] t.pv[VField.PL2] t.pv[VField.PL3] t.pv[VField.PL4]
        else s.peg)

/-- 46 R201, R202, R209 (60 R251 rows E4 to E7): LOAD_VOICE with a voice index of 32 or more, or over a buffer without
an accepted frame, writes nothing. That an absorbed command too ends the validity of SAMPLE_OUT ("until the next
command", 30 R94) is the model's reading (log entry 7). -/
def Obligations.RejectedLoadWritesNothing : Prop :=
  ∀ (s : State) (v len : Nat), s.status.inited = true → s.bank.wf →
    (32 ≤ v ∨ ∀ a : Nat, ¬ FrameAt s.bank len a) →
    exec (.loadVoice v len) s = .next { s with sampleValid := false }

/-- 20 R62: "`BANK[a]` for `a >= L` does not exist and no rule reads it": two buffers that agree below L load the same
registers. -/
def Obligations.LoadReadsOnlyTheBuffer : Prop :=
  ∀ (s : State) (m : Memory) (v len : Nat), s.bank.wf → m.wf → (∀ a, a < len → m.read a = s.bank.read a) →
    patchLoad s.cfg m v len s.toRegs = patchLoad s.cfg s.bank v len s.toRegs

/-! ## Invariants and whole-machine rules -/

/-- The invariant of every run (10 R27 to R31, 43 R152, R158, 46 R62) is kept by every step. -/
def Obligations.StepKeepsTheRunInvariant : Prop := ∀ s t : State, s.Inv → step s = .next t → t.Inv

/-- The invariant of every run holds at power-on. -/
def Obligations.PowerOnMeetsTheRunInvariant : Prop := State.reset.Inv

/-- In a state of a run no command is refused after INIT but a SET_PARAM without a frequency (47 R229, 43 R152):
NOTE_ON and LOAD_VOICE always complete. -/
def Obligations.RunsAreRefusedOnlyBySetParam : Prop :=
  ∀ (s : State) (i : Instr), s.Inv → s.status.inited = true → (∀ x v, i ≠ .setParam x v) →
    ∃ t : State, exec i s = .next t

/-- 10 R39, 00 R6: under EG_REFRESH = at_write every step keeps the latches equal to their parameters times 0.01 (0.01
itself rounded under a finite number format: log entry 1). -/
def Obligations.AtWriteLatchesFollowParameters : Prop :=
  ∀ s t : State, s.LatchInv → step s = .next t → t.LatchInv

/-- 45 R189: with PEG_GATE = 0 the pitch envelope stays IDLE from INIT on, and every TICK that uses its algorithm
index leaves it at PL4*0.01. That under a finite number format the constant 0.01 is itself rounded is the model's
choice (log entry 1). -/
def Obligations.UngatedPitchEnvelopeRests : Prop :=
  (∀ s t : State, s.PegInv → step s = .next t → t.PegInv) ∧
  ∀ s : State, s.PegInv → s.status.inited = true → s.cfg.pegGate = false → s.indexUsed →
    ∃ t : State, exec .tick s = .next t ∧ t.peg.st = .idle ∧
      t.peg.val = s.cfg.num.q (s.cfg.num.q (s.pv[VField.PL4]).toInt * s.cfg.num.q (1 / 100))

/-- 43 R153, 70 R286: every step keeps every BASEFREQ at 0 or at what the present parameters and the latched note give;
power-on has it, no operator being initialised, and so has every run. -/
def Obligations.FrequencyFollowsTheLatchedNote : Prop :=
  State.reset.FreqInv ∧ ∀ s t : State, s.FreqInv → step s = .next t → t.FreqInv

/-- 43 R157, under the reference semantics and any lawful configuration functions: with nominal parameters one TICK
keeps every operator output, PREV, FB, every modulation input and SAMPLE_OUT in [-1, 1] and the voice nominal. -/
def Obligations.NominalVoiceStaysBounded : Prop :=
  ∀ (F : Functions) (s : State), F.Lawful → s.cfg.num = .exact → s.status.inited = true → s.toRegs.Nominal F →
    ∃ t : State, exec .tick s = .next t ∧ t.toRegs.Nominal F ∧ |t.sampleOut.val F| ≤ 1 ∧
      ∀ k : Fin 6, |s.modInput F k| ≤ 1

/-- 43 R155, R157, under the reference semantics and any lawful configuration functions: every step of a nominal voice
(any command, any host input), after which the engine is initialised and its parameters are nominal, leaves a nominal
voice. -/
def Obligations.StepKeepsAVoiceNominal : Prop :=
  ∀ (F : Functions) (s t : State), F.Lawful → s.cfg.num = .exact → s.toRegs.Nominal F → step s = .next t →
    t.status.inited = true → t.toRegs.NominalParams → t.toRegs.Nominal F

/-- 10 R23, R25: the registers that no rule reads are unobservable: two states that differ only in them give, for every
command, outcomes that differ only in them, and their runs yield the same and so are observably equal (70 R292; the
order within one trace: log entry 14). -/
def Obligations.UnreadRegistersAreUnobservable : Prop :=
  (∀ (s t : State) (i : Instr), s.SameSound t → SameOutcome State.SameSound (exec i s) (exec i t)) ∧
  ∀ (s t : State) (k : Nat), s.SameSound t →
    yields k s = yields k t ∧ ∀ F : Functions, ObservablyEqual F (yields k s) (yields k t)

/-- 70 R284: the H-LATCH hazard: under EG_REFRESH = at_tick a parameter write changes no envelope latch, so the note
event that follows it gates every envelope, the pitch envelope too, as it would have without the write. -/
def Obligations.NoteEventsUseTheOldLatches : Prop :=
  ∀ (s t : State) (x n v : Nat) (value : Raw), s.Inv → s.cfg.egRefresh = .atTick →
    exec (.setParam x value) s = .next t →
    (∃ u w : State, exec (.noteOn n v) t = .next u ∧ exec (.noteOn n v) s = .next w ∧ u.peg = w.peg ∧
      ∀ k : Fin 6, (u.op[k]).eg = (w.op[k]).eg) ∧
    ∃ u w : State, exec (.noteOff n) t = .next u ∧ exec (.noteOff n) s = .next w ∧ u.peg = w.peg ∧
      ∀ k : Fin 6, (u.op[k]).eg = (w.op[k]).eg

/-! ## Finite number formats -/

/-- 00 R7: "every result of this spec is the exact result rounded by that format". For the model's finite formats (its
choice, log entry 1), and a number `x` not above the largest they hold: the rounded result is a number of the format,
no number of the format is nearer to `x` when the format rounds to nearest, and none lies between it and `x` when it
rounds in a direction. -/
def Obligations.FiniteFormatsRoundOnce : Prop :=
  ∀ (p : Nat) (emin emax : Int) (mode : Rounding) (x : ℝ), 0 < p → emin ≤ emax - p + 1 →
    |x| ≤ ((2 : ℝ) ^ p - 1) * (2 : ℝ) ^ (emax - p + 1) →
    let f : NumFormat := .finite p emin emax mode
    let y : ℝ := f.roundReal x
    f.holds y ∧
    ((mode = .nearestEven ∨ mode = .nearestAway) → ∀ z : ℝ, f.holds z → |x - y| ≤ |x - z|) ∧
    (mode = .upward → x ≤ y ∧ ∀ z : ℝ, f.holds z → x ≤ z → y ≤ z) ∧
    (mode = .downward → y ≤ x ∧ ∀ z : ℝ, f.holds z → z ≤ x → z ≤ y) ∧
    (mode = .towardZero → |y| ≤ |x| ∧ 0 ≤ x * y ∧ ∀ z : ℝ, f.holds z → |z| ≤ |x| → |z| ≤ |y|)
end

