-- ==== Sys2Proof/Laws/State.lean ====
section
/-! SUPPORT. One lemma per field per named update, each true by rfl: no later proof unfolds a record update. -/

namespace Sys2Proof.Machine

/-! ## How a command ends -/

@[simp] theorem complete_fs (s : State) (r : Regs) : (complete s r).fs = r.fs := rfl
@[simp] theorem complete_op (s : State) (r : Regs) : (complete s r).op = r.op := rfl
@[simp] theorem complete_pv (s : State) (r : Regs) : (complete s r).pv = r.pv := rfl
@[simp] theorem complete_peg (s : State) (r : Regs) : (complete s r).peg = r.peg := rfl
@[simp] theorem complete_prev (s : State) (r : Regs) : (complete s r).prev = r.prev := rfl
@[simp] theorem complete_fb (s : State) (r : Regs) : (complete s r).fb = r.fb := rfl
@[simp] theorem complete_status (s : State) (r : Regs) : (complete s r).status = s.status := rfl
@[simp] theorem complete_sampleOut (s : State) (r : Regs) : (complete s r).sampleOut = s.sampleOut := rfl
@[simp] theorem complete_sampleValid (s : State) (r : Regs) : (complete s r).sampleValid = false := rfl
@[simp] theorem complete_bank (s : State) (r : Regs) : (complete s r).bank = s.bank := rfl
@[simp] theorem complete_inbox (s : State) (r : Regs) : (complete s r).inbox = s.inbox := rfl
@[simp] theorem complete_cfg (s : State) (r : Regs) : (complete s r).cfg = s.cfg := rfl
@[simp] theorem complete_freeCtr (s : State) (r : Regs) : (complete s r).freeCtr = s.freeCtr := rfl
@[simp] theorem complete_toRegs (s : State) (r : Regs) : (complete s r).toRegs = r := rfl
@[simp] theorem completeTick_fs (s : State) (r : Regs) (x : Num) : (completeTick s r x).fs = r.fs := rfl
@[simp] theorem completeTick_op (s : State) (r : Regs) (x : Num) : (completeTick s r x).op = r.op := rfl
@[simp] theorem completeTick_pv (s : State) (r : Regs) (x : Num) : (completeTick s r x).pv = r.pv := rfl
@[simp] theorem completeTick_peg (s : State) (r : Regs) (x : Num) : (completeTick s r x).peg = r.peg := rfl
@[simp] theorem completeTick_prev (s : State) (r : Regs) (x : Num) : (completeTick s r x).prev = r.prev := rfl
@[simp] theorem completeTick_fb (s : State) (r : Regs) (x : Num) : (completeTick s r x).fb = r.fb := rfl
@[simp] theorem completeTick_status (s : State) (r : Regs) (x : Num) : (completeTick s r x).status = s.status := rfl
@[simp] theorem completeTick_sampleOut (s : State) (r : Regs) (x : Num) : (completeTick s r x).sampleOut = x := rfl
@[simp] theorem completeTick_sampleValid (s : State) (r : Regs) (x : Num) : (completeTick s r x).sampleValid = true := rfl
@[simp] theorem completeTick_bank (s : State) (r : Regs) (x : Num) : (completeTick s r x).bank = s.bank := rfl
@[simp] theorem completeTick_inbox (s : State) (r : Regs) (x : Num) : (completeTick s r x).inbox = s.inbox := rfl
@[simp] theorem completeTick_cfg (s : State) (r : Regs) (x : Num) : (completeTick s r x).cfg = s.cfg := rfl
@[simp] theorem completeTick_freeCtr (s : State) (r : Regs) (x : Num) : (completeTick s r x).freeCtr = s.freeCtr := rfl
@[simp] theorem completeTick_toRegs (s : State) (r : Regs) (x : Num) : (completeTick s r x).toRegs = r := rfl

/-! ## Envelope generators -/

@[simp] theorem enter_st (e : Eg) (st : EgState) (a b : ℚ) : (e.enter st a b).st = st := rfl
@[simp] theorem enter_val (e : Eg) (st : EgState) (a b : ℚ) : (e.enter st a b).val = a := rfl
@[simp] theorem enter_start (e : Eg) (st : EgState) (a b : ℚ) : (e.enter st a b).start = a := rfl
@[simp] theorem enter_target (e : Eg) (st : EgState) (a b : ℚ) : (e.enter st a b).target = b := rfl
@[simp] theorem enter_er1 (e : Eg) (st : EgState) (a b : ℚ) : (e.enter st a b).er1 = e.er1 := rfl
@[simp] theorem enter_er2 (e : Eg) (st : EgState) (a b : ℚ) : (e.enter st a b).er2 = e.er2 := rfl
@[simp] theorem enter_er3 (e : Eg) (st : EgState) (a b : ℚ) : (e.enter st a b).er3 = e.er3 := rfl
@[simp] theorem enter_er4 (e : Eg) (st : EgState) (a b : ℚ) : (e.enter st a b).er4 = e.er4 := rfl
@[simp] theorem enter_el1 (e : Eg) (st : EgState) (a b : ℚ) : (e.enter st a b).el1 = e.el1 := rfl
@[simp] theorem enter_el2 (e : Eg) (st : EgState) (a b : ℚ) : (e.enter st a b).el2 = e.el2 := rfl
@[simp] theorem enter_el3 (e : Eg) (st : EgState) (a b : ℚ) : (e.enter st a b).el3 = e.el3 := rfl
@[simp] theorem enter_el4 (e : Eg) (st : EgState) (a b : ℚ) : (e.enter st a b).el4 = e.el4 := rfl
@[simp] theorem refresh_st (f : NumFormat) (e : Eg) (r1 r2 r3 r4 l1 l2 l3 l4 : Raw) : (e.refresh f r1 r2 r3 r4 l1 l2 l3 l4).st = e.st := rfl
@[simp] theorem refresh_val (f : NumFormat) (e : Eg) (r1 r2 r3 r4 l1 l2 l3 l4 : Raw) : (e.refresh f r1 r2 r3 r4 l1 l2 l3 l4).val = e.val := rfl
@[simp] theorem refresh_start (f : NumFormat) (e : Eg) (r1 r2 r3 r4 l1 l2 l3 l4 : Raw) : (e.refresh f r1 r2 r3 r4 l1 l2 l3 l4).start = e.start := rfl
@[simp] theorem refresh_target (f : NumFormat) (e : Eg) (r1 r2 r3 r4 l1 l2 l3 l4 : Raw) : (e.refresh f r1 r2 r3 r4 l1 l2 l3 l4).target = e.target := rfl
@[simp] theorem refresh_er1 (f : NumFormat) (e : Eg) (r1 r2 r3 r4 l1 l2 l3 l4 : Raw) : (e.refresh f r1 r2 r3 r4 l1 l2 l3 l4).er1 = hundredth f r1 := rfl
@[simp] theorem refresh_er2 (f : NumFormat) (e : Eg) (r1 r2 r3 r4 l1 l2 l3 l4 : Raw) : (e.refresh f r1 r2 r3 r4 l1 l2 l3 l4).er2 = hundredth f r2 := rfl
@[simp] theorem refresh_er3 (f : NumFormat) (e : Eg) (r1 r2 r3 r4 l1 l2 l3 l4 : Raw) : (e.refresh f r1 r2 r3 r4 l1 l2 l3 l4).er3 = hundredth f r3 := rfl
@[simp] theorem refresh_er4 (f : NumFormat) (e : Eg) (r1 r2 r3 r4 l1 l2 l3 l4 : Raw) : (e.refresh f r1 r2 r3 r4 l1 l2 l3 l4).er4 = hundredth f r4 := rfl
@[simp] theorem refresh_el1 (f : NumFormat) (e : Eg) (r1 r2 r3 r4 l1 l2 l3 l4 : Raw) : (e.refresh f r1 r2 r3 r4 l1 l2 l3 l4).el1 = hundredth f l1 := rfl
@[simp] theorem refresh_el2 (f : NumFormat) (e : Eg) (r1 r2 r3 r4 l1 l2 l3 l4 : Raw) : (e.refresh f r1 r2 r3 r4 l1 l2 l3 l4).el2 = hundredth f l2 := rfl
@[simp] theorem refresh_el3 (f : NumFormat) (e : Eg) (r1 r2 r3 r4 l1 l2 l3 l4 : Raw) : (e.refresh f r1 r2 r3 r4 l1 l2 l3 l4).el3 = hundredth f l3 := rfl
@[simp] theorem refresh_el4 (f : NumFormat) (e : Eg) (r1 r2 r3 r4 l1 l2 l3 l4 : Raw) : (e.refresh f r1 r2 r3 r4 l1 l2 l3 l4).el4 = hundredth f l4 := rfl

/-! ## Operators -/

@[simp] theorem store_p (o : Op) (f : Fin 21) (v : Raw) : (o.store f v).p = o.p.set f v := rfl
@[simp] theorem store_phase (o : Op) (f : Fin 21) (v : Raw) : (o.store f v).phase = o.phase := rfl
@[simp] theorem store_baseFreq (o : Op) (f : Fin 21) (v : Raw) : (o.store f v).baseFreq = o.baseFreq := rfl
@[simp] theorem store_vel (o : Op) (f : Fin 21) (v : Raw) : (o.store f v).vel = o.vel := rfl
@[simp] theorem store_note (o : Op) (f : Fin 21) (v : Raw) : (o.store f v).note = o.note := rfl
@[simp] theorem store_eg (o : Op) (f : Fin 21) (v : Raw) : (o.store f v).eg = o.eg := rfl
@[simp] theorem calcFreq_p (f : NumFormat) (o : Op) (n : Nat) : (o.calcFreq f n).p = o.p := rfl
@[simp] theorem calcFreq_phase (f : NumFormat) (o : Op) (n : Nat) : (o.calcFreq f n).phase = o.phase := rfl
@[simp] theorem calcFreq_baseFreq (f : NumFormat) (o : Op) (n : Nat) : (o.calcFreq f n).baseFreq = o.freq f n := rfl
@[simp] theorem calcFreq_vel (f : NumFormat) (o : Op) (n : Nat) : (o.calcFreq f n).vel = o.vel := rfl
@[simp] theorem calcFreq_note (f : NumFormat) (o : Op) (n : Nat) : (o.calcFreq f n).note = o.note := rfl
@[simp] theorem calcFreq_eg (f : NumFormat) (o : Op) (n : Nat) : (o.calcFreq f n).eg = o.eg := rfl
@[simp] theorem refreshEg_p (f : NumFormat) (o : Op) : (o.refreshEg f).p = o.p := rfl
@[simp] theorem refreshEg_phase (f : NumFormat) (o : Op) : (o.refreshEg f).phase = o.phase := rfl
@[simp] theorem refreshEg_baseFreq (f : NumFormat) (o : Op) : (o.refreshEg f).baseFreq = o.baseFreq := rfl
@[simp] theorem refreshEg_vel (f : NumFormat) (o : Op) : (o.refreshEg f).vel = o.vel := rfl
@[simp] theorem refreshEg_note (f : NumFormat) (o : Op) : (o.refreshEg f).note = o.note := rfl
@[simp] theorem opNoteOn_p (f : NumFormat) (o : Op) (n v : Nat) : (o.noteOn f n v).p = o.p := rfl
@[simp] theorem opNoteOn_phase (f : NumFormat) (o : Op) (n v : Nat) : (o.noteOn f n v).phase = .rat 0 := rfl
@[simp] theorem opNoteOn_baseFreq (f : NumFormat) (o : Op) (n v : Nat) : (o.noteOn f n v).baseFreq = o.freq f n := rfl
@[simp] theorem opNoteOn_vel (f : NumFormat) (o : Op) (n v : Nat) : (o.noteOn f n v).vel = velocityScalar f (o.raw OpField.KVS) v := rfl
@[simp] theorem opNoteOn_note (f : NumFormat) (o : Op) (n v : Nat) : (o.noteOn f n v).note = n := rfl
@[simp] theorem opNoteOn_eg (f : NumFormat) (o : Op) (n v : Nat) : (o.noteOn f n v).eg = o.eg.gateOn := rfl
@[simp] theorem opNoteOff_p (o : Op) (n : Nat) : (o.noteOff n).p = o.p := rfl
@[simp] theorem opNoteOff_phase (o : Op) (n : Nat) : (o.noteOff n).phase = o.phase := rfl
@[simp] theorem opNoteOff_baseFreq (o : Op) (n : Nat) : (o.noteOff n).baseFreq = o.baseFreq := rfl
@[simp] theorem opNoteOff_vel (o : Op) (n : Nat) : (o.noteOff n).vel = o.vel := rfl
@[simp] theorem opNoteOff_note (o : Op) (n : Nat) : (o.noteOff n).note = o.note := rfl
@[simp] theorem opNoteOff_eg (o : Op) (n : Nat) : (o.noteOff n).eg = o.eg.gateOff := rfl
@[simp] theorem opRuntimeReset_p (o : Op) : (o.runtimeReset).p = o.p := rfl
@[simp] theorem opRuntimeReset_phase (o : Op) : (o.runtimeReset).phase = .rat 0 := rfl
@[simp] theorem opRuntimeReset_baseFreq (o : Op) : (o.runtimeReset).baseFreq = .rat 0 := rfl
@[simp] theorem opRuntimeReset_vel (o : Op) : (o.runtimeReset).vel = 0 := rfl
@[simp] theorem opRuntimeReset_note (o : Op) : (o.runtimeReset).note = 0 := rfl
@[simp] theorem opRuntimeReset_eg (o : Op) : (o.runtimeReset).eg = Eg.initial := rfl
@[simp] theorem opTick_p (f : NumFormat) (o : Op) (n : Nat) (m : Num) (x a : ℚ) : (o.tick f n m x a).1.p = o.p := rfl
@[simp] theorem opTick_baseFreq (f : NumFormat) (o : Op) (n : Nat) (m : Num) (x a : ℚ) : (o.tick f n m x a).1.baseFreq = o.baseFreq := rfl
@[simp] theorem opTick_vel (f : NumFormat) (o : Op) (n : Nat) (m : Num) (x a : ℚ) : (o.tick f n m x a).1.vel = o.vel := rfl
@[simp] theorem opTick_note (f : NumFormat) (o : Op) (n : Nat) (m : Num) (x a : ℚ) : (o.tick f n m x a).1.note = o.note := rfl
@[simp] theorem opTick_eg (f : NumFormat) (o : Op) (n : Nat) (m : Num) (x a : ℚ) : (o.tick f n m x a).1.eg = (o.refreshEg f).eg.step f n := rfl

/-! ## The register files -/

@[simp] theorem modifyOp_fs (r : Regs) (k : Fin 6) (f : Op → Op) : (modifyOp r k f).fs = r.fs := rfl
@[simp] theorem modifyOp_op (r : Regs) (k : Fin 6) (f : Op → Op) : (modifyOp r k f).op = r.op.set k (f r.op[k]) := rfl
@[simp] theorem modifyOp_pv (r : Regs) (k : Fin 6) (f : Op → Op) : (modifyOp r k f).pv = r.pv := rfl
@[simp] theorem modifyOp_peg (r : Regs) (k : Fin 6) (f : Op → Op) : (modifyOp r k f).peg = r.peg := rfl
@[simp] theorem modifyOp_prev (r : Regs) (k : Fin 6) (f : Op → Op) : (modifyOp r k f).prev = r.prev := rfl
@[simp] theorem modifyOp_fb (r : Regs) (k : Fin 6) (f : Op → Op) : (modifyOp r k f).fb = r.fb := rfl
@[simp] theorem voiceNoteOn_fs (c : Config) (n v : Nat) (r : Regs) : (voiceNoteOn c n v r).fs = r.fs := rfl
@[simp] theorem voiceNoteOn_op (c : Config) (n v : Nat) (r : Regs) : (voiceNoteOn c n v r).op = r.op.map (Op.noteOn c.num n v) := rfl
@[simp] theorem voiceNoteOn_pv (c : Config) (n v : Nat) (r : Regs) : (voiceNoteOn c n v r).pv = r.pv := rfl
@[simp] theorem voiceNoteOn_prev (c : Config) (n v : Nat) (r : Regs) : (voiceNoteOn c n v r).prev = r.prev := rfl
@[simp] theorem voiceNoteOn_fb (c : Config) (n v : Nat) (r : Regs) : (voiceNoteOn c n v r).fb = r.fb := rfl
@[simp] theorem voiceNoteOff_fs (c : Config) (n : Nat) (r : Regs) : (voiceNoteOff c n r).fs = r.fs := rfl
@[simp] theorem voiceNoteOff_op (c : Config) (n : Nat) (r : Regs) : (voiceNoteOff c n r).op = r.op.map (Op.noteOff n) := rfl
@[simp] theorem voiceNoteOff_pv (c : Config) (n : Nat) (r : Regs) : (voiceNoteOff c n r).pv = r.pv := rfl
@[simp] theorem voiceNoteOff_prev (c : Config) (n : Nat) (r : Regs) : (voiceNoteOff c n r).prev = r.prev := rfl
@[simp] theorem voiceNoteOff_fb (c : Config) (n : Nat) (r : Regs) : (voiceNoteOff c n r).fb = r.fb := rfl
@[simp] theorem tickWith_fs (c : Config) (a : Fin 32) (r : Regs) : ((tickWith c a r).1).fs = r.fs := rfl
@[simp] theorem tickWith_pv (c : Config) (a : Fin 32) (r : Regs) : ((tickWith c a r).1).pv = r.pv := rfl
@[simp] theorem tickWith_peg (c : Config) (a : Fin 32) (r : Regs) : (tickWith c a r).1.peg = (refreshPeg c.num r).step c.num r.fs := rfl

/-- The operator index of a register update reads back what was written there and nothing else. -/
theorem modifyOp_get (r : Regs) (k j : Fin 6) (f : Op → Op) :
    (modifyOp r k f).op[j] = if k = j then f r.op[k] else r.op[j] := by
  simp only [modifyOp_op, Fin.getElem_fin, Vector.getElem_set, Fin.ext_iff]

/-- A parameter write reads back what was written there and nothing else. -/
theorem store_raw (o : Op) (f g : Fin 21) (v : Raw) : (o.store f v).raw g = if f = g then v else o.raw g := by
  simp only [Op.raw, store_p, Fin.getElem_fin, Vector.getElem_set, Fin.ext_iff]

@[simp] theorem six_get {α : Type} (f : Fin 6 → α) (k : Fin 6) : (six f)[k] = f k := by
  fin_cases k <;> rfl

@[simp] theorem map_get {α β : Type} (f : α → β) (v : Vector α 6) (k : Fin 6) : (v.map f)[k] = f v[k] := by
  simp

@[simp] theorem zeroParams_raw (o : Op) (f : Fin 21) :
    ({ o with p := Vector.replicate 21 0 } : Op).raw f = 0 := by
  simp [Op.raw]

end Sys2Proof.Machine
end

