-- ==== Sys2Proof/Laws/Memory.lean ====
section
/-! SUPPORT. The laws of BANK: read after write, the canonical form, and what the byte search finds. -/

namespace Sys2Proof.Machine

theorem read_cons (c : Host.Cell) (m : Memory) (a : Nat) :
    Memory.read (c :: m) a = if c.1 = a then c.2 else Memory.read m a := rfl

/-- An address below every listed one is unlisted. -/
theorem read_of_lt {m : Memory} {a : Nat} (h : ∀ c ∈ m, a < c.1) : m.read a = unlistedByte := by
  induction m with
  | nil => rfl
  | cons c m ih =>
    have hc := h c (by simp)
    rw [read_cons, if_neg (by omega)]
    exact ih fun d hd => h d (by simp [hd])

/-- The byte a listed cell holds, in a memory in canonical form. -/
theorem read_of_mem {m : Memory} (h : m.wf) {c : Host.Cell} (hc : c ∈ m) : m.read c.1 = c.2 := by
  induction m with
  | nil => simp at hc
  | cons d m ih =>
    obtain ⟨hp, hz⟩ := h
    rw [List.pairwise_cons] at hp
    rcases List.mem_cons.1 hc with rfl | hm
    · simp [read_cons]
    · have := hp.1 c hm
      rw [read_cons, if_neg (by omega)]
      exact ih ⟨hp.2, fun e he => hz e (by simp [he])⟩ hm

/-- A byte other than the unlisted one is listed. -/
theorem mem_of_read {m : Memory} {a : Nat} (h : m.read a ≠ unlistedByte) : (a, m.read a) ∈ m := by
  induction m with
  | nil => exact absurd rfl h
  | cons c m ih =>
    by_cases hca : c.1 = a
    · subst hca; simp [read_cons]
    · rw [read_cons, if_neg hca] at h ⊢
      exact List.mem_cons_of_mem _ (ih h)

theorem mem_write {m : Memory} {a : Nat} {b : Byte} {c : Host.Cell} (h : c ∈ m.write a b) :
    (c ∈ m) ∨ (c = (a, b) ∧ b ≠ unlistedByte) := by
  induction m with
  | nil =>
    by_cases hb : b = unlistedByte <;> simp [Memory.write, hb] at h
    exact .inr ⟨h, hb⟩
  | cons d m ih =>
    simp only [Memory.write] at h
    split at h
    · split at h
      · exact .inl h
      · rcases List.mem_cons.1 h with rfl | h
        · exact .inr ⟨rfl, ‹_›⟩
        · exact .inl h
    · split at h
      · split at h
        · exact .inl (by simp [h])
        · rcases List.mem_cons.1 h with rfl | h
          · exact .inr ⟨rfl, ‹_›⟩
          · exact .inl (by simp [h])
      · rcases List.mem_cons.1 h with rfl | h
        · exact .inl (by simp)
        · rcases ih h with h | h
          · exact .inl (by simp [h])
          · exact .inr h

/-- A write keeps the canonical form. -/
theorem write_wf {m : Memory} (h : m.wf) (a : Nat) (b : Byte) : (m.write a b).wf := by
  refine ⟨?_, fun c hc => ?_⟩
  · induction m with
    | nil => by_cases hb : b = unlistedByte <;> simp [Memory.write, hb]
    | cons d m ih =>
      obtain ⟨hp, hz⟩ := h
      rw [List.pairwise_cons] at hp
      have ih := ih ⟨hp.2, fun e he => hz e (by simp [he])⟩
      simp only [Memory.write]
      split
      · split
        · exact List.pairwise_cons.2 hp
        · refine List.pairwise_cons.2 ⟨fun e he => ?_, List.pairwise_cons.2 hp⟩
          rcases List.mem_cons.1 he with rfl | he
          · assumption
          · have := hp.1 e he; omega
      · split
        · split
          · exact hp.2
          · exact List.pairwise_cons.2 ⟨fun e he => by have := hp.1 e he; omega, hp.2⟩
        · refine List.pairwise_cons.2 ⟨fun e he => ?_, ih⟩
          rcases mem_write he with he | ⟨rfl, -⟩
          · exact hp.1 e he
          · show d.1 < a; omega
  · rcases mem_write hc with hc | ⟨rfl, hb⟩
    · exact h.2 c hc
    · exact hb

/-- What a write makes every address read as: the byte written there, and nothing else changed. -/
theorem read_write {m : Memory} (h : m.wf) (a x : Nat) (b : Byte) :
    (m.write a b).read x = if x = a then b else m.read x := by
  induction m with
  | nil =>
    by_cases hb : b = unlistedByte
    · by_cases hx : x = a <;> simp [Memory.write, hb, hx, Memory.read]
    · by_cases hx : x = a
      · simp [Memory.write, hb, hx, Memory.read]
      · simp [Memory.write, hb, hx, Memory.read, Ne.symm hx]
  | cons d m ih =>
    obtain ⟨hp, hz⟩ := h
    rw [List.pairwise_cons] at hp
    have ih := ih ⟨hp.2, fun e he => hz e (by simp [he])⟩
    have hlt : ∀ y, y ≤ d.1 → Memory.read m y = unlistedByte := fun y hy =>
      read_of_lt fun c hc => by have := hp.1 c hc; omega
    simp only [Memory.write]
    split
    · next hlo =>
      split
      · next hb =>
        split
        · next hx => subst hx; rw [read_cons, if_neg (by omega), hlt x (by omega), hb]
        · rfl
      · rw [read_cons]
        by_cases hx : x = a
        · simp [hx]
        · rw [if_neg (by simpa [eq_comm] using hx), if_neg hx]
    · next hlo =>
      split
      · next heq =>
        split
        · next hb =>
          by_cases hx : x = a
          · rw [if_pos hx, hlt x (by omega), hb]
          · rw [if_neg hx, read_cons, if_neg (by omega)]
        · rw [read_cons, read_cons]
          by_cases hx : x = a
          · simp [hx]
          · rw [if_neg (by simpa [eq_comm] using hx), if_neg hx, if_neg (by omega)]
      · next hne =>
        rw [read_cons, read_cons, ih]
        by_cases hx : x = a
        · rw [if_pos hx, if_pos hx, if_neg (by omega)]
        · rw [if_neg hx, if_neg hx]

/-- A run of writes keeps the canonical form. -/
theorem writeBytes_wf {m : Memory} (h : m.wf) (a : Nat) (bs : List Byte) : (m.writeBytes a bs).wf := by
  induction bs generalizing m a with
  | nil => exact h
  | cons b bs ih => exact ih (write_wf h a b) (a + 1)

/-- The search answers an address only if it is the least one in range that holds the byte. -/
theorem findByte_some {m : Memory} (h : m.wf) {b : Byte} (hb : b ≠ unlistedByte) {lo hi a : Nat}
    (hf : m.findByte b lo hi = some a) :
    lo ≤ a ∧ a < hi ∧ m.read a = b ∧ ∀ x, lo ≤ x → x < a → m.read x ≠ b := by
  induction m with
  | nil => simp [Memory.findByte] at hf
  | cons c m ih =>
    obtain ⟨hp, hz⟩ := h
    have hw : Memory.wf m := ⟨(List.pairwise_cons.1 hp).2, fun e he => hz e (by simp [he])⟩
    have hlt := (List.pairwise_cons.1 hp).1
    simp only [Memory.findByte, List.find?_cons] at hf
    by_cases hc : lo ≤ c.1 ∧ c.1 < hi ∧ c.2 = b
    · simp only [hc, decide_true, Bool.and_self, Option.map_some, Option.some.injEq] at hf
      subst hf
      refine ⟨hc.1, hc.2.1, by simp [read_cons, hc.2.2], fun x hx hxa => ?_⟩
      rw [read_cons, if_neg (by omega), read_of_lt fun d hd => by have := hlt d hd; omega]
      exact fun h => hb h.symm
    · rw [show (decide (lo ≤ c.1) && decide (c.1 < hi) && decide (c.2 = b)) = false by
        simpa [Bool.and_eq_true, and_assoc, not_and] using hc] at hf
      obtain ⟨h1, h2, h3, h4⟩ := ih hw (by simpa [Memory.findByte] using hf)
      have hca : c.1 < a := by
        by_contra hle
        refine hb ?_
        rw [← h3]
        exact read_of_lt fun d hd => by have := hlt d hd; omega
      refine ⟨h1, h2, by rw [read_cons, if_neg (by omega), h3], fun x hx hxa => ?_⟩
      rw [read_cons]
      split
      · next hcx =>
        intro hcb
        exact hc ⟨by omega, by omega, hcb⟩
      · exact h4 x hx hxa

/-- The search answers nothing only if no address in range holds the byte. -/
theorem findByte_none {m : Memory} {b : Byte} (hb : b ≠ unlistedByte) {lo hi : Nat}
    (hf : m.findByte b lo hi = none) (x : Nat) (hlo : lo ≤ x) (hhi : x < hi) : m.read x ≠ b := by
  intro hx
  have hm : (x, m.read x) ∈ m := mem_of_read (by rw [hx]; exact hb)
  rw [Memory.findByte, Option.map_eq_none_iff, List.find?_eq_none] at hf
  exact hf _ hm (by simp [hlo, hhi, hx])

/-- The least address in range that holds the byte is what the search answers. -/
theorem findByte_eq {m : Memory} (h : m.wf) {b : Byte} (hb : b ≠ unlistedByte) {lo hi a : Nat} (h1 : lo ≤ a)
    (h2 : a < hi) (h3 : m.read a = b) (h4 : ∀ x, lo ≤ x → x < a → m.read x ≠ b) : m.findByte b lo hi = some a := by
  cases hf : m.findByte b lo hi with
  | none => exact absurd h3 (findByte_none hb hf a h1 h2)
  | some a' =>
    obtain ⟨g1, -, g3, g4⟩ := findByte_some h hb hf
    rcases Nat.lt_trichotomy a a' with hl | rfl | hl
    · exact absurd h3 (g4 a h1 hl)
    · rfl
    · exact absurd g3 (h4 a' g1 hl)

end Sys2Proof.Machine
end

