-- ==== Sys2Proof/Laws/Numeric.lean ====
section
/-! SUPPORT. The numeric primitives: rounding commutes with the embedding of the rationals in the reals and keeps what a
format holds, the value of each operation on Num, and the range of `fmod1`. -/

namespace Sys2Proof

/-! ## Rounding -/

@[simp] theorem roundTo_exact {α : Type} [Field α] [LinearOrder α] [FloorRing α] (x : α) :
    NumFormat.exact.roundTo x = x := rfl

@[simp] theorem roundTo_zero {α : Type} [Field α] [LinearOrder α] [FloorRing α] (f : NumFormat) :
    f.roundTo (0 : α) = 0 := by
  cases f <;> simp [NumFormat.roundTo]

@[simp] theorem roundReal_exact (x : ℝ) : NumFormat.exact.roundReal x = x := rfl
@[simp] theorem roundReal_zero (f : NumFormat) : f.roundReal 0 = 0 := roundTo_zero f
@[simp] theorem q_exact (x : ℚ) : NumFormat.exact.q x = x := rfl
@[simp] theorem q_zero (f : NumFormat) : f.q 0 = 0 := roundTo_zero f
@[simp] theorem qadd_exact (a b : ℚ) : NumFormat.exact.qadd a b = a + b := rfl
@[simp] theorem qsub_exact (a b : ℚ) : NumFormat.exact.qsub a b = a - b := rfl
@[simp] theorem qmul_exact (a b : ℚ) : NumFormat.exact.qmul a b = a * b := rfl
@[simp] theorem qdiv_exact (a b : ℚ) : NumFormat.exact.qdiv a b = a / b := rfl

theorem floorLog2_cast (x : ℚ) : floorLog2 (x : ℝ) = floorLog2 x := by
  unfold floorLog2
  have h1 : (1 ≤ (x : ℝ)) ↔ 1 ≤ x := by exact_mod_cast Iff.rfl
  have h2 : ⌈((x : ℝ))⁻¹⌉ = ⌈x⁻¹⌉ := by rw [← Rat.cast_inv, Rat.ceil_cast]
  simp only [h1, h2, Rat.floor_cast]

theorem toInt_cast (m : Rounding) (y : ℚ) : m.toInt (y : ℝ) = m.toInt y := by
  have hd : ((y : ℝ) - (⌊y⌋ : ℝ)) = ((y - (⌊y⌋ : ℚ) : ℚ) : ℝ) := by push_cast; rfl
  have h1 : (((y - (⌊y⌋ : ℚ) : ℚ) : ℝ) < 1 / 2) ↔ y - (⌊y⌋ : ℚ) < 1 / 2 := by
    rw [show (1 / 2 : ℝ) = ((1 / 2 : ℚ) : ℝ) by push_cast; rfl, Rat.cast_lt]
  have h2 : ((1 / 2 : ℝ) < ((y - (⌊y⌋ : ℚ) : ℚ) : ℝ)) ↔ 1 / 2 < y - (⌊y⌋ : ℚ) := by
    rw [show (1 / 2 : ℝ) = ((1 / 2 : ℚ) : ℝ) by push_cast; rfl, Rat.cast_lt]
  have h3 : (0 ≤ (y : ℝ)) ↔ 0 ≤ y := by exact_mod_cast Iff.rfl
  cases m <;> simp only [Rounding.toInt, Rat.floor_cast, Rat.ceil_cast, hd, h1, h2, h3]

theorem unitExp_cast (p : Nat) (e : Int) (x : ℚ) : unitExp p e (x : ℝ) = unitExp p e x := by
  unfold unitExp; rw [← Rat.cast_abs, floorLog2_cast]

/-- A rational number rounds to the same value among the rationals and among the reals. -/
theorem roundTo_cast (f : NumFormat) (x : ℚ) : f.roundReal (x : ℝ) = ((f.roundTo x : ℚ) : ℝ) := by
  unfold NumFormat.roundReal
  cases f with
  | exact => rfl
  | finite p emin emax m =>
    have h0 : ((x : ℝ) = 0) ↔ x = 0 := by exact_mod_cast Iff.rfl
    have hp : (0 < (x : ℝ)) ↔ 0 < x := by exact_mod_cast Iff.rfl
    have hr : (m.toInt ((x : ℝ) / 2 ^ unitExp p emin (x : ℝ)) : ℝ) * 2 ^ unitExp p emin (x : ℝ) =
        (((m.toInt (x / 2 ^ unitExp p emin x) : ℚ) * 2 ^ unitExp p emin x : ℚ) : ℝ) := by
      rw [unitExp_cast, show ((x : ℝ) / 2 ^ unitExp p emin x) = ((x / 2 ^ unitExp p emin x : ℚ) : ℝ) by push_cast; rfl,
        toInt_cast]
      push_cast; rfl
    have hb : ∀ y : ℚ, ((2 : ℝ) ^ (emax + 1) ≤ |(y : ℝ)|) ↔ (2 : ℚ) ^ (emax + 1) ≤ |y| := fun y => by
      rw [show (2 : ℝ) ^ (emax + 1) = ((2 ^ (emax + 1) : ℚ) : ℝ) by push_cast; rfl, ← Rat.cast_abs, Rat.cast_le]
    simp only [NumFormat.roundTo, h0, hr, hb, hp]
    split
    · simp
    · split
      · simp
      · rfl

theorem q_cast (f : NumFormat) (x : ℚ) : ((f.q x : ℚ) : ℝ) = f.roundReal (x : ℝ) := (roundTo_cast f x).symm

/-! ## What a finite format keeps -/

/-- `floorLog2` is the integer part of the binary logarithm. -/
theorem floorLog2_spec {α : Type} [Field α] [LinearOrder α] [IsStrictOrderedRing α] [FloorRing α] {x : α}
    (hx : 0 < x) : (2 : α) ^ floorLog2 x ≤ x ∧ x < (2 : α) ^ (floorLog2 x + 1) := by
  unfold floorLog2
  split
  · next h1 =>
    have hf : 1 ≤ ⌊x⌋ := Int.le_floor.2 (by exact_mod_cast h1)
    have hc : ((⌊x⌋.toNat : Nat) : α) = (⌊x⌋ : α) := by
      exact_mod_cast congrArg (Int.cast (R := α)) (Int.toNat_of_nonneg (by omega : 0 ≤ ⌊x⌋))
    have hn : ⌊x⌋.toNat ≠ 0 := by omega
    have lo := Nat.log2_self_le hn
    have hi : ⌊x⌋.toNat + 1 ≤ 2 ^ (Nat.log2 ⌊x⌋.toNat + 1) := Nat.lt_log2_self
    constructor
    · rw [zpow_natCast]
      refine le_trans ?_ (Int.floor_le x)
      rw [← hc]; exact_mod_cast lo
    · refine lt_of_lt_of_le (Int.lt_floor_add_one x) ?_
      rw [← hc, show ((Nat.log2 ⌊x⌋.toNat : Int) + 1) = ((Nat.log2 ⌊x⌋.toNat + 1 : Nat) : Int) by push_cast; rfl,
        zpow_natCast]
      exact_mod_cast hi
  · next h1 =>
    rw [not_le] at h1
    have hinv : 1 < x⁻¹ := (one_lt_inv₀ hx).2 h1
    have hcl : 2 ≤ ⌈x⁻¹⌉ := by
      have : 1 < ⌈x⁻¹⌉ := Int.lt_ceil.2 (by exact_mod_cast hinv)
      omega
    set m := ⌈x⁻¹⌉.toNat - 1 with hm
    have hmz : (m : Int) = ⌈x⁻¹⌉ - 1 := by omega
    have hmc : (m : α) = (⌈x⁻¹⌉ : α) - 1 := by
      have := congrArg (Int.cast (R := α)) hmz
      push_cast at this; exact this
    have hm0 : m ≠ 0 := by omega
    have lo := Nat.log2_self_le hm0
    have hi : m + 1 ≤ 2 ^ (Nat.log2 m + 1) := Nat.lt_log2_self
    have c1 := Int.le_ceil x⁻¹
    have c2 := Int.ceil_lt_add_one x⁻¹
    constructor
    · rw [zpow_neg, show ((Nat.log2 m : Int) + 1) = ((Nat.log2 m + 1 : Nat) : Int) by push_cast; rfl, zpow_natCast,
        inv_le_comm₀ (by positivity) hx]
      refine le_trans c1 ?_
      have : ((m + 1 : Nat) : α) ≤ ((2 ^ (Nat.log2 m + 1) : Nat) : α) := by exact_mod_cast hi
      push_cast at this; linarith
    · rw [show -((Nat.log2 m : Int) + 1) + 1 = -(Nat.log2 m : Int) by ring, zpow_neg, zpow_natCast,
        lt_inv_comm₀ hx (by positivity)]
      have : ((2 ^ Nat.log2 m : Nat) : α) ≤ (m : α) := by exact_mod_cast lo
      push_cast at this; linarith

/-- Every direction of rounding keeps an integer. -/
theorem toInt_intCast {α : Type} [Field α] [LinearOrder α] [IsStrictOrderedRing α] [FloorRing α] (m : Rounding)
    (n : Int) : m.toInt (n : α) = n := by
  have h : (0 : α) < 1 / 2 := by norm_num
  cases m <;> simp [Rounding.toInt]

/-- A format keeps every number it holds. -/
theorem roundReal_of_holds {f : NumFormat} {y : ℝ} (h : f.holds y) : f.roundReal y = y := by
  cases f with
  | exact => rfl
  | finite p emin emax m =>
    obtain ⟨hmax, n, k, hk, hn, rfl⟩ := h
    unfold NumFormat.roundReal NumFormat.roundTo
    dsimp only
    split
    · next h0 => exact h0.symm
    · next h0 =>
      have hpos : 0 < |(n : ℝ) * 2 ^ k| := abs_pos.2 h0
      have hlt : |(n : ℝ) * 2 ^ k| < 2 ^ ((p : Int) + k) := by
        rw [abs_mul, abs_of_pos (by positivity : (0:ℝ) < 2 ^ k), zpow_add₀ (by norm_num), zpow_natCast]
        have : |(n : ℝ)| < 2 ^ p := by exact_mod_cast hn
        exact mul_lt_mul_of_pos_right this (by positivity)
      have hlog : floorLog2 |(n : ℝ) * 2 ^ k| < p + k :=
        (zpow_lt_zpow_iff_right₀ (by norm_num : (1:ℝ) < 2)).1 (lt_of_le_of_lt (floorLog2_spec hpos).1 hlt)
      have hq : unitExp p emin ((n : ℝ) * 2 ^ k) ≤ k := by unfold unitExp; omega
      set q := unitExp p emin ((n : ℝ) * 2 ^ k)
      have hdiv : (n : ℝ) * 2 ^ k / 2 ^ q = ((n * 2 ^ (k - q).toNat : Int) : ℝ) := by
        push_cast
        rw [← zpow_natCast, Int.toNat_of_nonneg (by omega), mul_div_assoc, ← zpow_sub₀ (by norm_num)]
      have hr : (m.toInt ((n : ℝ) * 2 ^ k / 2 ^ q) : ℝ) * 2 ^ q = (n : ℝ) * 2 ^ k := by
        rw [hdiv, toInt_intCast, ← hdiv, div_mul_cancel₀ _ (by positivity)]
      rw [hr, if_neg (not_le.2 hmax)]

/-- The same among the rationals. -/
theorem q_of_holds {f : NumFormat} {x : ℚ} (h : f.holds x) : f.q x = x := by
  have := q_cast f x
  rw [roundReal_of_holds h] at this
  exact_mod_cast this

/-- What a format holds it holds with either sign. -/
theorem holds_neg {f : NumFormat} {y : ℝ} (h : f.holds y) : f.holds (-y) := by
  cases f with
  | exact => trivial
  | finite p emin emax m =>
    obtain ⟨hmax, n, k, hk, hn, rfl⟩ := h
    exact ⟨by rwa [abs_neg], -n, k, hk, by rwa [abs_neg], by push_cast; ring⟩

/-- `ample` says exactly that a format holds 1 and 512. -/
theorem ample_iff {f : NumFormat} : Machine.ample f = true ↔ f.holds 1 ∧ f.holds 512 := by
  cases f with
  | exact => exact ⟨fun _ => ⟨trivial, trivial⟩, fun _ => rfl⟩
  | finite p emin emax m =>
    have h512 : (512 : ℝ) < 2 ^ (emax + 1) ↔ 9 ≤ emax := by
      rw [show (512 : ℝ) = 2 ^ (9 : Int) by norm_num, zpow_lt_zpow_iff_right₀ (by norm_num), Int.lt_add_one_iff]
    simp only [Machine.ample, Bool.and_eq_true, decide_eq_true_eq, NumFormat.holds, abs_one, Nat.abs_ofNat, h512]
    constructor
    · rintro ⟨⟨hp, hmin⟩, hmax⟩
      have h1 : (1 : Int) < 2 ^ p := one_lt_pow₀ (by norm_num) (by omega)
      refine ⟨⟨?_, 1, 0, hmin, by simpa using h1, by norm_num⟩, hmax, 1, 9, by omega, by simpa using h1, by norm_num⟩
      exact lt_trans (by norm_num) (h512.2 hmax)
    · rintro ⟨⟨-, n, q, hq, hn, h1⟩, hmax, -⟩
      have hn1 : (1 : ℝ) ≤ n := by
        have : (0 : ℝ) < n := pos_of_mul_pos_left (by rw [← h1]; norm_num) (by positivity : (0 : ℝ) ≤ 2 ^ q)
        exact_mod_cast this
      refine ⟨⟨?_, ?_⟩, hmax⟩
      · rcases p with _ | p
        · have h2 : 1 ≤ n := by exact_mod_cast hn1
          have h3 : |n| < 1 := hn
          have := le_abs_self n
          omega
        · omega
      · by_contra hc
        have : (1 : ℝ) < 2 ^ q := one_lt_zpow₀ (by norm_num) (by omega)
        nlinarith

/-! ## The value of each operation on Num -/

namespace Num

variable (F : Functions)

@[simp] theorem val_rat (q : ℚ) : (Num.rat q).val F = q := by simp [val]
@[simp] theorem val_exp2Of (x : ℚ) : (Num.exp2Of x).val F = F.exp2 x := by simp [val]
@[simp] theorem val_powOf (b e : ℚ) : (Num.powOf b e).val F = F.pow b e := by simp [val]
@[simp] theorem val_sineOf (i : Nat) : (Num.sineOf i).val F = F.sin (2 * Real.pi * i / 512) := by simp [val]
@[simp] theorem val_sum (x y : Num) : (Num.sum x y).val F = x.val F + y.val F := by simp [val]
@[simp] theorem val_diff (x y : Num) : (Num.diff x y).val F = x.val F - y.val F := by simp [val]
@[simp] theorem val_prod (x y : Num) : (Num.prod x y).val F = x.val F * y.val F := by simp [val]
@[simp] theorem val_quot (x y : Num) : (Num.quot x y).val F = x.val F / y.val F := by simp [val]
@[simp] theorem val_fractOf (f : NumFormat) (x : Num) :
    (Num.fractOf f x).val F = f.roundReal (x.val F - (⌊x.val F⌋ : ℝ)) := by simp [val]
@[simp] theorem val_oscOf (f : NumFormat) (x : Num) : (Num.oscOf f x).val F = F.osc f (x.val F) := by simp [val]
@[simp] theorem val_rounded (f : NumFormat) (x : Num) : (Num.rounded f x).val F = f.roundReal (x.val F) := by
  simp [val]

/-- The value of a sum does not depend on how it is held. -/
@[simp] theorem val_add (x y : Num) : (x.add y).val F = x.val F + y.val F := by
  unfold add; split <;> (try split) <;> simp_all

@[simp] theorem val_sub (x y : Num) : (x.sub y).val F = x.val F - y.val F := by
  unfold sub; split <;> simp

@[simp] theorem val_mul (x y : Num) : (x.mul y).val F = x.val F * y.val F := by
  unfold mul; split <;> (try split) <;> (try split) <;> simp_all

@[simp] theorem val_div (x y : Num) : (x.div y).val F = x.val F / y.val F := by
  unfold div; split <;> (try split) <;> simp_all

end Num

namespace NumFormat

variable (F : Functions) (f : NumFormat)

/-- Every result is the exact result rounded (00 R7). -/
@[simp] theorem val_round (x : Num) : (f.round x).val F = f.roundReal (x.val F) := by
  unfold round
  split
  · simp
  · split
    · rw [Num.val_rat, q_cast, Num.val_rat]
    · simp

@[simp] theorem val_add (x y : Num) : (f.add x y).val F = f.roundReal (x.val F + y.val F) := by simp [add]
@[simp] theorem val_sub (x y : Num) : (f.sub x y).val F = f.roundReal (x.val F - y.val F) := by simp [sub]
@[simp] theorem val_mul (x y : Num) : (f.mul x y).val F = f.roundReal (x.val F * y.val F) := by simp [mul]
@[simp] theorem val_div (x y : Num) : (f.div x y).val F = f.roundReal (x.val F / y.val F) := by simp [div]

/-- A product with a factor 0 is 0, whatever the other factor is. -/
@[simp] theorem mul_zero_rat (x : Num) : f.mul x (.rat 0) = .rat 0 := by
  cases f <;> cases x <;> simp [mul, Num.mul, round]

@[simp] theorem zero_rat_mul (x : Num) : f.mul (.rat 0) x = .rat 0 := by
  cases f <;> cases x <;> simp [mul, Num.mul, round]

@[simp] theorem add_zero_zero : f.add (.rat 0) (.rat 0) = .rat 0 := by
  cases f <;> simp [add, Num.add, round]

@[simp] theorem zero_div_rat (a : ℚ) : f.div (.rat 0) (.rat a) = .rat 0 := by
  cases f <;> simp [div, Num.div, round]

end NumFormat

/-- The mathematical functions have the properties of 95 section 0. -/
theorem standard_lawful : Functions.standard.Lawful where
  exp2_int n := by simp [Functions.standard]
  exp2_pos x := Real.rpow_pos_of_pos (by norm_num) x
  exp2_add x y := Real.rpow_add (by norm_num) x y
  pow_int b n _ := Real.rpow_intCast b n
  pow_pos b e h := Real.rpow_pos_of_pos h e
  sin_zero := Real.sin_zero
  sin_half_pi := Real.sin_pi_div_two
  sin_pi := Real.sin_pi
  sin_three_half_pi := by
    show Real.sin _ = _
    rw [show 3 * Real.pi / 2 = Real.pi / 2 + Real.pi by ring, Real.sin_add_pi, Real.sin_pi_div_two]
  sin_bounds x := ⟨Real.neg_one_le_sin x, Real.sin_le_one x⟩
  sin_pi_sub := Real.sin_pi_sub
  sin_pi_add x := by show Real.sin _ = _; rw [add_comm, Real.sin_add_pi]; rfl

namespace Machine

/-- `fmod1` (43 R158), its subtraction rounded. -/
@[simp] theorem val_fmod1 (F : Functions) (f : NumFormat) (x : Num) :
    (fmod1 f x).val F = f.roundReal (x.val F - (⌊x.val F⌋ : ℝ)) := by
  unfold fmod1
  split
  · simp only [NumFormat.qsub, Num.val_rat, q_cast, Rat.floor_cast]; push_cast; rfl
  · simp

@[simp] theorem fmod1_zero (f : NumFormat) : fmod1 f (.rat 0) = .rat 0 := by
  simp [fmod1, NumFormat.qsub]

/-- Under the reference semantics `fmod1` is the fractional part: its value is in [0,1) (43 R158). -/
theorem fmod1_range (F : Functions) (x : Num) : 0 ≤ (fmod1 .exact x).val F ∧ (fmod1 .exact x).val F < 1 := by
  rw [val_fmod1]
  exact ⟨Int.fract_nonneg _, Int.fract_lt_one _⟩

/-- The oscillator's table position is in [0, 512) (41 R111). -/
theorem oscPosition_range (phase : ℚ) : 0 ≤ oscPosition .exact phase ∧ oscPosition .exact phase < 512 := by
  simp only [oscPosition, qadd_exact, qmul_exact, qsub_exact, qdiv_exact]
  have h1 := Int.floor_le ((phase * 512 + 512) / 512)
  have h2 := Int.lt_floor_add_one ((phase * 512 + 512) / 512)
  rw [le_div_iff₀ (by norm_num)] at h1
  rw [div_lt_iff₀ (by norm_num)] at h2
  constructor <;> linarith

/-- The oscillator reads an entry of the table, whatever the position (20 R63). -/
theorem tableIndex_lt (n : Int) : tableIndex n < 512 := by unfold tableIndex; omega

/-- The index is congruent to the integer it is reduced from (20 R63). -/
theorem tableIndex_spec (n : Int) : (tableIndex n : Int) = n % 512 := by unfold tableIndex; omega

/-- An integer of the table's range is its own index (41 R111). -/
theorem tableIndex_of_range {n : Int} (h0 : 0 ≤ n) (h1 : n < 512) : (tableIndex n : Int) = n := by
  unfold tableIndex; omega

/-- In an ample format an oscillator at phase 0 is at the table's first entry, 0 (41 R112 (d)). -/
theorem osc_zero {f : NumFormat} (h : ample f = true) : osc f (.rat 0) = .rat 0 := by
  have q512 : f.q 512 = 512 := q_of_holds (by exact_mod_cast (ample_iff.1 h).2)
  have q1 : f.q 1 = 1 := q_of_holds (by exact_mod_cast (ample_iff.1 h).1)
  have hu : oscPosition f 0 = 0 := by
    simp [oscPosition, NumFormat.qadd, NumFormat.qmul, NumFormat.qsub, NumFormat.qdiv, q512, q1]
  have hs : sine f 0 = .rat 0 := by cases f <;> simp [sine, NumFormat.round]
  simp [osc, hu, interpolate, NumFormat.qsub, tableIndex, hs]

end Machine

end Sys2Proof
end

