-- ==== Sys2Proof/Laws/Envelope.lean ====
section
/-! SUPPORT. What each operation of the envelope generator can do, said once. -/

namespace Sys2Proof.Machine

/-- Entering a segment sets the value to its start, so the invariant of 10 R31 holds from the first instant. -/
theorem enter_between (e : Eg) (st : EgState) (a b : ℚ) : (e.enter st a b).between :=
  fun _ => ⟨min_le_left a b, le_max_left a b⟩

theorem between_of_holding {e : Eg} (h : e.st.moving = false) : e.between := fun hm => by simp [h] at hm

/-- GATE_ON enters a segment at its start, or SUSTAIN (42 R123). -/
theorem gateOn_between (e : Eg) : e.gateOn.between := by
  unfold Eg.gateOn
  split
  · exact enter_between _ _ _ _
  · split
    · exact enter_between _ _ _ _
    · split
      · exact enter_between _ _ _ _
      · exact between_of_holding rfl

/-- GATE_OFF does nothing in IDLE, and otherwise enters RELEASE at the current value, or IDLE (42 R124). -/
theorem gateOff_between {e : Eg} (h : e.between) : e.gateOff.between := by
  unfold Eg.gateOff
  split
  · exact h
  · split
    · exact enter_between _ _ _ _
    · exact between_of_holding rfl

/-- A completion keeps the value, and leaves the generator in a holding state or at the start of a segment
(42 R128). -/
theorem finish_spec (e : Eg) (h : e.st.moving = true) : e.finish.val = e.val ∧ e.finish.between := by
  unfold Eg.finish
  cases hst : e.st <;> simp only [hst, EgState.moving, Bool.false_eq_true] at h ⊢
  · split
    · exact ⟨rfl, enter_between _ _ _ _⟩
    · split
      · exact ⟨rfl, enter_between _ _ _ _⟩
      · exact ⟨rfl, between_of_holding rfl⟩
  · split
    · exact ⟨rfl, enter_between _ _ _ _⟩
    · exact ⟨rfl, between_of_holding rfl⟩
  · exact ⟨trivial, between_of_holding rfl⟩
  · exact ⟨trivial, between_of_holding rfl⟩

/-- A completion touches neither the latches nor, when it enters a holding state, the segment registers. -/
theorem finish_latches (e : Eg) :
    e.finish.er1 = e.er1 ∧ e.finish.er2 = e.er2 ∧ e.finish.er3 = e.er3 ∧ e.finish.er4 = e.er4 ∧
      e.finish.el1 = e.el1 ∧ e.finish.el2 = e.el2 ∧ e.finish.el3 = e.el3 ∧ e.finish.el4 = e.el4 := by
  unfold Eg.finish
  cases e.st <;> dsimp only <;> (repeat' split) <;> simp

theorem snap_spec (e : Eg) (h : e.st.moving = true) : e.snap.val = e.target ∧ e.snap.between :=
  finish_spec { e with val := e.target } h

/-- In a moving state a tick completes the segment at its target, or moves the value by one slope (42 R125). -/
theorem advance_cases (f : NumFormat) (fs : Nat) (e : Eg) :
    e.advance f fs = e.snap ∨
      (e.segmentTicks f fs ≠ 0 ∧
        |f.qsub (f.qadd e.val (f.qdiv (f.qsub e.target e.start) (e.segmentTicks f fs))) e.start|
          < |f.qsub e.target e.start| ∧
        e.advance f fs =
          { e with val := f.qadd e.val (f.qdiv (f.qsub e.target e.start) (e.segmentTicks f fs)) }) := by
  unfold Eg.advance
  dsimp only
  split
  · exact .inl rfl
  · next h0 =>
    split
    · exact .inl rfl
    · next h1 => exact .inr ⟨h0, not_le.1 h1, rfl⟩

/-- Under the reference semantics a segment's length is `(1-R)^4 * FS` (42 R125). -/
theorem segmentTicks_exact (fs : Nat) (e : Eg) : e.segmentTicks .exact fs = (1 - e.rate) ^ 4 * (fs : ℚ) := by
  simp only [Eg.segmentTicks, qsub_exact, qmul_exact, q_exact]; ring

/-- Under the reference semantics a segment's length is never negative. -/
theorem segmentTicks_nonneg (fs : Nat) (e : Eg) : 0 ≤ e.segmentTicks .exact fs := by
  rw [segmentTicks_exact]; positivity

/-- A tick in a moving state is an advance; in a holding state it sets the plateau value. -/
theorem step_cases (f : NumFormat) (fs : Nat) (e : Eg) :
    (e.st.moving = true ∧ e.step f fs = e.advance f fs) ∨
      (e.st = .sustain ∧ e.step f fs = { e with val := e.el3 }) ∨
      (e.st = .idle ∧ e.step f fs = { e with val := e.el4 }) := by
  unfold Eg.step
  cases h : e.st <;> simp [EgState.moving]

/-- Under the reference semantics a tick keeps the invariant of 10 R31. -/
theorem step_between (fs : Nat) {e : Eg} (h : e.between) : (e.step .exact fs).between := by
  rcases step_cases .exact fs e with ⟨hm, hs⟩ | ⟨hst, hs⟩ | ⟨hst, hs⟩
  · rw [hs]
    rcases advance_cases .exact fs e with ha | ⟨hn, hlt, ha⟩
    · rw [ha]; exact (snap_spec e hm).2
    · rw [ha]
      simp only [qsub_exact, qadd_exact, qdiv_exact] at hlt ⊢
      have hpos : 0 < e.segmentTicks .exact fs := lt_of_le_of_ne (segmentTicks_nonneg fs e) (Ne.symm hn)
      intro _
      obtain ⟨hlo, hhi⟩ := h hm
      show min e.start e.target ≤ e.val + (e.target - e.start) / e.segmentTicks .exact fs ∧
        e.val + (e.target - e.start) / e.segmentTicks .exact fs ≤ max e.start e.target
      rcases le_total e.start e.target with hle | hle
      · have hd : 0 ≤ (e.target - e.start) / e.segmentTicks .exact fs := div_nonneg (by linarith) hpos.le
        rw [min_eq_left hle] at hlo ⊢
        rw [max_eq_right hle] at hhi ⊢
        rw [abs_of_nonneg (by linarith), abs_of_nonneg (by linarith)] at hlt
        constructor <;> linarith
      · have hd : (e.target - e.start) / e.segmentTicks .exact fs ≤ 0 :=
          div_nonpos_of_nonpos_of_nonneg (by linarith) hpos.le
        rw [min_eq_right hle] at hlo ⊢
        rw [max_eq_left hle] at hhi ⊢
        rw [abs_of_nonpos (by linarith), abs_of_nonpos (by linarith)] at hlt
        constructor <;> linarith
  · rw [hs]; exact between_of_holding (by simp [hst, EgState.moving])
  · rw [hs]; exact between_of_holding (by simp [hst, EgState.moving])

/-- A latch refresh touches the latches alone (42 R121). -/
theorem refresh_between (f : NumFormat) {e : Eg} (h : e.between) (r1 r2 r3 r4 l1 l2 l3 l4 : Raw) :
    (e.refresh f r1 r2 r3 r4 l1 l2 l3 l4).between := h

/-- A refresh of a refreshed generator changes nothing. -/
theorem refresh_refresh (f : NumFormat) (e : Eg) (r1 r2 r3 r4 l1 l2 l3 l4 : Raw) :
    (e.refresh f r1 r2 r3 r4 l1 l2 l3 l4).refresh f r1 r2 r3 r4 l1 l2 l3 l4
      = e.refresh f r1 r2 r3 r4 l1 l2 l3 l4 := rfl

theorem initial_between : Eg.initial.between := between_of_holding rfl

/-- A tick leaves the latches (42 R121, R125). -/
theorem step_latches (f : NumFormat) (fs : Nat) (e : Eg) :
    (e.step f fs).er1 = e.er1 ∧ (e.step f fs).er2 = e.er2 ∧ (e.step f fs).er3 = e.er3 ∧ (e.step f fs).er4 = e.er4 ∧
      (e.step f fs).el1 = e.el1 ∧ (e.step f fs).el2 = e.el2 ∧ (e.step f fs).el3 = e.el3 ∧
      (e.step f fs).el4 = e.el4 := by
  rcases step_cases f fs e with ⟨-, h⟩ | ⟨-, h⟩ | ⟨-, h⟩
  · rw [h]
    rcases advance_cases f fs e with h | ⟨-, -, h⟩
    · rw [h]; exact finish_latches _
    · rw [h]; simp
  · rw [h]; simp
  · rw [h]; simp

end Sys2Proof.Machine
end

