-- ==== Sys2Proof/Laws/Operator.lean ====
section
/-! SUPPORT. What each operation of an operator changes, said once. -/

namespace Sys2Proof.Machine

/-- COARSE of the ratio mode as a real number: its test is on the rounded value (00 R7). -/
theorem coarseRatio_cast (f : NumFormat) (r : Raw) :
    ((coarseRatio f r : ℚ) : ℝ) = if 0 < f.roundReal (r.toInt : ℝ) then f.roundReal (r.toInt : ℝ) else 1 / 2 := by
  have h : ((num f r : ℚ) : ℝ) = f.roundReal (r.toInt : ℝ) := by rw [num, q_cast, Rat.cast_intCast]
  rw [coarseRatio, ← h]
  simp only [Rat.cast_pos]
  split
  · rfl
  · push_cast; rfl

@[simp] theorem refreshEg_raw (n : NumFormat) (o : Op) (f : Fin 21) : (o.refreshEg n).raw f = o.raw f := rfl
@[simp] theorem calcFreq_raw (m : NumFormat) (o : Op) (n : Nat) (f : Fin 21) :
    (o.calcFreq m n).raw f = o.raw f := rfl
@[simp] theorem noteOn_raw (m : NumFormat) (o : Op) (n v : Nat) (f : Fin 21) : (o.noteOn m n v).raw f = o.raw f := rfl
@[simp] theorem noteOff_raw (o : Op) (n : Nat) (f : Fin 21) : (o.noteOff n).raw f = o.raw f := rfl
@[simp] theorem runtimeReset_raw (o : Op) (f : Fin 21) : o.runtimeReset.raw f = o.raw f := rfl
@[simp] theorem tick_raw (q : NumFormat) (o : Op) (n : Nat) (m : Num) (x a : ℚ) (f : Fin 21) :
    (o.tick q n m x a).1.raw f = o.raw f := rfl

/-- A frequency depends on DET, COARSE, MODE and FINE alone (43 R151, R152). -/
theorem freq_congr {o o' : Op} (hd : o.raw OpField.DET = o'.raw OpField.DET)
    (hc : o.raw OpField.COARSE = o'.raw OpField.COARSE) (hm : o.raw OpField.MODE = o'.raw OpField.MODE)
    (hf : o.raw OpField.FINE = o'.raw OpField.FINE) (q : NumFormat) (n : Nat) : o.freq q n = o'.freq q n := by
  simp only [Op.freq, Op.fixedFreq, Op.ratioFreq, Op.fixedBase, Op.fixedExponent, hd, hc, hm, hf]

/-- Whether the frequency has a value depends on DET and MODE alone. -/
theorem freqDefined_congr {o o' : Op} (hd : o.raw OpField.DET = o'.raw OpField.DET)
    (hm : o.raw OpField.MODE = o'.raw OpField.MODE) : o.freqDefined = o'.freqDefined := by
  rw [Op.freqDefined, Op.freqDefined, hd, hm]

/-- The base `10 + (DET - 7)*0.01` is positive exactly when DET is above -993 (43 R152 corner (c)). -/
theorem fixedBase_pos_iff (o : Op) : 0 < o.fixedBase .exact ↔ -993 < (o.raw OpField.DET).toInt := by
  simp only [Op.fixedBase, num, centi, q_exact, qadd_exact, qsub_exact, qmul_exact]
  constructor
  · intro h
    have : (-993 : ℚ) < ((o.raw OpField.DET).toInt : ℚ) := by linarith
    exact_mod_cast this
  · intro h
    have : (-993 : ℚ) < ((o.raw OpField.DET).toInt : ℚ) := by exact_mod_cast h
    linarith

/-- A write of a field that no frequency reads leaves the frequency. -/
theorem store_freq {f : Fin 21} (h : isFreqField f = false) (q : NumFormat) (o : Op) (v : Raw) (n : Nat) :
    (o.store f v).freq q n = o.freq q n := by
  simp only [isFreqField, Bool.or_eq_false_iff, beq_eq_false_iff_ne] at h
  refine freq_congr ?_ ?_ ?_ ?_ q n <;> rw [store_raw, if_neg] <;> tauto

theorem store_freqDefined {f : Fin 21} (h : isFreqField f = false) (o : Op) (v : Raw) :
    (o.store f v).freqDefined = o.freqDefined := by
  simp only [isFreqField, Bool.or_eq_false_iff, beq_eq_false_iff_ne] at h
  refine freqDefined_congr ?_ ?_ <;> rw [store_raw, if_neg] <;> tauto

/-- OP.SETPARAM (43 R153) field by field: the register is stored, BASEFREQ is recomputed with the latched note if the
field is an oscillator-frequency field, the latches follow in the at_write variant, and nothing else changes. -/
theorem setParam_spec (cfg : Config) (f : Fin 21) (v : Raw) (o : Op) :
    (o.setParam cfg f v).p = o.p.set f v ∧ (o.setParam cfg f v).phase = o.phase ∧
      (o.setParam cfg f v).vel = o.vel ∧ (o.setParam cfg f v).note = o.note ∧
      (o.setParam cfg f v).baseFreq = (if isFreqField f then (o.store f v).freq cfg.num o.note else o.baseFreq) ∧
      (o.setParam cfg f v).eg =
        (if cfg.egRefresh = .atWrite ∧ f.val < 8 then ((o.store f v).refreshEg cfg.num).eg else o.eg) := by
  unfold Op.setParam
  by_cases h1 : isFreqField f = true <;> by_cases h2 : cfg.egRefresh = .atWrite ∧ f.val < 8 <;>
    simp only [h1, h2, if_true, if_false, and_self] <;> exact ⟨rfl, rfl, rfl, rfl, rfl, rfl⟩

theorem setParam_raw (cfg : Config) (f g : Fin 21) (v : Raw) (o : Op) :
    (o.setParam cfg f v).raw g = if f = g then v else o.raw g := by
  rw [← store_raw]
  simp only [Op.raw, (setParam_spec cfg f v o).1, store_p]

/-- OP.TICK (43 R154): the phase advances by the increment and a tenth of the modulation, wrapped by `fmod1`. -/
theorem tick_phase (f : NumFormat) (o : Op) (n : Nat) (m : Num) (x a : ℚ) :
    (o.tick f n m x a).1.phase =
      fmod1 f (f.add (f.add o.phase (o.increment f n x)) (f.mul m (.rat (f.q (1 / 10))))) := rfl

/-- OP.TICK (43 R154): the output is the oscillator at the phase before the advance, times the envelope after it, VEL
and OL*0.01. -/
theorem tick_out (f : NumFormat) (o : Op) (n : Nat) (m : Num) (x a : ℚ) :
    (o.tick f n m x a).2 =
      f.mul (f.mul (f.mul (osc f o.phase) (.rat ((o.refreshEg f).eg.step f n).val)) (.rat o.vel))
        (.rat (hundredth f (o.raw OpField.OL))) := rfl

/-- An operator whose output level is 0 is silent, whatever its phase (43 R154 corner (c)). -/
theorem tick_out_of_level_zero (f : NumFormat) {o : Op} (h : o.raw OpField.OL = 0) (n : Nat) (m : Num) (x a : ℚ) :
    (o.tick f n m x a).2 = .rat 0 := by
  have h0 : hundredth f (0 : Raw) = 0 := by
    simp [hundredth, num, NumFormat.qmul]
  rw [tick_out, h, h0, NumFormat.mul_zero_rat]

end Sys2Proof.Machine
end

