-- ==== Sys2Proof/Laws/Voice.lean ====
section
/-! SUPPORT. What each operation of the voice changes, said once. -/

namespace Sys2Proof.Machine

/-- The registers of operator `k` after V.TICK are those OP.TICK leaves (45 R183). -/
theorem tickWith_op (cfg : Config) (a : Fin 32) (r : Regs) (k : Fin 6) :
    (tickWith cfg a r).1.op[k] =
      ((r.op[k]).tick cfg.num r.fs
        (modulation cfg.num cfg.algRom.cells a r.prev r.fb (seventh cfg.num r.pv[VField.FBL]) k)
        ((refreshPeg cfg.num r).step cfg.num r.fs).val 0).1 := by
  show ((tickOps cfg r a _).map (·.1))[k] = _
  rw [map_get, tickOps, six_get]

/-- PREV after V.TICK is the output of this tick (45 R184). -/
theorem tickWith_prev (cfg : Config) (a : Fin 32) (r : Regs) (k : Fin 6) :
    (tickWith cfg a r).1.prev[k] =
      ((r.op[k]).tick cfg.num r.fs
        (modulation cfg.num cfg.algRom.cells a r.prev r.fb (seventh cfg.num r.pv[VField.FBL]) k)
        ((refreshPeg cfg.num r).step cfg.num r.fs).val 0).2 := by
  show ((tickOps cfg r a _).map (·.2))[k] = _
  rw [map_get, tickOps, six_get]

theorem tickWith_fb (cfg : Config) (a : Fin 32) (r : Regs) :
    (tickWith cfg a r).1.fb = mix cfg.num cfg.algRom.cells a 6 (tickWith cfg a r).1.prev := rfl

theorem tickWith_out (cfg : Config) (a : Fin 32) (r : Regs) :
    (tickWith cfg a r).2 = mix cfg.num cfg.algRom.cells a 7 (tickWith cfg a r).1.prev := rfl

/-- V.TICK either is the tick with the clamped entry, or, under ALG_OOR = noop with an index out of range, changes
nothing and returns 0 (44 R174). -/
theorem voiceTick_cases (cfg : Config) (r : Regs) :
    voiceTick cfg r = tickWith cfg (clampAlg r.pv[VField.ALG]) r ∨
      (cfg.algOor = .noop ∧ algInRange r.pv[VField.ALG] = false ∧ voiceTick cfg r = (r, .rat 0)) := by
  unfold voiceTick
  split
  · next h => exact .inr ⟨h.1, h.2, rfl⟩
  · exact .inl rfl

/-- V.TICK writes no parameter register, FS, BASEFREQ, VEL or NOTE (45 R180). -/
theorem voiceTick_keeps (cfg : Config) (r : Regs) :
    (voiceTick cfg r).1.fs = r.fs ∧ (voiceTick cfg r).1.pv = r.pv ∧
      ∀ k : Fin 6, ((voiceTick cfg r).1.op[k]).p = (r.op[k]).p ∧
        ((voiceTick cfg r).1.op[k]).baseFreq = (r.op[k]).baseFreq ∧
        ((voiceTick cfg r).1.op[k]).vel = (r.op[k]).vel ∧ ((voiceTick cfg r).1.op[k]).note = (r.op[k]).note := by
  rcases voiceTick_cases cfg r with h | ⟨-, -, h⟩
  · rw [h]
    exact ⟨rfl, rfl, fun k => by rw [tickWith_op]; exact ⟨rfl, rfl, rfl, rfl⟩⟩
  · rw [h]
    exact ⟨rfl, rfl, fun k => ⟨rfl, rfl, rfl, rfl⟩⟩

/-- V.SETPARAM (45 R187) does one of three things. -/
theorem voiceSetParam_cases (cfg : Config) (i : Nat) (v : Raw) (r : Regs) :
    (i < 126 ∧ voiceSetParam cfg i v r = modifyOp r (opIndex i) (Op.setParam cfg (opFieldIndex i) v)) ∨
      (∃ h : 126 ≤ i ∧ i < 155,
        voiceSetParam cfg i v r =
          { r with
            pv := r.pv.set (i - 126) v (by omega)
            peg := if cfg.egRefresh = .atWrite ∧ i - 126 < 8 then
                refreshPeg cfg.num { r with pv := r.pv.set (i - 126) v (by omega) } else r.peg }) ∨
      (155 ≤ i ∧ voiceSetParam cfg i v r = r) := by
  by_cases h1 : i < 126
  · exact .inl ⟨h1, by simp [voiceSetParam, h1]⟩
  · by_cases h2 : i < 155
    · refine .inr (.inl ⟨⟨by omega, h2⟩, ?_⟩)
      simp only [voiceSetParam, h1, h2, if_false, dite_true]
      split <;> rfl
    · exact .inr (.inr ⟨by omega, by simp [voiceSetParam, h1, h2]⟩)

/-- What V.SETPARAM never touches. -/
theorem voiceSetParam_keeps (cfg : Config) (i : Nat) (v : Raw) (r : Regs) :
    (voiceSetParam cfg i v r).fs = r.fs ∧ (voiceSetParam cfg i v r).prev = r.prev ∧
      (voiceSetParam cfg i v r).fb = r.fb := by
  rcases voiceSetParam_cases cfg i v r with ⟨_, h⟩ | ⟨_, h⟩ | ⟨_, h⟩ <;> simp [h]

/-- RUNTIME_RESET (47 R222) leaves every parameter register and FS, and clears the delay registers. -/
theorem runtimeReset_keeps (cfg : Config) (r : Regs) :
    (runtimeReset cfg r).fs = r.fs ∧ (runtimeReset cfg r).pv = r.pv ∧
      (runtimeReset cfg r).prev = Vector.replicate 6 (.rat 0) ∧ (runtimeReset cfg r).fb = .rat 0 ∧
      (runtimeReset cfg r).peg = (if cfg.egRefresh = .atWrite then refreshPeg cfg.num { r with peg := Eg.initial }
        else Eg.initial) ∧
      ∀ k : Fin 6, (runtimeReset cfg r).op[k] =
        (if cfg.egRefresh = .atWrite then (r.op[k]).runtimeReset.refreshEg cfg.num else (r.op[k]).runtimeReset) := by
  unfold runtimeReset
  by_cases h : cfg.egRefresh = .atWrite
  · rw [if_pos h, if_pos h]
    exact ⟨rfl, rfl, rfl, rfl, rfl, fun k => by rw [map_get, map_get, if_pos h]⟩
  · rw [if_neg h, if_neg h]
    exact ⟨rfl, rfl, rfl, rfl, rfl, fun k => by rw [map_get, if_neg h]⟩

/-! ## The averages of the crossbar -/

/-- The value of a running sum is the running sum of the values, each result rounded. -/
theorem val_foldl_add (F : Functions) (f : NumFormat) :
    ∀ (l : List Num) (z : Num),
      (l.foldl f.add z).val F = l.foldl (fun acc x => f.roundReal (acc + x.val F)) (z.val F)
  | [], _ => rfl
  | x :: l, z => by rw [List.foldl_cons, List.foldl_cons, val_foldl_add F f l, NumFormat.val_add]

/-- The value of an average (45 R180): 0 of none, else the sum divided by the count. -/
theorem val_average (F : Functions) (f : NumFormat) (l : List Num) :
    (average f l).val F =
      if l.length = 0 then 0
      else f.roundReal
        (l.foldl (fun acc x => f.roundReal (acc + x.val F)) 0 / f.roundReal (l.length : ℝ)) := by
  unfold average
  split
  · simp
  · rw [NumFormat.val_div, val_foldl_add, Num.val_rat, Num.val_rat, q_cast, Rat.cast_zero, Rat.cast_natCast]

/-- An average of zeros is 0. -/
theorem average_zero (f : NumFormat) (l : List Num) (h : ∀ x ∈ l, x = .rat 0) : average f l = .rat 0 := by
  have hs : ∀ l : List Num, (∀ x ∈ l, x = .rat 0) → l.foldl f.add (.rat 0) = .rat 0 := by
    intro l
    induction l with
    | nil => intro _; rfl
    | cons a l ih =>
      intro h
      rw [List.foldl_cons, h a (by simp), NumFormat.add_zero_zero]
      exact ih fun x hx => h x (by simp [hx])
  unfold average
  split
  · rfl
  · rw [hs l h, NumFormat.zero_div_rat]

/-- The number of selected operators as a sum over all six. -/
theorem filter_length (p : Fin 6 → Bool) :
    ((List.finRange 6).filter p).length = countOn fun s => p s = true := by
  unfold countOn
  rw [← List.ofFn_id, ← List.sum_ofFn,
    show List.ofFn (fun s : Fin 6 => if p s = true then 1 else 0)
      = (List.ofFn (id : Fin 6 → Fin 6)).map (fun s => if p s = true then 1 else 0) by rw [List.map_ofFn]; rfl]
  generalize List.ofFn (id : Fin 6 → Fin 6) = l
  induction l with
  | nil => rfl
  | cons a l ih => by_cases h : p a = true <;> simp [h, ih]; omega

/-- The running sum over selected operators is the loop of 45 R180. -/
theorem filter_accumulate (r : ℝ → ℝ) (p : Fin 6 → Bool) (x : Fin 6 → ℝ) :
    ((List.finRange 6).filter p).foldl (fun acc s => r (acc + x s)) 0 = accumulate r (fun s => p s = true) x := by
  rw [List.foldl_filter]; rfl

/-- Under the reference semantics the loop of 45 R180 is a sum. -/
theorem accumulate_exact (on : Fin 6 → Prop) [DecidablePred on] (x : Fin 6 → ℝ) :
    accumulate NumFormat.exact.roundReal on x = ∑ s : Fin 6, if on s then x s else 0 := by
  have h : ∀ (l : List (Fin 6)) (z : ℝ),
      l.foldl (fun acc s => if on s then acc + x s else acc) z
        = z + (l.map fun s => if on s then x s else 0).sum := by
    intro l
    induction l with
    | nil => simp
    | cons a l ih => intro z; by_cases ha : on a <;> simp [ha, ih, add_assoc]
  show (List.finRange 6).foldl (fun acc s => if on s then acc + x s else acc) 0 = _
  rw [h, zero_add, ← List.ofFn_id, List.map_ofFn, List.sum_ofFn]
  rfl

/-- The value of an average of step 4 (45 R184). -/
theorem val_mix (F : Functions) (f : NumFormat) (rom : Vector AlgEntry 32) (a : Fin 32) (row : Fin 8)
    (tmp : Vector Num 6) : (mix f rom a row tmp).val F = rowMean f rom a row fun s => (tmp[s]).val F := by
  unfold mix rowMean rowGate sources
  rw [val_average, List.length_map, List.foldl_map, filter_length, filter_accumulate]

/-- A tick whose algorithm index is used is the tick with the clamped entry (44 R174). -/
theorem voiceTick_used {s : State} (h : s.indexUsed) :
    voiceTick s.cfg s.toRegs = tickWith s.cfg (clampAlg s.pv[VField.ALG]) s.toRegs := by
  rcases voiceTick_cases s.cfg s.toRegs with h1 | ⟨h2, h3, -⟩
  · exact h1
  · rcases h with h | h
    · rw [h] at h2; cases h2
    · rw [h] at h3; cases h3

end Sys2Proof.Machine
end

