-- ==== Sys2Proof/Laws/PatchDecoder.lean ====
section
/-! SUPPORT. The patch decode unit: what a run of field writes does, and that no write of a load needs a frequency that
has no value. -/

namespace Sys2Proof.Machine

/-- What every V.SETPARAM keeps, a run of field writes keeps. -/
theorem writeFields_induct {P : Regs → Prop} (cfg : Config) (step : ∀ i v r, P r → P (voiceSetParam cfg i v r)) :
    ∀ (vs : List Raw) (i : Nat) (r : Regs), P r → P (writeFields cfg i vs r)
  | [], _, _, h => h
  | v :: vs, i, r, h => writeFields_induct cfg step vs (i + 1) _ (step i v r h)

/-- What every V.SETPARAM keeps, a load keeps (46 R204: "Every write goes through V.SETPARAM"). -/
theorem loadRecord_induct {P : Regs → Prop} (cfg : Config) (bank : Memory) (base : Nat)
    (step : ∀ i v r, P r → P (voiceSetParam cfg i v r)) (r : Regs) (h : P r) : P (loadRecord cfg bank base r) := by
  unfold loadRecord loadVoiceBlock loadOpBlock
  iterate 7 refine writeFields_induct cfg step _ _ _ ?_
  exact h

/-! ## An operator block -/

/-- A run of OP.SETPARAM writes to one operator, at rising field ordinals. -/
def opWrites (cfg : Config) : Nat → List Raw → Op → Op
  | _, [], o => o
  | f, v :: vs, o => opWrites cfg (f + 1) vs (o.setParam cfg (opFieldIndex f) v)

theorem modifyOp_modifyOp (r : Regs) (k : Fin 6) (f g : Op → Op) :
    modifyOp (modifyOp r k f) k g = modifyOp r k (g ∘ f) := by
  unfold modifyOp; simp

/-- The flat indices of record ordinal `o` name operator `o` (00 R12: "record ordinal equals internal index"). -/
theorem opIndex_block {o f : Nat} (ho : o < 6) (hf : f < 21) :
    opIndex ((5 - o) * 21 + f) = ⟨o, ho⟩ ∧ opFieldIndex ((5 - o) * 21 + f) = ⟨f, hf⟩ := by
  simp only [opIndex, opFieldIndex, Fin.ext_iff]
  constructor <;> omega

/-- The writes of an operator block are writes to that one operator (46 R204). -/
theorem writeFields_op (cfg : Config) {o : Nat} (ho : o < 6) :
    ∀ (vs : List Raw) (f : Nat) (r : Regs), f + vs.length ≤ 21 →
      writeFields cfg ((5 - o) * 21 + f) vs r = modifyOp r ⟨o, ho⟩ (opWrites cfg f vs)
  | [], f, r, _ => by
    simp [writeFields, opWrites, modifyOp]
  | v :: vs, f, r, h => by
    have hf : f < 21 := by simp at h; omega
    have hlt : (5 - o) * 21 + f < 126 := by omega
    rw [writeFields, Nat.add_assoc, writeFields_op cfg ho vs (f + 1) _ (by simp at h; omega)]
    rw [voiceSetParam, if_pos hlt, (opIndex_block ho hf).1, (opIndex_block ho hf).2, modifyOp_modifyOp]
    have : opFieldIndex f = ⟨f, hf⟩ := Fin.ext (Nat.mod_eq_of_lt hf)
    congr 1
    funext x
    rw [Function.comp, opWrites, this]

/-- An operator block changes its operator alone. -/
theorem loadOpBlock_eq (cfg : Config) (bank : Memory) (base : Nat) {o : Nat} (ho : o < 6) (r : Regs) :
    loadOpBlock cfg bank base o r =
      modifyOp r ⟨o, ho⟩ (opWrites cfg 0 (opFields fun j => bank.read (base + 17 * o + j))) :=
  writeFields_op cfg ho _ 0 r (by simp [opFields])

/-- A run of writes puts each value into its register and leaves the others. -/
theorem opWrites_raw (cfg : Config) :
    ∀ (vs : List Raw) (f : Nat) (o : Op) (g : Fin 21), f + vs.length ≤ 21 →
      (opWrites cfg f vs o).raw g =
        if h : f ≤ g.val ∧ g.val < f + vs.length then vs[g.val - f]'(by omega) else o.raw g
  | [], f, o, g, _ => by rw [dif_neg (by simp)]; rfl
  | v :: vs, f, o, g, h => by
    have hf : f < 21 := by simp at h; omega
    rw [opWrites, opWrites_raw cfg vs (f + 1) _ g (by simp at h; omega), setParam_raw]
    have hi : opFieldIndex f = ⟨f, hf⟩ := Fin.ext (Nat.mod_eq_of_lt hf)
    rw [hi]
    simp only [Fin.ext_iff, List.length_cons]
    by_cases h1 : f = g.val
    · rw [dif_neg (by omega), if_pos h1, dif_pos (by omega)]
      simp [← h1]
    · by_cases h2 : f + 1 ≤ g.val ∧ g.val < f + 1 + vs.length
      · rw [dif_pos h2, dif_pos (by omega)]
        rw [List.getElem_cons, dif_neg (by omega)]
        congr 1
      · rw [dif_neg h2, if_neg h1, dif_neg (by omega)]

/-- A run of writes leaves PHASE, VEL and NOTE (46 R210 (c)). -/
theorem opWrites_keeps (cfg : Config) :
    ∀ (vs : List Raw) (f : Nat) (o : Op),
      (opWrites cfg f vs o).phase = o.phase ∧ (opWrites cfg f vs o).vel = o.vel ∧ (opWrites cfg f vs o).note = o.note
  | [], _, _ => ⟨rfl, rfl, rfl⟩
  | v :: vs, f, o => by
    obtain ⟨h1, h2, h3⟩ := opWrites_keeps cfg vs (f + 1) (o.setParam cfg (opFieldIndex f) v)
    obtain ⟨-, k1, k2, k3, -, -⟩ := setParam_spec cfg (opFieldIndex f) v o
    rw [opWrites, h1, h2, h3]
    exact ⟨k1, k2, k3⟩

/-! ## No write of a load is undefined -/

/-- Every recompute of BASEFREQ that a run of field writes makes has a value. -/
def WritesDefined (cfg : Config) : Nat → List Raw → Regs → Prop
  | _, [], _ => True
  | i, v :: vs, r => setParamDefined i v r = true ∧ WritesDefined cfg (i + 1) vs (voiceSetParam cfg i v r)

/-- A write to a register that no frequency reads is defined. -/
theorem setParamDefined_of_not_freq {i : Nat} (h : isFreqField (opFieldIndex i) = false) (v : Raw) (r : Regs) :
    setParamDefined i v r = true := by
  simp [setParamDefined, Op.setParamDefined, h]

theorem byteField_nonneg (b : Byte) (h l : Nat) (hl : h - l + 1 < 32) : 0 ≤ (byteField b h l).toInt := by
  unfold byteField
  rw [BitVec.toInt_eq_toNat_of_lt]
  · exact Int.natCast_nonneg _
  · rw [BitVec.toNat_setWidth]
    have h1 := (b.extractLsb h l).isLt
    have h2 : 2 ^ (h - l + 1) ≤ 2 ^ 31 := Nat.pow_le_pow_right (by decide) (by omega)
    rw [Nat.mod_eq_of_lt (by omega)]
    omega

/-- Once DET holds a non-negative value, every later write of the block that recomputes BASEFREQ has a value. -/
theorem writesDefined_of_det (cfg : Config) {o : Nat} (ho : o < 6) :
    ∀ (vs : List Raw) (f : Nat) (r : Regs), f + vs.length ≤ 21 → 13 < f →
      0 ≤ ((r.op[o]'ho).raw OpField.DET).toInt → WritesDefined cfg ((5 - o) * 21 + f) vs r
  | [], _, _, _, _, _ => trivial
  | v :: vs, f, r, h, hf, hd => by
    have hf21 : f < 21 := by simp at h; omega
    have hlt : (5 - o) * 21 + f < 126 := by omega
    obtain ⟨hi, hfi⟩ := opIndex_block ho hf21
    have hne : (⟨f, hf21⟩ : Fin 21) ≠ OpField.DET := by
      intro hc; rw [Fin.ext_iff] at hc; simp at hc; omega
    constructor
    · simp only [setParamDefined, Op.setParamDefined, hi, hfi]
      simp only [Op.freqDefined, store_raw, if_neg hne]
      simp
      omega
    · rw [Nat.add_assoc]
      refine writesDefined_of_det cfg ho vs (f + 1) _ (by simp at h; omega) (by omega) ?_
      rw [voiceSetParam, if_pos hlt, hi, hfi]
      show 0 ≤ (((modifyOp r ⟨o, ho⟩ _).op[(⟨o, ho⟩ : Fin 6)]).raw OpField.DET).toInt
      rw [modifyOp_get, if_pos rfl, setParam_raw, if_neg hne]
      exact hd

/-- Every write of an operator block is defined: DET, a 4-bit field, is the first that recomputes BASEFREQ. -/
theorem writesDefined_opBlock (cfg : Config) {o : Nat} (ho : o < 6) (b : Nat → Byte) (r : Regs) :
    WritesDefined cfg ((5 - o) * 21) (opFields b) r := by
  have plain : ∀ f, f < 13 → ∀ v r, setParamDefined ((5 - o) * 21 + f) v r = true := fun f hf v r =>
    setParamDefined_of_not_freq (by
      rw [(opIndex_block ho (by omega : f < 21)).2]
      simp [isFreqField, Fin.ext_iff]; omega) v r
  unfold opFields
  refine ⟨plain 0 (by decide) _ _, plain 1 (by decide) _ _, plain 2 (by decide) _ _, plain 3 (by decide) _ _,
    plain 4 (by decide) _ _, plain 5 (by decide) _ _, plain 6 (by decide) _ _, plain 7 (by decide) _ _,
    plain 8 (by decide) _ _, plain 9 (by decide) _ _, plain 10 (by decide) _ _, plain 11 (by decide) _ _,
    plain 12 (by decide) _ _, ?_, ?_⟩
  · have hd := byteField_nonneg (b 12) 6 3 (by decide)
    simp only [setParamDefined, Op.setParamDefined, Op.freqDefined, store_raw]
    rw [(opIndex_block ho (by decide : 13 < 21)).2]
    simp
    omega
  · refine writesDefined_of_det cfg ho _ 14 _ (by simp) (by decide) ?_
    have hlt : (5 - o) * 21 + 13 < 126 := by omega
    rw [show (5 - o) * 21 + 12 + 1 = (5 - o) * 21 + 13 from rfl, voiceSetParam, if_pos hlt,
      (opIndex_block ho (by decide : 13 < 21)).1, (opIndex_block ho (by decide : 13 < 21)).2]
    show 0 ≤ (((modifyOp _ ⟨o, ho⟩ _).op[(⟨o, ho⟩ : Fin 6)]).raw OpField.DET).toInt
    rw [modifyOp_get, if_pos rfl, setParam_raw, if_pos (by decide)]
    exact byteField_nonneg (b 12) 6 3 (by decide)

/-- Every write of the voice-level block is defined: it recomputes nothing. -/
theorem writesDefined_voice (cfg : Config) :
    ∀ (vs : List Raw) (i : Nat) (r : Regs), 126 ≤ i → WritesDefined cfg i vs r
  | [], _, _, _ => trivial
  | v :: vs, i, r, h =>
    ⟨by simp [setParamDefined, Nat.not_lt.2 h], writesDefined_voice cfg vs (i + 1) _ (by omega)⟩

/-- No write of a load needs a frequency that has no value, so a load is never refused for one (43 R152 corner (c):
"unreachable ... from LOAD_VOICE", 93 U5). -/
theorem loadRecord_defined (cfg : Config) (bank : Memory) (base : Nat) :
    (∀ o, o < 6 → ∀ r, WritesDefined cfg ((5 - o) * 21) (opFields fun j => bank.read (base + 17 * o + j)) r) ∧
      ∀ r, WritesDefined cfg 126 (voiceFields fun j => bank.read (base + 102 + j)) r :=
  ⟨fun _ ho r => writesDefined_opBlock cfg ho _ r, fun r => writesDefined_voice cfg _ 126 r (le_refl _)⟩

/-! ## The voice-level block -/

/-- A run of writes at or above flat index 126 puts each value into its voice register, leaves the other registers, and
touches no operator and no delay register (46 R206). -/
theorem writeFields_voice (cfg : Config) :
    ∀ (vs : List Raw) (i : Nat) (r : Regs), 126 ≤ i → i + vs.length ≤ 155 →
      (writeFields cfg i vs r).op = r.op ∧ (writeFields cfg i vs r).prev = r.prev ∧
        (writeFields cfg i vs r).fb = r.fb ∧ (writeFields cfg i vs r).fs = r.fs ∧
        ∀ g : Fin 29, some (writeFields cfg i vs r).pv[g] =
          if i ≤ 126 + g.val ∧ 126 + g.val < i + vs.length then vs[126 + g.val - i]? else some r.pv[g]
  | [], i, r, _, _ => by simp [writeFields]
  | v :: vs, i, r, h1, h2 => by
    simp only [List.length_cons] at h2
    obtain ⟨k1, k2, k3, k4, k5⟩ := writeFields_voice cfg vs (i + 1) (voiceSetParam cfg i v r) (by omega) (by omega)
    rcases voiceSetParam_cases cfg i v r with ⟨h, _⟩ | ⟨h, he⟩ | ⟨h, _⟩
    · omega
    · rw [writeFields, k1, k2, k3, k4]
      refine ⟨by rw [he], by rw [he], by rw [he], by rw [he], fun g => ?_⟩
      rw [k5 g, he]
      simp only [List.length_cons, Fin.getElem_fin, Vector.getElem_set]
      by_cases hg : i = 126 + g.val
      · rw [if_neg (by omega), if_pos (by omega), if_pos (by omega)]; simp [hg]
      · by_cases hin : i + 1 ≤ 126 + g.val ∧ 126 + g.val < i + 1 + vs.length
        · rw [if_pos hin, if_pos (by omega), List.getElem?_cons, if_neg (by omega)]
          congr 1
        · rw [if_neg hin, if_neg (by omega), if_neg (by omega)]
    · omega

/-! ## The frame search -/

/-- An accepted frame is found, and the record is taken from it (46 R201 to R203). -/
theorem recordBase_of_frame {bank : Memory} (hw : bank.wf) {len a v : Nat} (hv : v < 32) (hf : FrameAt bank len a) :
    recordBase bank v len = some (a + 6 + 128 * v) := by
  have h1 : bank.findByte 0xF0 0 len = some a :=
    findByte_eq hw (by decide) (Nat.zero_le _) (by have := hf.inside; omega) hf.start (fun x _ hx => hf.first x hx)
  have h2 : bank.findByte 0xF7 (a + 1) len = some (a + 4103) :=
    findByte_eq hw (by decide) (by omega) hf.inside hf.last (fun x h1 h2 => hf.inner x (by omega) h2)
  unfold recordBase
  rw [if_neg (by simp; omega)]
  simp only [frameStart, h1, frameEnds, h2]
  rw [show decide (a + 4103 - a + 1 = Config.bankLen) = true by simp [Config.bankLen]]
  rfl

/-- A record is found only inside an accepted frame, and only for a voice index below 32 (46 R201, R202, R209). -/
theorem frame_of_recordBase {bank : Memory} (hw : bank.wf) {len v b : Nat} (h : recordBase bank v len = some b) :
    v < 32 ∧ ∃ a, FrameAt bank len a ∧ b = a + 6 + 128 * v := by
  unfold recordBase at h
  split at h
  · cases h
  · next hv =>
    refine ⟨by simpa using hv, ?_⟩
    split at h
    · cases h
    · next s hs =>
      unfold frameStart at hs
      split at hs
      · cases hs
      · next s' h1 =>
        split at hs
        · next h2 =>
          cases hs
          unfold frameEnds at h2
          split at h2
          · cases h2
          · next e he =>
            obtain ⟨-, -, a3, a4⟩ := findByte_some hw (by decide) h1
            obtain ⟨b1, b2, b3, b4⟩ := findByte_some hw (by decide) he
            have h3 : e - s + 1 = 4104 := by simpa [Config.bankLen] using h2
            have he : e = s + 4103 := by omega
            subst he
            exact ⟨s, ⟨fun x hx => a4 x (Nat.zero_le _) hx, a3, fun x h1 h2 => b4 x (by omega) h2, b3, b2⟩,
              by injection h with h; exact h.symm⟩
        · cases hs

end Sys2Proof.Machine
end

