-- ==== Sys2Proof/Laws/Commands.lean ====
section
/-! SUPPORT. What each command can do, said once: the inversion lemmas that later proofs cite. -/

namespace Sys2Proof.Machine

/-- A guarded command has a next state only after a successful INIT (47 R229). -/
theorem whenInited_next {s t : State} {o : Host.Outcome State Fault Refusal} :
    whenInited s o = .next t ↔ s.status.inited = true ∧ o = .next t := by
  unfold whenInited; split <;> simp_all

theorem whenInited_of {s : State} (h : s.status.inited = true) (o : Host.Outcome State Fault Refusal) :
    whenInited s o = o := by simp [whenInited, h]

theorem whenInited_refused {s : State} (h : s.status.inited = false) (o : Host.Outcome State Fault Refusal) :
    whenInited s o = .refused .notInitialised := by simp [whenInited, h]

/-- What a command that has a next state has done. -/
theorem exec_cases {i : Instr} {s t : State} (h : exec i s = .next t) :
    (∃ fs, i = .init fs ∧
      (((fs = 0 ∨ fsSupported s.cfg fs = false) ∧
          t = { complete s (Config.undefinedRegs s.freeCtr) with
                status := Status.afterFailedInit, freeCtr := s.freeCtr + 1 }) ∨
        (fs ≠ 0 ∧ fsSupported s.cfg fs = true ∧
          t = { complete s (runtimeReset s.cfg
                  { s.toRegs with
                    fs := fs
                    op := s.op.map (fun o => { o with p := Vector.replicate 21 0 })
                    pv := Vector.replicate 29 0 }) with
                status := Status.afterInit }))) ∨
    (s.status.inited = true ∧
      ((i = .reset ∧ t = complete s (runtimeReset s.cfg s.toRegs)) ∨
        (∃ n v, i = .noteOn n v ∧ s.op.all Op.freqDefined = true ∧ t = complete s (voiceNoteOn s.cfg n v s.toRegs)) ∨
        (∃ n, i = .noteOff n ∧ t = complete s (voiceNoteOff s.cfg n s.toRegs)) ∨
        (∃ x v, i = .setParam x v ∧ setParamDefined x v s.toRegs = true ∧
          t = complete s (voiceSetParam s.cfg x v s.toRegs)) ∨
        (i = .tick ∧ t = completeTick s (voiceTick s.cfg s.toRegs).1 (voiceTick s.cfg s.toRegs).2) ∨
        (∃ v len, i = .loadVoice v len ∧ t = complete s (patchLoad s.cfg s.bank v len s.toRegs)))) := by
  cases i with
  | init fs =>
    refine .inl ⟨fs, rfl, ?_⟩
    simp only [exec, execInit] at h
    split at h
    · next hf => exact .inl ⟨hf, by simpa using h.symm⟩
    · next hf =>
      rw [not_or, Bool.not_eq_false] at hf
      exact .inr ⟨hf.1, hf.2, by simpa using h.symm⟩
  | reset =>
    obtain ⟨hi, h⟩ := whenInited_next.1 h
    exact .inr ⟨hi, .inl ⟨rfl, by simpa using h.symm⟩⟩
  | noteOn n v =>
    obtain ⟨hi, h⟩ := whenInited_next.1 h
    split at h
    · next hd => exact .inr ⟨hi, .inr (.inl ⟨n, v, rfl, hd, by simpa using h.symm⟩)⟩
    · cases h
  | noteOff n =>
    obtain ⟨hi, h⟩ := whenInited_next.1 h
    exact .inr ⟨hi, .inr (.inr (.inl ⟨n, rfl, by simpa using h.symm⟩))⟩
  | setParam x v =>
    obtain ⟨hi, h⟩ := whenInited_next.1 h
    split at h
    · next hd => exact .inr ⟨hi, .inr (.inr (.inr (.inl ⟨x, v, rfl, hd, by simpa using h.symm⟩)))⟩
    · cases h
  | tick =>
    obtain ⟨hi, h⟩ := whenInited_next.1 h
    exact .inr ⟨hi, .inr (.inr (.inr (.inr (.inl ⟨rfl, by simpa using h.symm⟩))))⟩
  | loadVoice v len =>
    obtain ⟨hi, h⟩ := whenInited_next.1 h
    exact .inr ⟨hi, .inr (.inr (.inr (.inr (.inr ⟨v, len, rfl, by simpa using h.symm⟩))))⟩

/-- PD.LOAD either leaves the registers or decodes the record of an accepted frame (46 R210 (a)). -/
theorem patchLoad_cases (cfg : Config) (bank : Memory) (v len : Nat) (r : Regs) :
    (recordBase bank v len = none ∧ patchLoad cfg bank v len r = r) ∨
      ∃ base, recordBase bank v len = some base ∧ patchLoad cfg bank v len r = loadRecord cfg bank base r := by
  unfold patchLoad
  cases h : recordBase bank v len with
  | none => exact .inl ⟨rfl, rfl⟩
  | some base => exact .inr ⟨base, rfl, rfl⟩

/-- What one step can be: hold, a BANK write of the host, a reserved word, or a command. -/
theorem step_cases' {s t : State} (h : step s = .next t) :
    (s.inbox = [] ∧ t = s) ∨
      (∃ a bs rest, s.inbox = .bankWrite a bs :: rest ∧
        t = { s with bank := s.bank.writeBytes a bs, inbox := rest }) ∨
      (∃ w rest e, s.inbox = .command w :: rest ∧ decode w = .error e ∧ t = { s with inbox := rest }) ∨
      (∃ w rest i, s.inbox = .command w :: rest ∧ decode w = .ok i ∧ exec i { s with inbox := rest } = .next t) := by
  unfold step fetch at h
  split at h
  · next heq =>
    split at heq
    · next hin => exact .inl ⟨hin, by simpa using h.symm⟩
    · cases heq
    · split at heq <;> cases heq
  · next t' heq =>
    split at heq
    · cases heq
    · next a bs rest hin =>
      cases heq
      exact .inr (.inl ⟨a, bs, rest, hin, by simpa using h.symm⟩)
    · split at heq <;> cases heq
  · next t' heq =>
    split at heq
    · cases heq
    · cases heq
    · next w rest hin =>
      split at heq
      · cases heq
      · next e he =>
        cases heq
        exact .inr (.inr (.inl ⟨w, rest, e, hin, he, by simpa using h.symm⟩))
  · next i t' heq =>
    split at heq
    · cases heq
    · cases heq
    · next w rest hin =>
      split at heq
      · next j hj =>
        cases heq
        exact .inr (.inr (.inr ⟨w, rest, i, hin, hj, h⟩))
      · cases heq

end Sys2Proof.Machine
end

