-- ==== Sys2Proof/Laws/Decode.lean ====
section
/-! SUPPORT. The fields of a command word and of an assembled word as plain arithmetic on numerals, which omega
closes. -/

namespace Sys2Proof

theorem opc_eq (w : Word) : Word.opc w = w.toNat / 72057594037927936 % 256 := by
  rw [Word.opc, BitVec.extractLsb_toNat, Nat.shiftRight_eq_div_pow]

theorem fieldA_eq (w : Word) : Word.fieldA w = w.toNat / 4294967296 % 16777216 := by
  rw [Word.fieldA, BitVec.extractLsb_toNat, Nat.shiftRight_eq_div_pow]

theorem fieldB_eq (w : Word) : (Word.fieldB w).toNat = w.toNat % 4294967296 := by
  rw [Word.fieldB, BitVec.extractLsb_toNat, Nat.shiftRight_eq_div_pow, Nat.pow_zero, Nat.div_one]

theorem fieldNote_eq (w : Word) : Word.fieldNote w = w.toNat / 1099511627776 % 128 := by
  rw [Word.fieldNote, BitVec.extractLsb_toNat, Nat.shiftRight_eq_div_pow]

theorem fieldVelocity_eq (w : Word) : Word.fieldVelocity w = w.toNat / 4294967296 % 128 := by
  rw [Word.fieldVelocity, BitVec.extractLsb_toNat, Nat.shiftRight_eq_div_pow]

theorem packWord_toNat (opc a b : Nat) :
    (packWord opc a b).toNat = (opc * 72057594037927936 + a * 4294967296 + b) % 18446744073709551616 := by
  rw [packWord, BitVec.toNat_ofNat]; norm_num

/-- A packed word whose operands fit their fields shows its opcode in bits 63..56. -/
theorem opc_packWord {opc a b : Nat} (ho : opc < 256) (ha : a < 16777216) (hb : b < 4294967296) :
    Word.opc (packWord opc a b) = opc := by
  rw [opc_eq, packWord_toNat]; omega

end Sys2Proof
end

