-- ==== Sys2Proof/Laws/PerInstr.lean ====
section
/-! SUPPORT. One lemma per constructor: every well-formed instruction's word matches its row of the opcode table
(30_encoding.md R81: `W & mask = match`, the mask being the opcode byte). -/

namespace Sys2Proof.Laws.MatchMask

/-- The opcode of R81. -/
def opcode : Instr → Nat
  | .init _ => 0x01
  | .reset => 0x02
  | .noteOn _ _ => 0x03
  | .noteOff _ => 0x04
  | .setParam _ _ => 0x05
  | .tick => 0x06
  | .loadVoice _ _ => 0x07

/-- The word of a well-formed instruction has the instruction's opcode in bits 63..56. -/
def Statement (i : Instr) : Prop := i.wf = true → Word.opc (encode i) = opcode i

theorem init (fs : Nat) : Statement (.init fs) := fun h => by
  simp only [Instr.wf, decide_eq_true_eq] at h
  exact opc_packWord (by decide) (by decide) h

theorem reset : Statement .reset := fun _ => by decide

theorem noteOn (note velocity : Nat) : Statement (.noteOn note velocity) := fun h => by
  simp only [Instr.wf, Bool.and_eq_true, decide_eq_true_eq] at h
  exact opc_packWord (by decide) (by omega) (by decide)

theorem noteOff (note : Nat) : Statement (.noteOff note) := fun h => by
  simp only [Instr.wf, decide_eq_true_eq] at h
  exact opc_packWord (by decide) (by omega) (by decide)

theorem setParam (index : Nat) (value : Raw) : Statement (.setParam index value) := fun h => by
  simp only [Instr.wf, decide_eq_true_eq] at h
  exact opc_packWord (by decide) h value.isLt

theorem tick : Statement .tick := fun _ => by decide

theorem loadVoice (v len : Nat) : Statement (.loadVoice v len) := fun h => by
  simp only [Instr.wf, Bool.and_eq_true, decide_eq_true_eq] at h
  exact opc_packWord (by decide) h.1 h.2

end Sys2Proof.Laws.MatchMask
end

