-- ==== Sys2Proof/Tests/Slice0.lean ====
section
/-! SUPPORT. Small tests of one step, each with its expected result from the spec's text or vectors, and one witness
for every statement that has hypotheses. -/

namespace Sys2Proof.Tests

-- One test at a time: many kernel evaluations side by side need more threads than the memory limit allows.
set_option Elab.async false

open Sys2Proof Sys2Proof.Machine

/-! ## WellFormed: an ill-formed term for each check (30 R82) -/

theorem test_wf_init_rate : (Instr.init (2 ^ 32)).wf = false := by decide
theorem test_wf_noteOn_note : (Instr.noteOn 128 0).wf = false := by decide
theorem test_wf_noteOn_velocity : (Instr.noteOn 0 128).wf = false := by decide
theorem test_wf_noteOff_note : (Instr.noteOff 128).wf = false := by decide
theorem test_wf_setParam_index : (Instr.setParam (2 ^ 24) 0).wf = false := by decide
theorem test_wf_loadVoice_v : (Instr.loadVoice (2 ^ 24) 0).wf = false := by decide
theorem test_wf_loadVoice_len : (Instr.loadVoice 0 (2 ^ 32)).wf = false := by decide
theorem test_wf_largest :
    (Instr.init 0xFFFFFFFF).wf && (Instr.noteOn 127 127).wf && (Instr.noteOff 127).wf
      && (Instr.setParam 0xFFFFFF 0xFFFFFFFF).wf && (Instr.loadVoice 0xFFFFFF 0xFFFFFFFF).wf && Instr.reset.wf
      && Instr.tick.wf = true := by decide

/-! ## Decode: words written out from 30 R80 to R82; A = W[55:32], B = W[31:0] -/

/-- INIT: OPC 0x01; B = 48000 = 0xBB80 (ENC1). -/
theorem test_decode_init : decode 0x010000000000BB80 = .ok (.init 48000) := by decide
/-- RESET: OPC 0x02 (ENC3). -/
theorem test_decode_reset : decode 0x0200000000000000 = .ok .reset := by decide
/-- NOTE_ON: OPC 0x03; A[14:8] = 60 = 0x3C, A[6:0] = 1. -/
theorem test_decode_noteOn : decode 0x03003C0100000000 = .ok (.noteOn 60 1) := by decide
/-- NOTE_OFF: OPC 0x04; A[14:8] = 69 = 0x45 (ENC6). -/
theorem test_decode_noteOff : decode 0x0400450000000000 = .ok (.noteOff 69) := by decide
/-- SET_PARAM: OPC 0x05; A = 122 = 0x7A, B = 100 = 0x64 (ENC7). -/
theorem test_decode_setParam : decode 0x0500007A00000064 = .ok (.setParam 122 100) := by decide
/-- TICK: OPC 0x06, A and B ignored (ENC16). -/
theorem test_decode_tick : decode 0x06123456789ABCDE = .ok .tick := by decide
/-- LOAD_VOICE: OPC 0x07; A = 1, B = 4107 = 0x100B (ENC10). -/
theorem test_decode_loadVoice : decode 0x070000010000100B = .ok (.loadVoice 1 4107) := by decide
/-- Reserved opcodes (ENC15). -/
theorem test_decode_reserved :
    decode 0x0000000000000000 = .error (.reservedOpcode 0) ∧ decode 0x0800000000000000 = .error (.reservedOpcode 8) ∧
      decode 0xFF00000000000001 = .error (.reservedOpcode 255) := by decide
/-- The bits R82 assigns to nothing are ignored (ENC14). -/
theorem test_decode_ignored_bits : decode 0x03FFC5FFDEADBEEF = .ok (.noteOn 69 127) := by decide
/-- SETOP 1, L3, 100 assembles to SETP 90, 100 (ENC12), SETV FBL, 7 to SETP 135, 7 (ENC13). -/
theorem test_assemble :
    (Asm.setop 1 OpField.L3 100).expand = [.command 0x0500005A00000064] ∧
      (Asm.setv VField.FBL 7).expand = [.command 0x0500008700000007] := by decide

/-! ## Small states -/

/-- Right after `INIT 4000` at power-on, with a configuration. -/
def on (cfg : Config) : State := { State.reset with fs := 4000, status := Status.afterInit, cfg := cfg }

/-- The state after `INIT 4000` with the default parameters. -/
def s0 : State := on defaultConfig

/-- A configuration with one open parameter changed. -/
def atWriteCfg : Config := { defaultConfig with egRefresh := .atWrite }
def noopCfg : Config := { defaultConfig with algOor := .noop }
def pegCfg : Config := { defaultConfig with pegGate := true }

/-- An operator with some parameters written. -/
def opWith (ps : List (Fin 21 × Int)) : Op :=
  ps.foldl (fun o x => o.store x.1 (BitVec.ofInt 32 x.2)) Op.initial

/-- Replace one operator, and one voice register. -/
def setOp (s : State) (k : Fin 6) (o : Op) : State := { s with op := s.op.set k o }
def setV (s : State) (g : Fin 29) (v : Int) : State := { s with pv := s.pv.set g (BitVec.ofInt 32 v) }

/-- Present one command to `s` and look at the next state, if there is one. -/
def present {α : Type} (i : Instr) (s : State) (look : State → α) : Option α :=
  match step (s.withFetchWord 64 (encode i).toNat) with
  | .next t => some (look t)
  | .fault _ => none
  | .refused _ => none

/-- Why a step is refused, if it is. -/
def refusal (o : Host.Outcome State Fault Refusal) : Option Refusal :=
  match o with
  | .next _ => none
  | .fault _ => none
  | .refused r => some r

/-! ## INIT and RESET (47 R221, R222; RST vectors) -/

/-- RST2: STATUS = 0b001, FS = 48000. -/
theorem test_init_supported :
    present (.init 48000) State.reset (fun t => (t.status.word, t.fs, t.sample)) = some (0b001#3, 48000, none) := by
  decide +kernel
/-- RST3: INIT 0 fails, STATUS = 0b010, from a running engine too. -/
theorem test_init_zero_fails : present (.init 0) s0 (fun t => t.status.word) = some 0b010#3 := by decide +kernel
/-- RST6: RESET keeps P_OP[0][OL] and clears what ran. -/
theorem test_reset_keeps_parameters :
    present .reset (setOp s0 0 { opWith [(OpField.OL, 100)] with phase := .rat (1 / 2), vel := 1, note := 69, baseFreq := .rat 440 })
      (fun t => ((t.op[0]).raw OpField.OL, (t.op[0]).phase, (t.op[0]).baseFreq, (t.op[0]).vel, (t.op[0]).note))
      = some (100, .rat 0, .rat 0, 0, 0) := by decide +kernel
/-- 47 R222 corner (c): in the at_write variant RESET leaves the latches at the kept parameters. -/
theorem test_reset_at_write :
    present .reset (setOp (on atWriteCfg) 2 (opWith [(OpField.L3, 25)])) (fun t => (t.op[2]).eg.el3) = some (1 / 4) := by
  decide +kernel
/-- RST7, NEG1: TICK at power-on is refused. -/
theorem test_tick_at_power_on :
    step (State.reset.withFetchWord 64 0x0600000000000000) = .refused .notInitialised := by rfl

/-! ## NOTE_ON and NOTE_OFF (43 R155, R156) -/

/-- CF9 and VEL5: note 69, COARSE 2, FINE 50, DET 7 gives 1320; KVS 3 at velocity 64 gives 700/889. -/
theorem test_noteOn_ratio :
    present (.noteOn 69 64)
      (setOp s0 3 (opWith [(OpField.COARSE, 2), (OpField.FINE, 50), (OpField.DET, 7), (OpField.KVS, 3)]))
      (fun t => ((t.op[3]).baseFreq, (t.op[3]).vel, (t.op[3]).note)) = some (.rat 1320, 700 / 889, 69) := by decide +kernel
/-- P6: with PEG_GATE = 1 NOTE_ON gates the pitch envelope to SUSTAIN at PL3 = 3/4 (PR1..PR3 >= 1). -/
theorem test_noteOn_peg_gate :
    present (.noteOn 69 127)
      { on pegCfg with peg := { Eg.initial with er1 := 1, er2 := 1, er3 := 1, el3 := 3 / 4, el4 := 1 / 2 } }
      (fun t => (t.peg.st, t.peg.val)) = some (.sustain, 3 / 4) := by decide +kernel
/-- EG8.2: SUSTAIN at 1/4 with ER4 = 4/5 releases from 1/4 toward EL4; the note does not matter. -/
theorem test_noteOff_release :
    present (.noteOff 1)
      (setOp s0 5 { Op.initial with eg := { Eg.initial with st := .sustain, val := 1 / 4, er4 := 4 / 5 } })
      (fun t => ((t.op[5]).eg.st, (t.op[5]).eg.start, (t.op[5]).eg.target, (t.op[5]).eg.val))
      = some (.release, 1 / 4, 0, 1 / 4) := by decide +kernel
/-- EG8.3: with ER4 = 1 the envelope is IDLE at EL4 at once. -/
theorem test_noteOff_idle :
    present (.noteOff 69)
      (setOp s0 0 { Op.initial with eg := { Eg.initial with st := .sustain, val := 1 / 4, er4 := 1, el4 := 1 / 10 } })
      (fun t => ((t.op[0]).eg.st, (t.op[0]).eg.val)) = some (.idle, 1 / 10) := by decide +kernel

/-! ## SET_PARAM (45 R187) -/

/-- SP4 and CF12: SETP 39, 3 writes P_OP[4][COARSE] and recomputes op[4]'s BASEFREQ: 10^3 in fixed mode, DET 7. -/
theorem test_setParam_coarse :
    present (.setParam 39 3) (setOp s0 4 (opWith [(OpField.MODE, 1), (OpField.DET, 7)]))
      (fun t => ((t.op[4]).raw OpField.COARSE, (t.op[4]).baseFreq, (t.op[3]).raw OpField.COARSE))
      = some (3, .rat 1000, 0) := by decide +kernel
/-- SP14 and ENC8: SETP 128 writes P_V[PR3]; a negative value is kept as written. -/
theorem test_setParam_voice :
    present (.setParam 128 0xFFFFFFFF) s0 (fun t => (t.pv[VField.PR3]).toInt) = some (-1) := by decide +kernel
/-- NEG4: DET = -993 in fixed mode is refused; -992 gives base 1/100. -/
theorem test_setParam_base :
    refusal (exec (.setParam (flatOp 0 OpField.DET) (BitVec.ofInt 32 (-993))) (setOp s0 0 (opWith [(OpField.MODE, 1)])))
      = some .powBaseNotPositive ∧
    present (.setParam (flatOp 0 OpField.DET) (BitVec.ofInt 32 (-992)))
      (setOp s0 0 (opWith [(OpField.MODE, 1), (OpField.COARSE, 1)])) (fun t => (t.op[0]).baseFreq)
      = some (.rat (1 / 100)) := by decide +kernel

/-! ## TICK (45 R180 to R185) -/

/-- The algorithm entry of 45 R192: op 0 with feedback modulates op 1; op 1 is the carrier. -/
def r192Rom : AlgRom where
  cells := algClassicCells.set 0 (algEntry 0x40 0x01 0x00 0x00 0x00 0x00 0x01 0x02)
  noSelf := by decide

def r192Cfg : Config := { defaultConfig with algRom := r192Rom }

/-- The state before the tick of 45 R192. -/
def r192 : State :=
  let up : Eg := { Eg.initial with st := .sustain }
  let s := setV (setV (on r192Cfg) VField.FBL 7) VField.PL4 50
  let o : Op := { opWith [(OpField.OL, 100), (OpField.L3, 100)] with baseFreq := .rat 1000, vel := 1, eg := up }
  let s := setOp s 0 { o with phase := .rat (1 / 4) }
  let s := setOp s 1 (o.store OpField.L3 50)
  { s with prev := s.prev.set 0 (.rat (1 / 2)), fb := .rat (1 / 2) }

/-- 45 R192: PREV = (1, 0, 0, 0, 0, 0), FB = 1, the sample 0, op[0].PHASE = 11/20, op[1].PHASE = 3/10. -/
theorem test_tick_r192 :
    present .tick r192 (fun t => (t.prev.toList, t.fb, t.sample, (t.op[0]).phase, (t.op[1]).phase))
      = some ([1, 0, 0, 0, 0, 0].map .rat, .rat 1, some (.rat 0), .rat (11 / 20), .rat (3 / 10)) := by decide +kernel
/-- XB1 and XB7: entry 15 with PREV = (1/2, 1/4, -1/4, 1/8, 0, 3/4) and FB = 1/2, FBL 7; index 255 uses entry 31. -/
theorem test_tick_crossbar :
    (List.finRange 6).map (modulation .exact algClassicCells 15
        (#v[1 / 2, 1 / 4, -1 / 4, 1 / 8, 0, 3 / 4].map .rat) (.rat (1 / 2)) 1)
      = [1 / 2, 1 / 2, 0, -1 / 4, 0, 1 / 8].map .rat ∧ clampAlg 255 = 31 ∧ clampAlg 0x80000000 = 0 := by decide +kernel

/-! ## The envelope generator and the oscillator (EG and OSC vectors) -/

/-- The attack of EG3: START 0, TARGET 1, ER1 = 4/5. -/
def attack : Eg := { Eg.initial with st := .attack, target := 1, er1 := 4 / 5, er2 := 1, er3 := 1, el1 := 1 }

/-- EG3: 5/32 after one tick at FS = 4000, 15/16 after six, and the seventh snaps to 1 and enters SUSTAIN. -/
theorem test_eg_attack :
    (attack.step .exact 4000).val = 5 / 32 ∧ ({ attack with val := 15 / 16 }.step .exact 4000).val = 1 ∧
      ({ attack with val := 15 / 16 }.step .exact 4000).st = .sustain := by decide +kernel
/-- EG10: ER4 = 1 in RELEASE completes at once (42 R131). -/
theorem test_eg_singular_rate :
    { Eg.initial with st := .release, start := 15 / 32, val := 165 / 512, er4 := 1 }.step .exact 4000
      = { Eg.initial with st := .idle, start := 15 / 32, val := 0, er4 := 1 } := by decide +kernel
/-- OSC1 to OSC7. -/
theorem test_osc :
    ([0, 1 / 4, 1 / 2, 3 / 4, 1, -1 / 4, -5 / 4].map fun x => osc .exact (.rat x))
      = [0, 1, 0, -1, 0, -1, -1].map .rat := by decide +kernel
/-- OSC10: past entry 511 the upper neighbour wraps to entry 0: `SINE[511] + 1/2*(SINE[0] - SINE[511])`. -/
theorem test_osc_wrap :
    osc .exact (.rat (1023 / 1024)) = .sum (.sineOf 511) (.prod (.rat (1 / 2)) (.diff (.rat 0) (.sineOf 511))) := by
  decide +kernel
/-- 20 R63: a unit of 2, rounding down, leaves the position of phase 0 at 512, which is reduced to entry 0; -1 is 511. -/
theorem test_osc_reduced :
    oscPosition (.finite 20 1 30 .downward) 0 = 512 ∧ osc (.finite 20 1 30 .downward) (.rat 0) = .rat 0 ∧
      tableIndex 512 = 0 ∧ tableIndex (-1) = 511 ∧ tableIndex 511 = 511 := by decide +kernel
/-- 95 FN2, FN4, FN5, and the frequency of a note that is not a multiple of 12 above 9, which stays an expression. -/
theorem test_powers :
    exp2 .exact (-4) = .rat (1 / 16) ∧ pow .exact 10 3 = .rat 1000 ∧ pow .exact 10 (-1) = .rat (1 / 10) ∧
      (opWith [(OpField.COARSE, 1), (OpField.DET, 7)]).freq .exact 60
        = .prod (.rat (440 / 32)) (.exp2Of (51 / 12)) := by decide +kernel

/-! ## Finite number formats (00 R7) -/

/-- IEEE 754 binary32. -/
def binary32 : NumFormat := .finite 24 (-149) 127 .nearestEven

/-- 0.01 in binary32: `2^30/100 = 10737418.24`, and 10737418 has 24 bits; halves go to the even neighbour. -/
theorem test_round_binary32 :
    binary32.q (1 / 100) = 10737418 / 2 ^ 30 ∧ binary32.q (2 ^ 24 + 1) = 2 ^ 24 ∧
      binary32.q (2 ^ 24 + 3) = 2 ^ 24 + 4 ∧ binary32.q (-(1 / 100)) = -(10737418 / 2 ^ 30) := by decide +kernel
/-- Fixed point with 4 fraction bits, and its four directions: 0.3 = 4.8/16. -/
theorem test_round_fixed :
    ((NumFormat.finite 12 (-4) 7 .towardZero).q (3 / 10), (NumFormat.finite 12 (-4) 7 .upward).q (3 / 10),
      (NumFormat.finite 12 (-4) 7 .downward).q (-3 / 10), (NumFormat.finite 12 (-4) 7 .nearestAway).q (1 / 32))
      = (4 / 16, 5 / 16, -5 / 16, 1 / 16) := by decide +kernel
/-- 00 R7: `COARSE > 0` is decided on the Num: with a unit of 16, COARSE = 3 is `num` 0 and gives 0.5, 20 gives 16. -/
theorem test_coarse_on_num :
    coarseRatio (.finite 4 4 10 .nearestEven) 3 = 1 / 2 ∧ coarseRatio (.finite 4 4 10 .nearestEven) 20 = 16 ∧
      coarseRatio .exact 0xFFFFFFFF = 1 / 2 ∧ coarseRatio .exact 3 = 3 := by decide +kernel
/-- 43 R154 (d) under binary32: L4 = 1 in IDLE gives `num(1) * 0.01` rounded. -/
theorem test_tick_binary32 :
    present .tick (setOp (on { defaultConfig with num := binary32 }) 0 (opWith [(OpField.L4, 1)]))
      (fun t => ((t.op[0]).eg.val, t.sample)) = some (10737418 / 2 ^ 30, some (.rat 0)) := by decide +kernel

/-! ## LOAD_VOICE (46 R200 to R211) -/

/-- The buffer of 95 S5: BANK[0] = 0xF0, BANK[21] = 0x2A, BANK[4103] = 0xF7. -/
def bankS5 : Memory := [(0, 0xF0), (21, 0x2A), (4103, 0xF7)]

/-- 95 S5: COARSE = 21 and MODE = 0 in operator 0; every other register 0. -/
theorem test_loadVoice_s5 :
    present (.loadVoice 0 4104) { s0 with bank := bankS5 }
      (fun t => ((t.op[0]).raw OpField.COARSE, (t.op[0]).raw OpField.MODE, (t.op[5]).raw OpField.COARSE))
      = some (21, 0, 0) := by decide +kernel
/-- PDL5: with L one byte short the end marker is outside the buffer and nothing is loaded. -/
theorem test_loadVoice_short :
    present (.loadVoice 0 4103) { s0 with bank := bankS5 } (fun t => (t.op[0]).raw OpField.COARSE) = some 0 := by
  decide +kernel
/-- PDF2, PDF4, PDF5, PDF6, PDF9: the fields of an operator block. -/
theorem test_operator_fields :
    let b : Nat → Byte := fun j => [0xE3, 0, 0, 0, 0, 0, 0, 0, 0, 0, 0, 0x0E, 0x3D, 0x1D, 0, 0x07, 0].getD j 0
    (opFields b).map BitVec.toNat = [227, 0, 0, 0, 0, 0, 0, 0, 0, 0, 0, 2, 3, 7, 5, 7, 1, 0, 3, 1, 0] := by decide +kernel
/-- PDF7, PDF8, PDF10: the fields of the voice-level block. -/
theorem test_voice_fields :
    let c : Nat → Byte := fun j => [0, 0, 0, 0, 0, 0, 0, 0, 0xFF, 0x08, 0, 0, 0, 0, 0x59, 0].getD j 0
    (voiceFields c).map BitVec.toNat = [0, 0, 0, 0, 0, 0, 0, 0, 255, 0, 1, 0, 0, 0, 0, 5, 4, 1, 0] := by decide +kernel
/-- BANK's canonical form: writing what an unlisted address reads as removes the entry. -/
theorem test_bank_canonical :
    (Memory.writeBytes [] 5 [1, 2]).write 5 0 = [(6, 2)] ∧ (Memory.read [(6, 2)] 5 = 0) := by decide

/-! ## Witnesses: states and operands that meet the hypotheses of each statement -/

/-- The operators of `s0` are those INIT leaves. -/
theorem s0_op (cfg : Config) (k : Fin 6) : (on cfg).op[k] = Op.initial := by
  simp [on, State.reset, Regs.powerOn]

/-- A state of a run: what `INIT 4000` leaves meets the invariant. -/
theorem on_inv (cfg : Config) (h : fsSupported cfg 4000 = true) : (on cfg).Inv :=
  ⟨by show Memory.wf []; decide, .inl rfl, fun _ => rfl, fun _ =>
    ⟨by show 0 < 4000; decide, by show 4000 < 2 ^ 32; decide, h, fun k => by
      rw [show (on cfg).toRegs.op[k] = Op.initial from s0_op cfg k]
      exact ⟨by decide, by decide, fun _ F => by simp [Op.initial], fun _ => initial_between⟩,
      fun _ => initial_between⟩⟩

/-- The parameters INIT leaves are nominal. -/
theorem initial_nominal : Op.initial.nominal := fun f => by
  revert f; unfold inRange; decide +kernel

theorem initial_unit : Eg.initial.unit := by constructor <;> constructor <;> decide +kernel

/-- The voice INIT leaves is nominal. -/
theorem on_nominal (F : Functions) (cfg : Config) : (on cfg).toRegs.Nominal F := by
  have hop : ∀ k : Fin 6, (on cfg).toRegs.op[k] = Op.initial := s0_op cfg
  refine ⟨by show 0 < 4000; decide, ⟨fun k => ?_, fun g => ?_⟩, fun k => ?_, fun k => ?_,
    ⟨initial_unit, initial_between⟩, fun k => ?_, ?_⟩
  · rw [hop]; exact initial_nominal
  · show inRange (Vector.replicate 29 (0 : Raw))[g] _ _
    revert g; unfold inRange; decide +kernel
  · rw [hop]; decide +kernel
  · rw [hop]; exact ⟨initial_unit, initial_between⟩
  · show |((Vector.replicate 6 (Num.rat 0))[k]).val F| ≤ 1
    simp
  · show |(Num.rat 0).val F| ≤ 1
    simp

/-- The engine INIT leaves is silent and stands still. -/
theorem on_still (cfg : Config) : (on cfg).Still :=
  ⟨⟨rfl, fun k => by rw [s0_op]; decide, fun k => by
      show (Vector.replicate 6 (Num.rat 0))[k] = _
      simp, rfl⟩, fun k => by rw [s0_op]; rfl, fun k => by rw [s0_op]; rfl⟩

/-- A command completes in `s`. -/
def completes (i : Instr) (s : State) : Bool :=
  match exec i s with
  | .next _ => true
  | .fault _ => false
  | .refused _ => false

theorem completes_iff {i : Instr} {s : State} (h : completes i s = true) : ∃ t, exec i s = .next t := by
  unfold completes at h
  split at h
  · exact ⟨_, ‹_›⟩
  · cases h
  · cases h

theorem witness_DecodeEncodeRoundTrip : (Instr.setParam 0xFFFFFF 0xFFFFFFFF).wf = true := by decide
theorem witness_DecodedCommandsFitTheirFields : decode 0x03FFC5FFDEADBEEF = .ok (.noteOn 69 127) := by decide
theorem witness_WordCarriesOnlyAssignedBits : decode 0x06123456789ABCDE = .ok .tick := by decide
theorem witness_ReservedWordsDoNothing :
    ({ s0 with inbox := [.command 0x00FFFFFFFFFFFFFF] } : State).inbox = .command 0x00FFFFFFFFFFFFFF :: [] ∧
      Word.opc 0x00FFFFFFFFFFFFFF = 0x00 ∧ 0x08 ≤ Word.opc 0x0800000000000000 := by decide +kernel
theorem witness_StepRunsTheDecodedCommand :
    ({ s0 with inbox := [.command 0x0200000000000000] } : State).inbox = .command 0x0200000000000000 :: [] ∧
      decode 0x0200000000000000 = .ok .reset := by decide +kernel
theorem witness_HostInputsChangeOnlyTheBank :
    s0.inbox = [] ∧ s0.bank.wf ∧ ({ s0 with inbox := [.bankWrite 7 [1, 0]] } : State).inbox = .bankWrite 7 [1, 0] :: [] := by
  decide +kernel
theorem witness_InitOutcome :
    (1 ≠ 0 ∧ fsSupported State.reset.cfg 1 = true) ∧ (0 = 0 ∨ fsSupported State.reset.cfg 0 = false) ∧
      fsSupported State.reset.cfg (2 ^ 32) = false := by decide +kernel
theorem witness_OnlyInitBeforeInit :
    State.reset.status.inited = false ∧ decode 0x0800000000000000 = .error (.reservedOpcode 8) := by decide
theorem witness_ResetClearsRuntimeState :
    Word.opc 0x02FFFFFFFFFFFFFF = 0x02 ∧ s0.status.inited = true ∧ s0.cfg.egRefresh = .atTick ∧
      (on atWriteCfg).status.inited = true ∧ (on atWriteCfg).cfg.egRefresh = .atWrite := by
  decide +kernel
/-- Every clause: a TICK, an INIT, another command, a word that is none, and a refused command. -/
theorem witness_OutputsWrittenByTickAndInitAlone :
    (∃ t, exec .tick s0 = .next t) ∧ (∃ t, exec (.noteOff 3) s0 = .next t) ∧
      (decode 0x0600000000000000 = .ok .tick ∧
        ∃ t, step { s0 with inbox := [.command 0x0600000000000000] } = .next t) ∧
      (decode 0x0100000000000000 = .ok (.init 0) ∧
        ∃ t, step { s0 with inbox := [.command 0x0100000000000000] } = .next t) ∧
      (decode 0x0200000000000000 = .ok .reset ∧
        ∃ t, step { s0 with inbox := [.command 0x0200000000000000] } = .next t) ∧
      (∀ i, decode 0xFF00000000000001 ≠ .ok i) ∧
      ∀ t, step (State.reset.withFetchWord 64 0x0600000000000000) ≠ .next t :=
  ⟨completes_iff (by decide +kernel), completes_iff (by decide +kernel), ⟨by decide, _, rfl⟩, ⟨by decide, _, rfl⟩,
    ⟨by decide, _, rfl⟩, fun _ h => (by cases h), fun _ h => (by cases h)⟩
theorem witness_NoteOnEffect : s0.status.inited = true ∧ ∀ k : Fin 6, (s0.op[k]).freqDefined = true := by decide +kernel
theorem witness_NoteOffEffect : s0.status.inited = true := by decide
/-- Each clause at the boundary rate 1. -/
theorem witness_GateOnEntersFirstOpenSegment :
    (99 / 100 : ℚ) < 1 ∧ (let e : Eg := { Eg.initial with er1 := 1 }; 1 ≤ e.er1 ∧ e.er2 < 1) ∧
      (let e : Eg := { Eg.initial with er1 := 1, er2 := 1 }; 1 ≤ e.er1 ∧ 1 ≤ e.er2 ∧ e.er3 < 1) ∧
      (let e : Eg := { Eg.initial with er1 := 1, er2 := 1, er3 := 1 }; 1 ≤ e.er1 ∧ 1 ≤ e.er2 ∧ 1 ≤ e.er3) := by
  decide +kernel
theorem witness_GateOffReleasesFromCurrentValue :
    Eg.initial.st = .idle ∧ (attack.st ≠ .idle ∧ attack.er4 < 1) ∧
      (let e : Eg := { attack with er4 := 1 }; e.st ≠ .idle ∧ 1 ≤ e.er4) := by decide +kernel
/-- Both cases of a moving tick, and each completion. -/
theorem witness_MovingSegmentTick :
    (attack.st.moving = true ∧ (1 - (4 / 5 : ℚ)) ^ 4 * 4000 ≠ 0 ∧ |(0 + (1 - 0) / (32 / 5) - 0 : ℚ)| < |(1 - 0 : ℚ)|) ∧
      (1 - (1 : ℚ)) ^ 4 * 4000 = 0 ∧
      (attack.st = .attack ∧ 1 ≤ attack.er2 ∧ 1 ≤ attack.er3) ∧
      (let e : Eg := { attack with er2 := 0 }; e.st = .attack ∧ e.er2 < 1) ∧
      (let e : Eg := { attack with er3 := 0 }; e.st = .attack ∧ 1 ≤ e.er2 ∧ e.er3 < 1) ∧
      (let e : Eg := { attack with st := .decay1, er3 := 0 }; e.st = .decay1 ∧ e.er3 < 1) ∧
      (let e : Eg := { attack with st := .decay1 }; e.st = .decay1 ∧ 1 ≤ e.er3) ∧
      EgState.decay2.moving = true ∧ EgState.release.moving = true := by decide +kernel
theorem witness_HoldingStatesFollowTheirLevel :
    (r192.status.inited = true ∧ (r192.op[0]).eg.st = .sustain ∧ (r192.op[2]).eg.st = .idle ∧ r192.peg.st = .idle) ∧
      r192.indexUsed ∧ ({ r192 with peg := { Eg.initial with st := .sustain } } : State).peg.st = .sustain :=
  ⟨by decide +kernel, .inl rfl, rfl⟩
theorem witness_SegmentLastsCeilN :
    (0 < 4000 ∧ attack.st.moving = true ∧ attack.rate < 1 ∧ attack.val = attack.start ∧ attack.start ≠ attack.target) ∧
      ((6 : Nat) : ℚ) < (1 - attack.rate) ^ 4 * 4000 ∧
      (let e : Eg := { attack with target := 0 }; e.rate < 1 ∧ e.val = e.start ∧ e.start = e.target) := by decide +kernel
theorem witness_RatioModeFrequency : Functions.standard.Lawful ∧ Op.initial.raw OpField.MODE = 0 :=
  ⟨standard_lawful, by decide⟩
/-- Both sides of the boundary DET = -993. -/
theorem witness_FixedModeFrequency :
    Functions.standard.Lawful ∧ (opWith [(OpField.MODE, 5)]).raw OpField.MODE ≠ 0 ∧
      (opWith [(OpField.MODE, 1), (OpField.DET, -993)]).freqDefined = false ∧
      (opWith [(OpField.MODE, 1), (OpField.DET, -992)]).freqDefined = true :=
  ⟨standard_lawful, by decide +kernel⟩
theorem witness_PowersAreExactAtIntegers : Functions.standard.Lawful ∧ (0 : ℚ) < 1 / 100 :=
  ⟨standard_lawful, by decide +kernel⟩
theorem witness_PowersAreTheConfiguredPowers : Functions.standard.Lawful ∧ (0 : ℚ) < 993 / 100 :=
  ⟨standard_lawful, by decide +kernel⟩
theorem witness_NominalRatioFrequencyIsPositive :
    Functions.standard.Lawful ∧ Op.initial.nominal ∧ Op.initial.raw OpField.MODE = 0 ∧ 0 < 128 ∧ 127 < 128 :=
  ⟨standard_lawful, initial_nominal, by decide, by decide, by decide⟩
theorem witness_OscillatorInterpolates : Functions.standard.Lawful := standard_lawful
theorem witness_OscillatorHasPeriodOne :
    Functions.standard.Lawful ∧
      (Num.rat (5 / 4)).val Functions.standard = (Num.rat (1 / 4)).val Functions.standard + ((1 : Int) : ℝ) :=
  ⟨standard_lawful, by norm_num⟩
/-- 1 is held by Q1.15 with one more integer bit, a format that is not ample. -/
theorem witness_SineRomEntries :
    Functions.standard.Lawful ∧ (NumFormat.finite 17 (-15) 1 .nearestEven).holds 1 ∧ 0 < 256 ∧ 255 < 256 :=
  ⟨standard_lawful, ⟨by norm_num, 1, 0, by decide, by decide, by norm_num⟩, by decide, by decide⟩
theorem witness_TickAdvancesEveryOperator :
    Functions.standard.Lawful ∧ r192.status.inited = true ∧ r192.indexUsed := ⟨standard_lawful, by decide, .inl rfl⟩
theorem witness_TickMixesAndCommits : (on noopCfg).status.inited = true ∧ (on noopCfg).indexUsed :=
  ⟨by decide, .inr (by decide +kernel)⟩
theorem witness_TickFrame : ∃ t, exec .tick r192 = .next t := completes_iff (by decide +kernel)
/-- Indices 0 and 31 are in range, -1 and 32 are not, and -1 under noop. -/
theorem witness_AlgorithmIndexOutOfRange :
    (setV s0 VField.ALG (-1)).indexUsed ∧ (setV (on noopCfg) VField.ALG 31).indexUsed ∧
      ((setV (on noopCfg) VField.ALG (-1)).cfg.algOor = .noop ∧
        ((setV (on noopCfg) VField.ALG (-1)).pv[VField.ALG]).toInt < 0) ∧
      31 < ((setV (on noopCfg) VField.ALG 32).pv[VField.ALG]).toInt ∧ s0.status.inited = true :=
  ⟨.inl rfl, .inr (by decide +kernel), by decide +kernel, by decide +kernel, by decide⟩
/-- A ROM that differs from the classic one in column 7 and in the unread cells of rows 6 and 7. -/
def noisyRom : AlgRom where
  cells := algClassicCells.set 0 (algEntry 0xC0 0x81 0x82 0x84 0x80 0x90 0xC1 0xE8)
  noSelf := by decide

theorem witness_UnreadRomCellsAreUnobservable : SameReadCells s0.cfg.algRom.cells noisyRom.cells := by
  unfold SameReadCells gate fbGate rowGate; decide +kernel
theorem witness_RomIsConstantWithoutSelfModulation : step s0 = .next s0 := rfl
theorem witness_DelayRegistersReachOnlyPhases : s0.status.inited = true ∧ s0.indexUsed := ⟨by decide, .inl rfl⟩
/-- Exact arithmetic, IEEE binary32 and binary16, Q16.16, and the smallest range that is ample. -/
theorem witness_FirstSampleOfANoteIsZero :
    (ample r192.cfg.num = true ∧ ∃ t, exec (.noteOn 69 127) r192 = .next t) ∧ ample binary32 = true ∧
      ample (.finite 11 (-24) 15 .nearestEven) = true ∧ ample (.finite 32 (-16) 15 .towardZero) = true ∧
      ample (.finite 1 0 9 .downward) = true ∧ ample (.finite 24 (-15) 8 .nearestEven) = false :=
  ⟨⟨by decide, completes_iff (by decide +kernel)⟩, by decide, by decide, by decide, by decide, by decide⟩
/-- Every clause: the engine INIT leaves, at a TICK, a held step and a step whose command is a TICK. -/
theorem witness_SilentUntilALevelIsWritten :
    (s0.Still ∧ s0.Quiet ∧ step s0 = .next s0 ∧ s0.status.inited = true ∧ (∀ k : Fin 6, (s0.op[k]).raw OpField.OL = 0) ∧
        ∀ k : Fin 6, (s0.op[k]).baseFreq = .rat 0) ∧
      (∃ t, exec .tick s0 = .next t) ∧ ∃ t, exec (.init 4000) State.reset = .next t ∧ t.status.inited = true :=
  ⟨⟨on_still _, (on_still _).quiet, rfl, rfl, (on_still _).quiet.levels, (on_still _).freq⟩,
    completes_iff (by decide +kernel), _, rfl, rfl⟩
theorem witness_TickRefreshesLatches : s0.status.inited = true ∧ s0.indexUsed := ⟨by decide, .inl rfl⟩
theorem witness_SetOperatorParameter :
    s0.status.inited = true ∧ OpField.MODE ∈ [OpField.DET, OpField.COARSE, OpField.MODE, OpField.FINE] ∧
      ((s0.op[5]).store OpField.MODE 1).freqDefined = true := by decide +kernel
theorem witness_SetVoiceParameter : (on atWriteCfg).status.inited = true := by decide
theorem witness_IndexOutOfRangeIsAbsorbed : s0.status.inited = true ∧ 155 ≤ 155 ∧ 155 ≤ 16777215 := by decide
theorem witness_SetParamRefusedExactlyWithoutFrequency :
    (setOp s0 0 (opWith [(OpField.MODE, 1)])).status.inited = true ∧
      refusal (exec (.setParam (flatOp 0 OpField.DET) (BitVec.ofInt 32 (-993)))
        (setOp s0 0 (opWith [(OpField.MODE, 1)]))) = some .powBaseNotPositive ∧
      refusal (exec (.setParam (flatOp 0 OpField.MODE) 1) (setOp s0 0 (opWith [(OpField.DET, -993)])))
        = some .powBaseNotPositive ∧
      completes (.setParam (flatOp 0 OpField.DET) (BitVec.ofInt 32 (-992))) (setOp s0 0 (opWith [(OpField.MODE, 1)]))
        = true := by decide +kernel
theorem witness_NoteOnRefusedExactlyWithoutFrequency :
    (setOp s0 2 (opWith [(OpField.MODE, 1), (OpField.DET, -993)])).status.inited = true ∧
      refusal (exec (.noteOn 69 127) (setOp s0 2 (opWith [(OpField.MODE, 1), (OpField.DET, -993)])))
        = some .powBaseNotPositive := by decide +kernel
theorem witness_ParameterWritesLeaveSegments :
    (∃ t, exec (.setParam 105 80) r192 = .next t) ∧ ∃ t, exec (.loadVoice 0 4104) { s0 with bank := bankS5 } = .next t :=
  ⟨completes_iff (by decide +kernel), completes_iff (by decide +kernel)⟩

/-- What the S5 bank reads as. -/
theorem bankS5_read (a : Nat) :
    bankS5.read a = if a = 0 then 0xF0 else if a = 21 then 0x2A else if a = 4103 then 0xF7 else 0 := by
  simp only [bankS5, Memory.read, unlistedByte, eq_comm (b := a)]

/-- The S5 bank holds an accepted frame. -/
theorem bankS5_frame : FrameAt bankS5 4104 0 := by
  refine ⟨fun a h => by omega, by rw [bankS5_read]; rfl, fun a h1 h2 => ?_, by rw [bankS5_read]; rfl, by decide⟩
  rw [bankS5_read, if_neg (by omega)]
  split
  · decide
  · rw [if_neg (by omega)]; decide

/-- The first and the last record, 0 and 31. -/
theorem witness_LoadOfAnAcceptedFrame :
    s0.status.inited = true ∧ ({ s0 with bank := bankS5 } : State).bank.wf ∧ 0 < 32 ∧ 31 < 32 ∧ FrameAt bankS5 4104 0 :=
  ⟨by decide, by show Memory.wf bankS5; decide, by decide, by decide, bankS5_frame⟩
theorem witness_RejectedLoadWritesNothing :
    s0.status.inited = true ∧ s0.bank.wf ∧ 32 ≤ 32 ∧ ∀ a : Nat, ¬ FrameAt s0.bank 4104 a :=
  ⟨by decide, by show Memory.wf []; decide, by decide, fun a h => absurd h.start (by show (0 : Byte) ≠ 0xF0; decide)⟩
theorem witness_LoadReadsOnlyTheBuffer :
    s0.bank.wf ∧ Memory.wf [(4104, 1)] ∧ ∀ a, a < 4104 → Memory.read [(4104, 1)] a = s0.bank.read a :=
  ⟨by show Memory.wf []; decide, by decide, fun a h => by rw [read_cons, if_neg (by omega)]; rfl⟩
theorem witness_StepKeepsTheRunInvariant : s0.Inv ∧ step s0 = .next s0 := ⟨on_inv _ (by decide), rfl⟩
/-- A command that runs from a state of the invariant. -/
theorem witness_StepKeepsTheRunInvariant_command :
    ({ s0 with inbox := [.command 0x0600000000000000] } : State).Inv ∧
      ∃ t, exec .tick s0 = .next t ∧ step { s0 with inbox := [.command 0x0600000000000000] } = .next t :=
  ⟨let h := on_inv defaultConfig (by decide); ⟨h.1, h.2, h.3, h.4⟩, _, rfl, rfl⟩
theorem witness_RunsAreRefusedOnlyBySetParam :
    s0.Inv ∧ s0.status.inited = true ∧ ∀ x v, Instr.noteOn 69 0 ≠ .setParam x v :=
  ⟨on_inv _ (by decide), by decide, fun _ _ h => by cases h⟩
theorem witness_AtWriteLatchesFollowParameters :
    (on atWriteCfg).LatchInv ∧ (on atWriteCfg).status.inited = true ∧ (on atWriteCfg).cfg.egRefresh = .atWrite ∧
      step (on atWriteCfg) = .next (on atWriteCfg) := by
  refine ⟨fun _ _ => ⟨fun k => ?_, by decide +kernel⟩, rfl, rfl, rfl⟩
  rw [show (on atWriteCfg).toRegs.op[k] = Op.initial from s0_op _ k]
  decide +kernel
theorem witness_UngatedPitchEnvelopeRests :
    s0.PegInv ∧ s0.status.inited = true ∧ s0.cfg.pegGate = false ∧ s0.indexUsed ∧ step s0 = .next s0 :=
  ⟨fun _ _ => rfl, rfl, rfl, .inl rfl, rfl⟩
theorem witness_FrequencyFollowsTheLatchedNote : s0.FreqInv ∧ step s0 = .next s0 :=
  ⟨fun _ k => .inl (by rw [show s0.op[k] = Op.initial from s0_op _ k]; rfl), rfl⟩
theorem witness_NominalVoiceStaysBounded :
    Functions.standard.Lawful ∧ s0.cfg.num = .exact ∧ s0.status.inited = true ∧ s0.toRegs.Nominal Functions.standard :=
  ⟨standard_lawful, rfl, rfl, on_nominal _ _⟩
theorem witness_StepKeepsAVoiceNominal :
    Functions.standard.Lawful ∧ s0.cfg.num = .exact ∧ s0.toRegs.Nominal Functions.standard ∧ step s0 = .next s0 ∧
      s0.status.inited = true ∧ s0.toRegs.NominalParams :=
  ⟨standard_lawful, rfl, on_nominal _ _, rfl, rfl, (on_nominal Functions.standard _).params⟩
/-- Two states that differ in KRS and in a name register. -/
theorem witness_UnreadRegistersAreUnobservable :
    s0.SameSound (setV (setOp s0 0 (opWith [(OpField.KRS, 5)])) VField.NAME0 65) := by
  refine ⟨rfl, fun k => ?_, fun g hg => ?_, rfl, rfl, rfl, rfl, rfl, rfl, rfl, rfl, rfl, rfl⟩
  · constructor
    · intro f; revert f k; decide +kernel
    all_goals revert k; decide +kernel
  · revert g; decide +kernel
theorem witness_NoteEventsUseTheOldLatches :
    s0.Inv ∧ s0.cfg.egRefresh = .atTick ∧ ∃ t, exec (.setParam 105 80) s0 = .next t :=
  ⟨on_inv _ (by decide), rfl, completes_iff (by decide +kernel)⟩
/-- binary32 at its largest number, and each direction at a small one. -/
theorem witness_FiniteFormatsRoundOnce :
    0 < 24 ∧ (-149 : Int) ≤ 127 - (24 : Nat) + 1 ∧
      |((2 : ℝ) ^ 24 - 1) * (2 : ℝ) ^ (127 - ((24 : Nat) : Int) + 1)|
        ≤ ((2 : ℝ) ^ 24 - 1) * (2 : ℝ) ^ (127 - ((24 : Nat) : Int) + 1) ∧ binary32.holds 0 := by
  refine ⟨by decide, by decide, le_of_eq (abs_of_nonneg (by positivity)), ?_⟩
  exact ⟨by rw [abs_zero]; positivity, 0, -149, by decide, by decide, by simp⟩

end Sys2Proof.Tests
end

section
/-! The envelope latches under EG_REFRESH = at_write (00 R6, 10 R39): a refresh changes nothing exactly when the eight
latches hold their parameters times 0.01, so what keeps the latches and the parameters keeps the invariant. -/

namespace Sys2Proof.Machine

/-! ## The eight latches of an envelope generator -/

/-- The eight latches, as one value. -/
def Eg.latches (e : Eg) : ℚ × ℚ × ℚ × ℚ × ℚ × ℚ × ℚ × ℚ :=
  (e.er1, e.er2, e.er3, e.er4, e.el1, e.el2, e.el3, e.el4)

/-- A refresh changes nothing exactly when each latch already holds its parameter times 0.01 (42 R121). -/
theorem refresh_eq_self_iff (f : NumFormat) (e : Eg) (r1 r2 r3 r4 l1 l2 l3 l4 : Raw) :
    e.refresh f r1 r2 r3 r4 l1 l2 l3 l4 = e ↔
      e.latches = (hundredth f r1, hundredth f r2, hundredth f r3, hundredth f r4,
        hundredth f l1, hundredth f l2, hundredth f l3, hundredth f l4) := by
  cases e
  simp only [Eg.refresh, Eg.latches, Eg.mk.injEq, Prod.mk.injEq, true_and, eq_comm]

theorem gateOn_latches (e : Eg) : e.gateOn.latches = e.latches := by
  unfold Eg.gateOn
  repeat' split
  all_goals rfl

theorem gateOff_latches (e : Eg) : e.gateOff.latches = e.latches := by
  unfold Eg.gateOff
  repeat' split
  all_goals rfl

theorem eg_step_latches (f : NumFormat) (fs : Nat) (e : Eg) : (e.step f fs).latches = e.latches := by
  simp only [Eg.latches, step_latches f fs e]

/-! ## Operators and the pitch envelope whose latches are current -/

/-- Current latches stay current where the eight rate and level registers and the latches are the same. -/
theorem refreshEg_eq_self_of_same {f : NumFormat} {o o' : Op} (h : o.refreshEg f = o)
    (hraw : ∀ g : Fin 21, g.val < 8 → o'.raw g = o.raw g) (hl : o'.eg.latches = o.eg.latches) :
    o'.refreshEg f = o' := by
  have he : o.eg.latches = _ := (refresh_eq_self_iff ..).1 (congrArg Op.eg h)
  have he' : (o'.refreshEg f).eg = o'.eg := by
    refine (refresh_eq_self_iff ..).2 ?_
    rw [hl, he]
    simp only [hraw OpField.R1 (by decide), hraw OpField.R2 (by decide), hraw OpField.R3 (by decide),
      hraw OpField.R4 (by decide), hraw OpField.L1 (by decide), hraw OpField.L2 (by decide),
      hraw OpField.L3 (by decide), hraw OpField.L4 (by decide)]
  exact congrArg (fun e => { o' with eg := e }) he'

/-- The same for the pitch envelope and the first eight voice registers (45 R181). -/
theorem refreshPeg_eq_self_of_same {f : NumFormat} {r r' : Regs} (h : refreshPeg f r = r.peg)
    (hpv : ∀ g : Fin 29, g.val < 8 → r'.pv[g] = r.pv[g]) (hl : r'.peg.latches = r.peg.latches) :
    refreshPeg f r' = r'.peg := by
  refine (refresh_eq_self_iff ..).2 ?_
  rw [hl, (refresh_eq_self_iff ..).1 h, hpv VField.PR1 (by decide), hpv VField.PR2 (by decide),
    hpv VField.PR3 (by decide), hpv VField.PR4 (by decide), hpv VField.PL1 (by decide), hpv VField.PL2 (by decide),
    hpv VField.PL3 (by decide), hpv VField.PL4 (by decide)]

/-- OP.SETPARAM under at_write refreshes when it writes a rate or a level, and otherwise touches neither those
registers nor the latches. -/
theorem setParam_refreshEg {cfg : Config} (hw : cfg.egRefresh = .atWrite) (f : Fin 21) (v : Raw) {o : Op}
    (h : o.refreshEg cfg.num = o) : (o.setParam cfg f v).refreshEg cfg.num = o.setParam cfg f v := by
  by_cases hf : f.val < 8
  · unfold Op.setParam
    simp only [hw, hf, and_self, if_true]
    rfl
  · obtain ⟨-, -, -, -, -, heg⟩ := setParam_spec cfg f v o
    rw [if_neg fun hc => hf hc.2] at heg
    refine refreshEg_eq_self_of_same h (fun g hg => ?_) (congrArg Eg.latches heg)
    rw [setParam_raw, if_neg (by rintro rfl; exact hf hg)]

/-- OP.TICK leaves the latches it has refreshed (43 R154). -/
theorem tick_refreshEg (f : NumFormat) (o : Op) (n : Nat) (m : Num) (x a : ℚ) :
    (o.tick f n m x a).1.refreshEg f = (o.tick f n m x a).1 :=
  refreshEg_eq_self_of_same (o := o.refreshEg f) rfl (fun _ _ => rfl) (eg_step_latches f n _)

/-! ## The operations of the voice -/

theorem latchesCurrent_runtimeReset {cfg : Config} (hw : cfg.egRefresh = .atWrite) (r : Regs) :
    (runtimeReset cfg r).latchesCurrent cfg.num := by
  obtain ⟨-, hpv, -, -, hpeg, hop⟩ := runtimeReset_keeps cfg r
  constructor
  · intro k
    rw [hop k, if_pos hw]
    rfl
  · rw [if_pos hw] at hpeg
    refine refreshPeg_eq_self_of_same
      (r := { r with peg := refreshPeg cfg.num { r with peg := Eg.initial } }) rfl (fun g _ => ?_)
      (congrArg Eg.latches hpeg)
    rw [hpv]

/-- Latches stay current when every operator and the pitch envelope change in neither their parameters nor their
latches. -/
theorem latchesCurrent_map {f : NumFormat} {r : Regs} (h : r.latchesCurrent f) {g : Op → Op} {peg : Eg}
    (hraw : ∀ o i, (g o).raw i = o.raw i) (hop : ∀ o, (g o).eg.latches = o.eg.latches)
    (hpeg : peg.latches = r.peg.latches) :
    ({ r with op := r.op.map g, peg := peg } : Regs).latchesCurrent f := by
  refine ⟨fun k => ?_, refreshPeg_eq_self_of_same h.2 (fun _ _ => rfl) hpeg⟩
  rw [map_get]
  exact refreshEg_eq_self_of_same (h.1 k) (fun i _ => hraw _ i) (hop _)

theorem latchesCurrent_voiceNoteOn {cfg : Config} {r : Regs} (h : r.latchesCurrent cfg.num) (n v : Nat) :
    (voiceNoteOn cfg n v r).latchesCurrent cfg.num := by
  refine latchesCurrent_map h (fun _ _ => rfl) (fun _ => gateOn_latches _) ?_
  split
  · exact gateOn_latches _
  · rfl

theorem latchesCurrent_voiceNoteOff {cfg : Config} {r : Regs} (h : r.latchesCurrent cfg.num) (n : Nat) :
    (voiceNoteOff cfg n r).latchesCurrent cfg.num := by
  refine latchesCurrent_map h (fun _ _ => rfl) (fun _ => gateOff_latches _) ?_
  split
  · exact gateOff_latches _
  · rfl

/-- V.TICK refreshes every latch, and the tick that 44 R174 makes a no-operation changes nothing. -/
theorem latchesCurrent_voiceTick {cfg : Config} {r : Regs} (h : r.latchesCurrent cfg.num) :
    (voiceTick cfg r).1.latchesCurrent cfg.num := by
  rcases voiceTick_cases cfg r with hused | ⟨-, -, hnoop⟩
  · rw [hused]
    constructor
    · intro k
      rw [tickWith_op]
      exact tick_refreshEg ..
    · exact refreshPeg_eq_self_of_same (r := { r with peg := refreshPeg cfg.num r }) rfl (fun _ _ => rfl)
        (eg_step_latches ..)
  · rw [hnoop]
    exact h

/-- V.SETPARAM under at_write (45 R187, 10 R39). -/
theorem latchesCurrent_voiceSetParam {cfg : Config} (hw : cfg.egRefresh = .atWrite) (i : Nat) (v : Raw) (r : Regs)
    (h : r.latchesCurrent cfg.num) : (voiceSetParam cfg i v r).latchesCurrent cfg.num := by
  obtain ⟨hops, hpeg⟩ := h
  rcases voiceSetParam_cases cfg i v r with ⟨-, he⟩ | ⟨_, he⟩ | ⟨-, he⟩
  · rw [he]
    refine ⟨fun k => ?_, hpeg⟩
    rw [modifyOp_get]
    split
    · exact setParam_refreshEg hw _ v (hops _)
    · exact hops k
  · rw [he]
    refine ⟨hops, ?_⟩
    by_cases hi : i - 126 < 8
    · simp only [hw, hi, and_self, if_true]
      rfl
    · simp only [hi, and_false, if_false]
      refine refreshPeg_eq_self_of_same hpeg (fun g hg => ?_) rfl
      exact Vector.getElem_set_ne (by omega) _ (by omega)
  · rw [he]
    exact ⟨hops, hpeg⟩

theorem latchesCurrent_patchLoad {cfg : Config} (hw : cfg.egRefresh = .atWrite) (bank : Memory) (v len : Nat)
    {r : Regs} (h : r.latchesCurrent cfg.num) : (patchLoad cfg bank v len r).latchesCurrent cfg.num := by
  rcases patchLoad_cases cfg bank v len r with ⟨-, he⟩ | ⟨base, -, he⟩
  · rw [he]
    exact h
  · rw [he]
    exact loadRecord_induct cfg bank base (latchesCurrent_voiceSetParam hw) r h

/-! ## Commands and steps -/

/-- Every command keeps the latches current; INIT establishes it, whatever the registers were. -/
theorem exec_latchInv {i : Instr} {s t : State} (hs : s.LatchInv) (h : exec i s = .next t) : t.LatchInv := by
  rcases exec_cases h with ⟨fs, -, ⟨-, rfl⟩ | ⟨-, -, rfl⟩⟩ | ⟨hi, hcmd⟩
  · intro hinit
    cases hinit
  · exact fun _ hw => latchesCurrent_runtimeReset hw _
  · rcases hcmd with ⟨-, rfl⟩ | ⟨n, v, -, -, rfl⟩ | ⟨n, -, rfl⟩ | ⟨x, v, -, -, rfl⟩ | ⟨-, rfl⟩ | ⟨v, len, -, rfl⟩
    · exact fun _ hw => latchesCurrent_runtimeReset hw _
    · exact fun _ hw => latchesCurrent_voiceNoteOn (hs hi hw) n v
    · exact fun _ hw => latchesCurrent_voiceNoteOff (hs hi hw) n
    · exact fun _ hw => latchesCurrent_voiceSetParam hw x v _ (hs hi hw)
    · exact fun _ hw => latchesCurrent_voiceTick (hs hi hw)
    · exact fun _ hw => latchesCurrent_patchLoad hw s.bank v len (hs hi hw)

end Sys2Proof.Machine

open Sys2Proof Sys2Proof.Machine

/-- Settles O53: a step that runs no command leaves the registers, and every command keeps the latches current. -/
theorem atWriteLatchesFollowParameters : Obligations.AtWriteLatchesFollowParameters := by
  intro s t hs h
  rcases step_cases' h with ⟨-, rfl⟩ | ⟨a, bs, rest, -, rfl⟩ | ⟨w, rest, e, -, -, rfl⟩ | ⟨w, rest, i, -, -, hexec⟩
  · exact hs
  · exact hs
  · exact hs
  · exact exec_latchInv (s := { s with inbox := rest }) hs hexec
end

section
/-! The configured powers (00 R6 to R8): `exp2` and `pow` are computed at integers, where every lawful choice of the
configuration functions agrees, and are the configuration functions elsewhere. -/

namespace Sys2Proof.Machine

/-- The machine's `exp2(x)` is the configuration function's value rounded once (00 R7, R8). -/
theorem val_exp2 {F : Functions} (hF : F.Lawful) (f : NumFormat) (x : ℚ) :
    (exp2 f x).val F = f.roundReal (F.exp2 x) := by
  rw [exp2, NumFormat.val_round]
  split
  · next hx =>
    have hcast : (x : ℝ) = (x.num : ℝ) := by exact_mod_cast (Rat.den_eq_one_iff x).1 hx |>.symm
    rw [Num.val_rat, hcast, hF.exp2_int]
    push_cast
    rfl
  · rw [Num.val_exp2Of]

/-- The machine's `pow(b, e)` is the configuration function's value rounded once (00 R7, R8). -/
theorem val_pow {F : Functions} (hF : F.Lawful) (f : NumFormat) (b e : ℚ) :
    (pow f b e).val F = f.roundReal (F.pow b e) := by
  rw [pow, NumFormat.val_round]
  split
  · next h =>
    obtain ⟨hb, he⟩ := h
    have hcast : (e : ℝ) = (e.num : ℝ) := by exact_mod_cast (Rat.den_eq_one_iff e).1 he |>.symm
    rw [Num.val_rat, hcast, hF.pow_int b e.num (by exact_mod_cast hb)]
    push_cast
    rfl
  · rw [Num.val_powOf]

end Sys2Proof.Machine

open Sys2Proof Sys2Proof.Machine

/-- Settles O22: at an integer both are computed, and their values are the lawful configuration functions'. -/
theorem powersAreExactAtIntegers : Obligations.PowersAreExactAtIntegers := by
  refine ⟨fun n => ?_, fun b n hb => ?_, fun F hF => ⟨fun x => ?_, fun x y => ?_, fun b e hb => ?_⟩⟩
  · simp [exp2, NumFormat.round]
  · simp [pow, NumFormat.round, hb]
  · rw [val_exp2 hF, roundReal_exact]
    exact hF.exp2_pos x
  · simp only [val_exp2 hF, roundReal_exact]
    rw [Rat.cast_add, hF.exp2_add]
  · rw [val_pow hF, roundReal_exact]
    exact hF.pow_pos b e (by exact_mod_cast hb)

/-- Settles O23: the configured values, rounded once; the standard functions are the real powers. -/
theorem powersAreTheConfiguredPowers : Obligations.PowersAreTheConfiguredPowers := by
  refine ⟨fun F f hF => ⟨val_exp2 hF f, val_pow hF f⟩, fun x => ?_, fun b e _ => ?_⟩
  · rw [val_exp2 standard_lawful]
    rfl
  · rw [val_pow standard_lawful]
    rfl
end

section
/-! Rounding by a finite format (00 R7): the rounded number is a neighbour of `x` on the grid of `x`'s unit, the format
holds no number strictly between `x` and a neighbour, and the direction of rounding says which neighbour it is. -/

namespace Sys2Proof

/-! ## The integer a direction rounds to -/

/-- Both directions to nearest round down below a half and up above it. -/
theorem toInt_nearest {m : Rounding} (hm : m = .nearestEven ∨ m = .nearestAway) (w : ℝ) :
    (m.toInt w = ⌊w⌋ ∧ w - ⌊w⌋ ≤ 1 / 2) ∨ (m.toInt w = ⌊w⌋ + 1 ∧ 1 / 2 ≤ w - ⌊w⌋) := by
  have key : ∀ tie : Int, (tie = ⌊w⌋ ∨ tie = ⌊w⌋ + 1) →
      ∀ n : Int, n = (if w - ⌊w⌋ < 1 / 2 then ⌊w⌋ else if 1 / 2 < w - ⌊w⌋ then ⌊w⌋ + 1 else tie) →
        (n = ⌊w⌋ ∧ w - ⌊w⌋ ≤ 1 / 2) ∨ (n = ⌊w⌋ + 1 ∧ 1 / 2 ≤ w - ⌊w⌋) := by
    rintro tie htie n rfl
    split
    · next hlt => exact .inl ⟨rfl, hlt.le⟩
    · next hge =>
      split
      · next hgt => exact .inr ⟨rfl, hgt.le⟩
      · next hle => exact htie.imp (⟨·, not_lt.1 hle⟩) (⟨·, not_lt.1 hge⟩)
  rcases hm with rfl | rfl
  · exact key _ (ite_eq_or_eq ..) _ rfl
  · exact key _ (ite_eq_or_eq ..).symm _ rfl

/-- Between two integers the next one up is above. -/
theorem floor_add_one_le_ceil {w : ℝ} (h : 0 < w - ⌊w⌋) : ⌊w⌋ + 1 ≤ ⌈w⌉ :=
  Int.lt_ceil.2 (sub_pos.1 h)

/-- Every direction rounds to one of the two neighbouring integers. -/
theorem toInt_between (m : Rounding) (w : ℝ) : ⌊w⌋ ≤ m.toInt w ∧ m.toInt w ≤ ⌈w⌉ := by
  have hle := Int.floor_le_ceil w
  have nearest : (m = .nearestEven ∨ m = .nearestAway) → ⌊w⌋ ≤ m.toInt w ∧ m.toInt w ≤ ⌈w⌉ := by
    intro hm
    rcases toInt_nearest hm w with ⟨hn, -⟩ | ⟨hn, hd⟩
    · exact ⟨hn.ge, hn.le.trans hle⟩
    · have := floor_add_one_le_ceil (lt_of_lt_of_le (by norm_num) hd)
      omega
  cases m with
  | nearestEven => exact nearest (.inl rfl)
  | nearestAway => exact nearest (.inr rfl)
  | towardZero =>
    simp only [Rounding.toInt]
    split
    · exact ⟨le_rfl, hle⟩
    · exact ⟨hle, le_rfl⟩
  | upward => exact ⟨hle, le_rfl⟩
  | downward => exact ⟨le_rfl, hle⟩

/-- To nearest: neither neighbouring integer is nearer. -/
theorem toInt_nearest_le {m : Rounding} (hm : m = .nearestEven ∨ m = .nearestAway) (w : ℝ) :
    |w - m.toInt w| ≤ w - ⌊w⌋ ∧ |w - m.toInt w| ≤ ⌈w⌉ - w := by
  have hlo := Int.floor_le w
  have hhi := Int.le_ceil w
  have hsucc : 0 < w - ⌊w⌋ → (⌊w⌋ : ℝ) + 1 ≤ ⌈w⌉ := fun h => by exact_mod_cast floor_add_one_le_ceil h
  rcases toInt_nearest hm w with ⟨hn, hd⟩ | ⟨hn, hd⟩
  · rw [hn, abs_of_nonneg (by linarith)]
    refine ⟨le_rfl, ?_⟩
    rcases (sub_nonneg.2 hlo).eq_or_lt with h0 | hpos
    · linarith
    · linarith [hsucc hpos]
  · have hlt := Int.lt_floor_add_one w
    rw [hn, Int.cast_add, Int.cast_one, abs_of_neg (by linarith)]
    exact ⟨by linarith, by linarith [hsucc (by linarith)]⟩

/-! ## The unit of `x` and its two neighbours on the unit's grid -/

/-- The unit in which a format of precision `p` and least exponent `emin` holds `x`. -/
noncomputable def ulp (p : Nat) (emin : Int) (x : ℝ) : ℝ := (2 : ℝ) ^ unitExp p emin x

/-- The greatest multiple of the unit that is not above `x`. -/
noncomputable def gridBelow (p : Nat) (emin : Int) (x : ℝ) : ℝ := ⌊x / ulp p emin x⌋ * ulp p emin x

/-- The least multiple of the unit that is not below `x`. -/
noncomputable def gridAbove (p : Nat) (emin : Int) (x : ℝ) : ℝ := ⌈x / ulp p emin x⌉ * ulp p emin x

section
variable {p : Nat} {emin emax : Int} {mode : Rounding} {x z : ℝ}

theorem ulp_pos : 0 < ulp p emin x := zpow_pos (by norm_num) _

theorem ulp_neg : ulp p emin (-x) = ulp p emin x := by rw [ulp, ulp, unitExp, unitExp, abs_neg]

theorem gridBelow_le : gridBelow p emin x ≤ x := (le_div_iff₀ ulp_pos).1 (Int.floor_le _)

theorem le_gridAbove : x ≤ gridAbove p emin x := (div_le_iff₀ ulp_pos).1 (Int.le_ceil _)

theorem gridBelow_neg : gridBelow p emin (-x) = -gridAbove p emin x := by
  rw [gridBelow, gridAbove, ulp_neg, neg_div, Int.floor_neg, Int.cast_neg, neg_mul]

theorem gridBelow_nonneg (hx : 0 ≤ x) : 0 ≤ gridBelow p emin x :=
  mul_nonneg (by exact_mod_cast Int.floor_nonneg.2 (div_nonneg hx ulp_pos.le)) ulp_pos.le

/-- `x` has at most `p` digits before the point of its unit. -/
theorem abs_lt_ulp (hx : x ≠ 0) : |x| < 2 ^ p * ulp p emin x := by
  refine lt_of_lt_of_le (floorLog2_spec (abs_pos.2 hx)).2 ?_
  rw [ulp, ← zpow_natCast, ← zpow_add₀ (by norm_num)]
  refine zpow_le_zpow_right₀ (by norm_num) ?_
  unfold unitExp
  omega

/-- A number the format holds is a multiple of `x`'s unit, or is smaller in magnitude than `2^(p-1)` units, which is
itself a multiple and no larger than `|x|`. -/
theorem holds_cases (hp : 0 < p) (hx : x ≠ 0) (hz : (NumFormat.finite p emin emax mode).holds z) :
    (∃ n : Int, z = n * ulp p emin x) ∨
      (|z| < (2 ^ (p - 1) : Int) * ulp p emin x ∧ (2 ^ (p - 1) : Int) * ulp p emin x ≤ |x|) := by
  obtain ⟨-, n, k, hk, hn, rfl⟩ := hz
  rcases le_or_gt (unitExp p emin x) k with hqk | hkq
  · refine .inl ⟨n * 2 ^ (k - unitExp p emin x).toNat, ?_⟩
    rw [ulp]
    push_cast
    rw [← zpow_natCast, Int.toNat_of_nonneg (by omega), mul_assoc, ← zpow_add₀ (by norm_num), sub_add_cancel]
  · have hq : unitExp p emin x = floorLog2 |x| - p + 1 := by unfold unitExp at hkq ⊢; omega
    have hpow : ((2 ^ (p - 1) : Int) : ℝ) * ulp p emin x = 2 ^ floorLog2 |x| := by
      rw [ulp, hq]
      push_cast
      rw [← zpow_natCast, ← zpow_add₀ (by norm_num)]
      congr 1
      omega
    rw [hpow]
    refine .inr ⟨?_, (floorLog2_spec (abs_pos.2 hx)).1⟩
    have hn' : |(n : ℝ)| < 2 ^ p := by exact_mod_cast hn
    calc |(n : ℝ) * 2 ^ k| = |(n : ℝ)| * 2 ^ k := by rw [abs_mul, abs_of_pos (by positivity : (0 : ℝ) < 2 ^ k)]
      _ < 2 ^ p * 2 ^ k := mul_lt_mul_of_pos_right hn' (by positivity)
      _ = (2 : ℝ) ^ ((p : Int) + k) := by rw [zpow_add₀ (by norm_num), zpow_natCast]
      _ ≤ 2 ^ floorLog2 |x| := zpow_le_zpow_right₀ (by norm_num) (by omega)

/-- A finite format holds no number between `x` and its neighbour below. -/
theorem le_gridBelow_of_holds (hp : 0 < p) (hz : (NumFormat.finite p emin emax mode).holds z) (hzx : z ≤ x) :
    z ≤ gridBelow p emin x := by
  rcases eq_or_ne x 0 with rfl | hx
  · simpa [gridBelow] using hzx
  have below : ∀ n : Int, n * ulp p emin x ≤ x → n * ulp p emin x ≤ gridBelow p emin x := fun n hn =>
    mul_le_mul_of_nonneg_right (by exact_mod_cast Int.le_floor.2 ((le_div_iff₀ ulp_pos).2 hn)) ulp_pos.le
  rcases holds_cases hp hx hz with ⟨n, rfl⟩ | ⟨hlt, hle⟩
  · exact below n hzx
  · rcases abs_cases x with ⟨habs, -⟩ | ⟨habs, -⟩
    · exact (le_abs_self z).trans (hlt.le.trans (below _ (hle.trans_eq habs)))
    · linarith [neg_abs_le z]

/-- A finite format holds no number between `x` and its neighbour above. -/
theorem gridAbove_le_of_holds (hp : 0 < p) (hz : (NumFormat.finite p emin emax mode).holds z) (hxz : x ≤ z) :
    gridAbove p emin x ≤ z := by
  have h := le_gridBelow_of_holds hp (holds_neg hz) (neg_le_neg hxz)
  rw [gridBelow_neg] at h
  exact neg_le_neg_iff.1 h

/-! ## The rounded number -/

/-- The unit of a number in range is at most the unit of the largest numbers. -/
theorem unitExp_le (hx : x ≠ 0) (he : emin ≤ emax - p + 1)
    (hmax : |x| ≤ ((2 : ℝ) ^ p - 1) * (2 : ℝ) ^ (emax - p + 1)) : unitExp p emin x ≤ emax - p + 1 := by
  have hlt : (2 : ℝ) ^ floorLog2 |x| < 2 ^ (emax + 1) :=
    calc (2 : ℝ) ^ floorLog2 |x| ≤ |x| := (floorLog2_spec (abs_pos.2 hx)).1
      _ ≤ ((2 : ℝ) ^ p - 1) * (2 : ℝ) ^ (emax - p + 1) := hmax
      _ < 2 ^ p * (2 : ℝ) ^ (emax - p + 1) := mul_lt_mul_of_pos_right (by linarith) (by positivity)
      _ = 2 ^ (emax + 1) := by rw [← zpow_natCast, ← zpow_add₀ (by norm_num)]; congr 1; omega
  have := (zpow_lt_zpow_iff_right₀ (by norm_num : (1 : ℝ) < 2)).1 hlt
  unfold unitExp
  omega

/-- A rounded quotient is no larger than an integer that bounds the quotient. -/
theorem abs_toInt_le {w : ℝ} {b : Int} (h : |w| ≤ b) : |mode.toInt w| ≤ b := by
  obtain ⟨hlo, hhi⟩ := toInt_between mode w
  obtain ⟨h1, h2⟩ := abs_le.1 h
  have hfloor : -b ≤ ⌊w⌋ := Int.le_floor.2 (by exact_mod_cast h1)
  have hceil : ⌈w⌉ ≤ b := Int.ceil_le.2 h2
  exact abs_le.2 ⟨hfloor.trans hlo, hhi.trans hceil⟩

/-- A multiple `n` of a unit is held if `|n| < 2^p` or, below the top of the range, if `|n| = 2^p`. -/
theorem holds_multiple (hp : 0 < p) {n q : Int} (hq : emin ≤ q) (hn : |n| ≤ 2 ^ p)
    (htop : q + p < emax + 1 ∨ (q + p ≤ emax + 1 ∧ |n| < 2 ^ p)) :
    (NumFormat.finite p emin emax mode).holds (n * (2 : ℝ) ^ q) := by
  have habs : |(n : ℝ) * 2 ^ q| = |(n : ℝ)| * 2 ^ q := by rw [abs_mul, abs_of_pos (by positivity : (0 : ℝ) < 2 ^ q)]
  have hpow : (2 : ℝ) ^ p * 2 ^ q = 2 ^ (q + p) := by rw [add_comm, zpow_add₀ (by norm_num), zpow_natCast]
  have hn' : |(n : ℝ)| ≤ 2 ^ p := by exact_mod_cast hn
  refine ⟨?_, ?_⟩
  · rw [habs]
    rcases htop with hlt | ⟨hle, hlt⟩
    · refine lt_of_le_of_lt (mul_le_mul_of_nonneg_right hn' (by positivity)) ?_
      rw [hpow]
      exact zpow_lt_zpow_right₀ (by norm_num) hlt
    · have hlt' : |(n : ℝ)| < 2 ^ p := by exact_mod_cast hlt
      refine lt_of_lt_of_le (mul_lt_mul_of_pos_right hlt' (by positivity)) ?_
      rw [hpow]
      exact zpow_le_zpow_right₀ (by norm_num) hle
  · rcases hn.lt_or_eq with hlt | heq
    · exact ⟨n, q, hq, hlt, rfl⟩
    · have hone : (1 : Int) < 2 ^ p := one_lt_pow₀ (by norm_num) (by omega)
      rcases abs_eq (by positivity) |>.1 heq with rfl | rfl
      · refine ⟨1, q + p, by omega, by simpa using hone, ?_⟩
        rw [← hpow]
        push_cast
        ring
      · refine ⟨-1, q + p, by omega, by simpa using hone, ?_⟩
        rw [← hpow]
        push_cast
        ring

/-- The multiple of the unit that a number in range rounds to is a number of the format. -/
theorem holds_toInt_mul_ulp (hp : 0 < p) (hx : x ≠ 0) (he : emin ≤ emax - p + 1)
    (hmax : |x| ≤ ((2 : ℝ) ^ p - 1) * (2 : ℝ) ^ (emax - p + 1)) :
    (NumFormat.finite p emin emax mode).holds (mode.toInt (x / ulp p emin x) * ulp p emin x) := by
  have hquot : |x / ulp p emin x| = |x| / ulp p emin x := by rw [abs_div, abs_of_pos ulp_pos]
  have hle : |mode.toInt (x / ulp p emin x)| ≤ 2 ^ p := by
    refine abs_toInt_le ?_
    rw [hquot, div_le_iff₀ ulp_pos]
    exact_mod_cast (abs_lt_ulp hx).le
  have hq := unitExp_le hx he hmax
  refine holds_multiple hp (le_max_left ..) hle ?_
  rcases hq.lt_or_eq with hlt | heq
  · exact .inl (by omega)
  · refine .inr ⟨by omega, Int.lt_of_le_sub_one (abs_toInt_le ?_)⟩
    rw [hquot, div_le_iff₀ ulp_pos, ulp, heq]
    exact_mod_cast hmax

/-- A number in range rounds to a multiple of its unit, which the format holds. -/
theorem roundReal_finite (hp : 0 < p) (he : emin ≤ emax - p + 1)
    (hmax : |x| ≤ ((2 : ℝ) ^ p - 1) * (2 : ℝ) ^ (emax - p + 1)) :
    (NumFormat.finite p emin emax mode).holds ((NumFormat.finite p emin emax mode).roundReal x) ∧
      (NumFormat.finite p emin emax mode).roundReal x = mode.toInt (x / ulp p emin x) * ulp p emin x := by
  rcases eq_or_ne x 0 with rfl | hx
  · have h0 : mode.toInt (0 : ℝ) = 0 := by exact_mod_cast toInt_intCast (α := ℝ) mode 0
    rw [roundReal_zero, zero_div, h0, Int.cast_zero, zero_mul]
    exact ⟨⟨by rw [abs_zero]; positivity, 0, emin, le_rfl, by simp, by simp⟩, rfl⟩
  · have hholds := holds_toInt_mul_ulp (mode := mode) hp hx he hmax
    have heq : (NumFormat.finite p emin emax mode).roundReal x =
        mode.toInt (x / ulp p emin x) * ulp p emin x := by
      simp only [NumFormat.roundReal, NumFormat.roundTo, if_neg hx]
      exact if_neg (not_le.2 hholds.1)
    exact ⟨heq ▸ hholds, heq⟩

/-- To nearest: neither neighbour on the grid is nearer than the rounded number. -/
theorem abs_sub_toInt_mul_ulp_le (hm : mode = .nearestEven ∨ mode = .nearestAway) :
    |x - mode.toInt (x / ulp p emin x) * ulp p emin x| ≤ x - gridBelow p emin x ∧
      |x - mode.toInt (x / ulp p emin x) * ulp p emin x| ≤ gridAbove p emin x - x := by
  obtain ⟨hlo, hhi⟩ := toInt_nearest_le hm (x / ulp p emin x)
  have hu := ulp_pos (p := p) (emin := emin) (x := x)
  have hscale : ∀ n : Int, x - n * ulp p emin x = (x / ulp p emin x - n) * ulp p emin x := fun n => by
    rw [sub_mul, div_mul_cancel₀ _ hu.ne']
  rw [hscale, abs_mul, abs_of_pos hu, gridBelow, gridAbove, ← neg_sub x, hscale, hscale, ← neg_mul, neg_sub]
  exact ⟨mul_le_mul_of_nonneg_right hlo hu.le, mul_le_mul_of_nonneg_right hhi hu.le⟩

/-- Toward zero: the neighbour on the side of 0. -/
theorem toInt_towardZero_mul_ulp :
    (0 ≤ x ∧ Rounding.towardZero.toInt (x / ulp p emin x) * ulp p emin x = gridBelow p emin x) ∨
      (x < 0 ∧ Rounding.towardZero.toInt (x / ulp p emin x) * ulp p emin x = gridAbove p emin x) := by
  rcases le_or_gt 0 x with hx | hx
  · refine .inl ⟨hx, ?_⟩
    simp only [Rounding.toInt, if_pos (div_nonneg hx ulp_pos.le)]
    rfl
  · refine .inr ⟨hx, ?_⟩
    simp only [Rounding.toInt, if_neg (not_le.2 (div_neg_of_neg_of_pos hx ulp_pos))]
    rfl

/-- No number that the format holds, and that is no farther from 0 than `x ≥ 0`, is farther from 0 than `x`'s neighbour
below. -/
theorem abs_le_gridBelow_of_holds (hp : 0 < p) (hz : (NumFormat.finite p emin emax mode).holds z) (h : |z| ≤ x) :
    |z| ≤ gridBelow p emin x :=
  abs_le'.2 ⟨le_gridBelow_of_holds hp hz ((le_abs_self z).trans h),
    le_gridBelow_of_holds hp (holds_neg hz) ((neg_le_abs z).trans h)⟩

end

end Sys2Proof

open Sys2Proof

/-- Settles O60: each direction of rounding takes a neighbour on the grid, and the format holds nothing nearer on
that side. -/
theorem finiteFormatsRoundOnce : Obligations.FiniteFormatsRoundOnce := by
  intro p emin emax mode x hp he hmax
  obtain ⟨hholds, hround⟩ := roundReal_finite (mode := mode) hp he hmax
  dsimp only
  refine ⟨hholds, fun hm z hz => ?_, ?_, ?_, ?_⟩ <;> rw [hround]
  · obtain ⟨hlo, hhi⟩ := abs_sub_toInt_mul_ulp_le (p := p) (emin := emin) (x := x) hm
    rcases le_total z x with hzx | hxz
    · rw [abs_of_nonneg (sub_nonneg.2 hzx)]
      linarith [le_gridBelow_of_holds hp hz hzx]
    · rw [abs_of_nonpos (sub_nonpos.2 hxz)]
      linarith [gridAbove_le_of_holds hp hz hxz]
  · rintro rfl
    exact ⟨le_gridAbove, fun z hz => gridAbove_le_of_holds hp hz⟩
  · rintro rfl
    exact ⟨gridBelow_le, fun z hz => le_gridBelow_of_holds hp hz⟩
  · rintro rfl
    rcases toInt_towardZero_mul_ulp (p := p) (emin := emin) (x := x) with ⟨hx, heq⟩ | ⟨hx, heq⟩ <;> rw [heq]
    · have hy := gridBelow_nonneg (p := p) (emin := emin) hx
      rw [abs_of_nonneg hx, abs_of_nonneg hy]
      exact ⟨gridBelow_le, mul_nonneg hx hy, fun z hz => abs_le_gridBelow_of_holds hp hz⟩
    · have hneg := gridBelow_neg (p := p) (emin := emin) (x := x)
      have hy := gridBelow_nonneg (p := p) (emin := emin) (neg_nonneg.2 hx.le)
      have hle := gridBelow_le (p := p) (emin := emin) (x := -x)
      rw [← abs_neg x, ← abs_neg (gridAbove p emin x), ← neg_mul_neg, ← hneg, abs_of_pos (neg_pos.2 hx),
        abs_of_nonneg hy]
      exact ⟨hle, mul_nonneg (neg_nonneg.2 hx.le) hy, fun z hz => abs_le_gridBelow_of_holds hp hz⟩
end

section
/-! What the front of the command stream makes of a step (10 R35, 47 R220), and the operands a decoded command can
have (30 R82). -/

namespace Sys2Proof

/-- Every operand is read from a field of its own width (30 R82). -/
theorem wf_of_decode {w : Word} {i : Instr} (h : decode w = .ok i) : i.wf = true := by
  have hA : Word.fieldA w < 2 ^ 24 := (w.extractLsb 55 32).isLt
  have hB : (Word.fieldB w).toNat < 2 ^ 32 := (Word.fieldB w).isLt
  have hnote : Word.fieldNote w < 128 := (w.extractLsb 46 40).isLt
  have hvelocity : Word.fieldVelocity w < 128 := (w.extractLsb 38 32).isLt
  unfold decode at h
  split at h <;> cases h <;> simp only [Instr.wf, hA, hB, hnote, hvelocity, decide_true, Bool.and_self]

namespace Machine

variable {s : State} {rest : List HostInput}

theorem fetch_nil (h : s.inbox = []) : fetch s = .idle := by
  rw [fetch, h]

theorem fetch_bankWrite {a : Nat} {bs : List Byte} (h : s.inbox = .bankWrite a bs :: rest) :
    fetch s = .hostWrite { s with bank := s.bank.writeBytes a bs, inbox := rest } := by
  rw [fetch, h]

theorem fetch_reserved {w : Word} {e : DecodeError} (h : s.inbox = .command w :: rest) (hd : decode w = .error e) :
    fetch s = .reserved { s with inbox := rest } := by
  simp only [fetch, h, hd]

theorem fetch_command {w : Word} {i : Instr} (h : s.inbox = .command w :: rest) (hd : decode w = .ok i) :
    fetch s = .run i { s with inbox := rest } := by
  simp only [fetch, h, hd]

end Machine

end Sys2Proof

open Sys2Proof Sys2Proof.Machine

/-- Settles O6: the word presented is fetched as the command it decodes to. -/
theorem stepRunsTheDecodedCommand : Obligations.StepRunsTheDecodedCommand := by
  intro s w rest i hin hd
  rw [step, fetch_command hin hd]
end

section
/-! The invariant of every run (10 R27 to R31, 43 R152, R158, 20 R62): what each operation of an operator keeps, what
each operation of the voice keeps, and so what every command and every step keep. -/

namespace Sys2Proof.Machine

/-! ## Latch refreshes -/

theorem refreshEg_between (f : NumFormat) {o : Op} (h : o.eg.between) : (o.refreshEg f).eg.between :=
  refresh_between f h _ _ _ _ _ _ _ _

theorem refreshPeg_between (f : NumFormat) {r : Regs} (h : r.peg.between) : (refreshPeg f r).between :=
  refresh_between f h _ _ _ _ _ _ _ _

/-! ## Operators -/

/-- With all parameters 0 an operator is in ratio mode, so its frequency has a value (43 R151). -/
theorem freqDefined_zeroParams (o : Op) : ({ o with p := Vector.replicate 21 0 } : Op).freqDefined = true := by
  simp only [Op.freqDefined, zeroParams_raw]
  decide

variable {f : NumFormat} {o : Op}

theorem op_inv_runtimeReset (h : o.freqDefined = true) : o.runtimeReset.Inv f where
  note_lt := by simp
  freq_defined := h
  phase_range _ F := by simp
  eg_between _ := initial_between

theorem op_inv_refreshEg (h : o.Inv f) (q : NumFormat) : (o.refreshEg q).Inv f where
  note_lt := h.note_lt
  freq_defined := h.freq_defined
  phase_range := h.phase_range
  eg_between he := refreshEg_between q (h.eg_between he)

theorem op_inv_noteOn (h : o.Inv f) (q : NumFormat) {n : Nat} (hn : n < 128) (v : Nat) : (o.noteOn q n v).Inv f where
  note_lt := hn
  freq_defined := h.freq_defined
  phase_range _ F := by simp
  eg_between _ := gateOn_between _

theorem op_inv_noteOff (h : o.Inv f) (n : Nat) : (o.noteOff n).Inv f where
  note_lt := h.note_lt
  freq_defined := h.freq_defined
  phase_range := h.phase_range
  eg_between he := gateOff_between (h.eg_between he)

/-- OP.TICK wraps the phase by `fmod1` and steps the refreshed envelope (43 R154, R158). -/
theorem op_inv_tick (h : o.Inv f) (fs : Nat) (m : Num) (x a : ℚ) : (o.tick f fs m x a).1.Inv f where
  note_lt := h.note_lt
  freq_defined := h.freq_defined
  phase_range he F := by
    subst he
    exact fmod1_range F _
  eg_between he := by
    subst he
    exact step_between fs ((op_inv_refreshEg h .exact).eg_between rfl)

/-- OP.SETPARAM leaves a frequency that has a value if its own recompute, where it makes one, has one (43 R153). -/
theorem freqDefined_setParam (cfg : Config) {g : Fin 21} {v : Raw} (h : o.freqDefined = true)
    (hd : o.setParamDefined g v = true) : (o.setParam cfg g v).freqDefined = true := by
  have hstore : (o.setParam cfg g v).freqDefined = (o.store g v).freqDefined :=
    freqDefined_congr (by rw [setParam_raw, store_raw]) (by rw [setParam_raw, store_raw])
  rw [hstore]
  cases hg : isFreqField g with
  | false => rw [store_freqDefined hg, h]
  | true => simpa [Op.setParamDefined, hg] using hd

theorem op_inv_setParam (cfg : Config) {g : Fin 21} {v : Raw} (h : o.Inv f) (hd : o.setParamDefined g v = true) :
    (o.setParam cfg g v).Inv f := by
  obtain ⟨-, hphase, -, hnote, -, heg⟩ := setParam_spec cfg g v o
  refine ⟨hnote ▸ h.note_lt, freqDefined_setParam cfg h.freq_defined hd, hphase ▸ h.phase_range, fun he => ?_⟩
  rw [heg]
  split
  · exact refreshEg_between _ (h.eg_between he)
  · exact h.eg_between he

/-! ## The voice -/

variable {cfg : Config} {r : Regs}

theorem regs_inv_runtimeReset (hpos : 0 < r.fs) (hlt : r.fs < 2 ^ 32) (hsup : fsSupported cfg r.fs = true)
    (hfreq : ∀ k : Fin 6, (r.op[k]).freqDefined = true) : (runtimeReset cfg r).Inv cfg := by
  obtain ⟨hfs, -, -, -, hpeg, hop⟩ := runtimeReset_keeps cfg r
  refine ⟨hfs ▸ hpos, hfs ▸ hlt, hfs ▸ hsup, fun k => ?_, fun _ => ?_⟩
  · rw [hop k]
    split
    · exact op_inv_refreshEg (op_inv_runtimeReset (hfreq k)) _
    · exact op_inv_runtimeReset (hfreq k)
  · rw [hpeg]
    split
    · exact refreshPeg_between _ initial_between
    · exact initial_between

theorem regs_inv_voiceNoteOn (h : r.Inv cfg) {n : Nat} (hn : n < 128) (v : Nat) :
    (voiceNoteOn cfg n v r).Inv cfg := by
  refine ⟨h.fs_pos, h.fs_lt, h.fs_supported, fun k => ?_, fun he => ?_⟩
  · rw [voiceNoteOn_op, map_get]
    exact op_inv_noteOn (h.ops k) _ hn v
  · unfold voiceNoteOn
    split
    · exact gateOn_between _
    · exact h.peg_between he

theorem regs_inv_voiceNoteOff (h : r.Inv cfg) (n : Nat) : (voiceNoteOff cfg n r).Inv cfg := by
  refine ⟨h.fs_pos, h.fs_lt, h.fs_supported, fun k => ?_, fun he => ?_⟩
  · rw [voiceNoteOff_op, map_get]
    exact op_inv_noteOff (h.ops k) n
  · unfold voiceNoteOff
    split
    · exact gateOff_between (h.peg_between he)
    · exact h.peg_between he

theorem regs_inv_voiceTick (h : r.Inv cfg) : (voiceTick cfg r).1.Inv cfg := by
  rcases voiceTick_cases cfg r with hused | ⟨-, -, hnoop⟩
  · rw [hused]
    refine ⟨h.fs_pos, h.fs_lt, h.fs_supported, fun k => ?_, fun he => ?_⟩
    · rw [tickWith_op]
      exact op_inv_tick (h.ops k) ..
    · rw [tickWith_peg, he]
      exact step_between r.fs (refreshPeg_between .exact (h.peg_between he))
  · rw [hnoop]
    exact h

theorem regs_inv_voiceSetParam {i : Nat} {v : Raw} (h : r.Inv cfg) (hd : setParamDefined i v r = true) :
    (voiceSetParam cfg i v r).Inv cfg := by
  rcases voiceSetParam_cases cfg i v r with ⟨hi, he⟩ | ⟨_, he⟩ | ⟨-, he⟩ <;> rw [he]
  · refine ⟨h.fs_pos, h.fs_lt, h.fs_supported, fun k => ?_, h.peg_between⟩
    rw [modifyOp_get]
    split
    · exact op_inv_setParam cfg (h.ops _) (by simpa [setParamDefined, hi] using hd)
    · exact h.ops k
  · refine ⟨h.fs_pos, h.fs_lt, h.fs_supported, h.ops, fun hexact => ?_⟩
    dsimp only
    split
    · exact refreshPeg_between _ (h.peg_between hexact)
    · exact h.peg_between hexact
  · exact h

/-- What every V.SETPARAM whose recompute has a value keeps, a run of field writes whose recomputes have one keeps. -/
theorem writeFields_induct_defined {P : Regs → Prop} (cfg : Config)
    (step : ∀ i v r, setParamDefined i v r = true → P r → P (voiceSetParam cfg i v r)) :
    ∀ (vs : List Raw) (i : Nat) (r : Regs), WritesDefined cfg i vs r → P r → P (writeFields cfg i vs r)
  | [], _, _, _, h => h
  | v :: vs, i, r, ⟨hd, hds⟩, h => writeFields_induct_defined cfg step vs (i + 1) _ hds (step i v r hd h)

/-- The same of a load, all of whose recomputes have a value (46 R204, 43 R152 corner (c)). -/
theorem loadRecord_induct_defined {P : Regs → Prop} (cfg : Config) (bank : Memory) (base : Nat)
    (step : ∀ i v r, setParamDefined i v r = true → P r → P (voiceSetParam cfg i v r)) {r : Regs} (h : P r) :
    P (loadRecord cfg bank base r) := by
  obtain ⟨hop, hvoice⟩ := loadRecord_defined cfg bank base
  have hblock : ∀ o, o < 6 → ∀ r, P r → P (loadOpBlock cfg bank base o r) := fun o ho r =>
    writeFields_induct_defined cfg step _ _ r (hop o ho r)
  refine writeFields_induct_defined cfg step _ _ _ (hvoice _) ?_
  exact hblock 5 (by decide) _ <| hblock 4 (by decide) _ <| hblock 3 (by decide) _ <| hblock 2 (by decide) _ <|
    hblock 1 (by decide) _ <| hblock 0 (by decide) _ h

theorem regs_inv_patchLoad (h : r.Inv cfg) (bank : Memory) (v len : Nat) : (patchLoad cfg bank v len r).Inv cfg := by
  rcases patchLoad_cases cfg bank v len r with ⟨-, he⟩ | ⟨base, -, he⟩ <;> rw [he]
  · exact h
  · exact loadRecord_induct_defined cfg bank base (fun _ _ _ hd hr => regs_inv_voiceSetParam hr hd) h

/-! ## Commands -/

theorem inv_complete {s : State} (hs : s.Inv) (hr : r.Inv s.cfg) : (complete s r).Inv :=
  ⟨hs.bank_wf, hs.err_legal, hs.err_of_inited, fun _ => hr⟩

theorem inv_completeTick {s : State} (hs : s.Inv) (hr : r.Inv s.cfg) (out : Num) : (completeTick s r out).Inv :=
  ⟨hs.bank_wf, hs.err_legal, hs.err_of_inited, fun _ => hr⟩

/-- Every command whose operands fit their fields keeps the invariant; INIT establishes it, whatever the registers
were. -/
theorem exec_inv {i : Instr} {s t : State} (hwf : i.wf = true) (hs : s.Inv) (h : exec i s = .next t) : t.Inv := by
  rcases exec_cases h with ⟨fs, rfl, ⟨-, rfl⟩ | ⟨hpos, hsup, rfl⟩⟩ | ⟨hi, hcmd⟩
  · exact ⟨hs.bank_wf, .inr rfl, fun hinit => (Bool.false_ne_true hinit).elim,
      fun hinit => (Bool.false_ne_true hinit).elim⟩
  · have hlt : fs < 2 ^ 32 := of_decide_eq_true hwf
    refine ⟨hs.bank_wf, .inl rfl, fun _ => rfl,
      fun _ => regs_inv_runtimeReset (Nat.pos_of_ne_zero hpos) hlt hsup fun k => ?_⟩
    rw [map_get]
    exact freqDefined_zeroParams _
  · have hr : s.toRegs.Inv s.cfg := hs.regs hi
    rcases hcmd with ⟨-, rfl⟩ | ⟨n, v, rfl, -, rfl⟩ | ⟨n, -, rfl⟩ | ⟨x, v, -, hd, rfl⟩ | ⟨-, rfl⟩ | ⟨v, len, -, rfl⟩
    · exact inv_complete hs
        (regs_inv_runtimeReset hr.fs_pos hr.fs_lt hr.fs_supported fun k => (hr.ops k).freq_defined)
    · have hn : n < 128 := of_decide_eq_true (Bool.and_eq_true_iff.1 hwf).1
      exact inv_complete hs (regs_inv_voiceNoteOn hr hn v)
    · exact inv_complete hs (regs_inv_voiceNoteOff hr n)
    · exact inv_complete hs (regs_inv_voiceSetParam hr hd)
    · exact inv_completeTick hs (regs_inv_voiceTick hr) _
    · exact inv_complete hs (regs_inv_patchLoad hr s.bank v len)

end Sys2Proof.Machine

open Sys2Proof Sys2Proof.Machine

/-- Settles O50: a host write keeps BANK canonical, a reserved word changes nothing the invariant reads, and a decoded
command fits its fields, so that it keeps the invariant. -/
theorem stepKeepsTheRunInvariant : Obligations.StepKeepsTheRunInvariant := by
  intro s t hs h
  rcases step_cases' h with ⟨-, rfl⟩ | ⟨a, bs, rest, -, rfl⟩ | ⟨w, rest, e, -, -, rfl⟩ | ⟨w, rest, i, -, hd, hexec⟩
  · exact hs
  · exact ⟨writeBytes_wf hs.bank_wf a bs, hs.err_legal, hs.err_of_inited, hs.regs⟩
  · exact ⟨hs.bank_wf, hs.err_legal, hs.err_of_inited, hs.regs⟩
  · exact exec_inv (s := { s with inbox := rest }) (wf_of_decode hd)
      ⟨hs.bank_wf, hs.err_legal, hs.err_of_inited, hs.regs⟩ hexec
end

section
/-! The registers no rule reads (10 R23, R25): two voices that differ only in them stay so under every operation, and
what an operation puts out is the same of both. -/

namespace Sys2Proof.Machine

/-! ## Operators -/

namespace Op.SameSound

variable {a b : Op} (h : a.SameSound b)

theorem refl (a : Op) : a.SameSound a := ⟨fun _ _ => rfl, rfl, rfl, rfl, rfl, rfl⟩

include h

/-- A frequency reads DET, COARSE, MODE and FINE (43 R151, R152). -/
theorem freq_eq (q : NumFormat) (n : Nat) : a.freq q n = b.freq q n :=
  freq_congr (h.params _ rfl) (h.params _ rfl) (h.params _ rfl) (h.params _ rfl) q n

theorem freqDefined_eq : a.freqDefined = b.freqDefined :=
  freqDefined_congr (h.params _ rfl) (h.params _ rfl)

/-- A refresh reads the eight rates and levels (43 R154 step (a)). -/
theorem refreshEg (q : NumFormat) : (a.refreshEg q).SameSound (b.refreshEg q) :=
  { h with
    eg := by
      simp only [Op.refreshEg, h.eg, h.params OpField.R1 rfl, h.params OpField.R2 rfl, h.params OpField.R3 rfl,
        h.params OpField.R4 rfl, h.params OpField.L1 rfl, h.params OpField.L2 rfl, h.params OpField.L3 rfl,
        h.params OpField.L4 rfl] }

theorem calcFreq (q : NumFormat) (n : Nat) : (a.calcFreq q n).SameSound (b.calcFreq q n) :=
  { h with baseFreq := h.freq_eq q n }

theorem store (f : Fin 21) (v : Raw) : (a.store f v).SameSound (b.store f v) :=
  { h with
    params := fun g hg => by
      rw [store_raw, store_raw, h.params g hg] }

theorem setParam (cfg : Config) (f : Fin 21) (v : Raw) : (a.setParam cfg f v).SameSound (b.setParam cfg f v) := by
  have hstore := h.store f v
  unfold Op.setParam
  dsimp only
  rw [hstore.note]
  by_cases hf : isFreqField f = true <;> by_cases hw : cfg.egRefresh = .atWrite ∧ f.val < 8 <;>
    simp only [hf, hw, if_true, if_false, and_self]
  · exact (hstore.calcFreq ..).refreshEg _
  · exact hstore.calcFreq ..
  · exact hstore.refreshEg _
  · exact hstore

theorem setParamDefined_eq (f : Fin 21) (v : Raw) : a.setParamDefined f v = b.setParamDefined f v := by
  rw [Op.setParamDefined, Op.setParamDefined, (h.store f v).freqDefined_eq]

/-- NOTE_ON reads the frequency's registers and KVS (43 R155). -/
theorem noteOn (q : NumFormat) (n v : Nat) : (a.noteOn q n v).SameSound (b.noteOn q n v) where
  params := h.params
  phase := rfl
  baseFreq := h.freq_eq q n
  vel := by rw [opNoteOn_vel, opNoteOn_vel, h.params OpField.KVS rfl]
  note := rfl
  eg := congrArg Eg.gateOn h.eg

theorem noteOff (n : Nat) : (a.noteOff n).SameSound (b.noteOff n) :=
  { h with eg := congrArg Eg.gateOff h.eg }

theorem runtimeReset : a.runtimeReset.SameSound b.runtimeReset where
  params := h.params
  phase := rfl
  baseFreq := rfl
  vel := rfl
  note := rfl
  eg := rfl

theorem zeroParams :
    ({ a with p := Vector.replicate 21 0 } : Op).SameSound { b with p := Vector.replicate 21 0 } :=
  { h with
    params := fun f _ => by
      rw [zeroParams_raw, zeroParams_raw] }

/-- OP.TICK reads BASEFREQ, PHASE, VEL, OL and the refreshed envelope (43 R154). -/
theorem tick (q : NumFormat) (fs : Nat) (m : Num) (x y : ℚ) :
    (a.tick q fs m x y).1.SameSound (b.tick q fs m x y).1 ∧ (a.tick q fs m x y).2 = (b.tick q fs m x y).2 := by
  have heg := (h.refreshEg q).eg
  refine ⟨{ h with phase := ?_, eg := ?_ }, ?_⟩
  · rw [tick_phase, tick_phase, Op.increment, Op.increment, h.phase, h.baseFreq]
  · rw [opTick_eg, opTick_eg, heg]
  · rw [tick_out, tick_out, heg, h.phase, h.vel, h.params OpField.OL rfl]

end Op.SameSound

/-! ## The voice -/

/-- Two register files that agree on everything but the registers no rule reads. -/
structure Regs.SameSound (a b : Regs) : Prop where
  fs : a.fs = b.fs
  ops : ∀ k : Fin 6, (a.op[k]).SameSound b.op[k]
  voice : ∀ g : Fin 29, unreadVoice g = false → a.pv[g] = b.pv[g]
  peg : a.peg = b.peg
  prev : a.prev = b.prev
  fb : a.fb = b.fb

namespace Regs.SameSound

variable {a b : Regs} (h : a.SameSound b)

theorem refl (a : Regs) : a.SameSound a := ⟨rfl, fun _ => .refl _, fun _ _ => rfl, rfl, rfl, rfl⟩

include h

/-- The pitch envelope's refresh reads PR1..PR4 and PL1..PL4 (45 R181). -/
theorem refreshPeg_eq (q : NumFormat) : refreshPeg q a = refreshPeg q b := by
  simp only [refreshPeg, h.peg, h.voice VField.PR1 rfl, h.voice VField.PR2 rfl, h.voice VField.PR3 rfl,
    h.voice VField.PR4 rfl, h.voice VField.PL1 rfl, h.voice VField.PL2 rfl, h.voice VField.PL3 rfl,
    h.voice VField.PL4 rfl]

/-- Both voices with the same operation applied to each operator. -/
theorem mapOps {g : Op → Op} (hg : ∀ {x y : Op}, x.SameSound y → (g x).SameSound (g y)) :
    ({ a with op := a.op.map g } : Regs).SameSound { b with op := b.op.map g } :=
  { h with
    ops := fun k => by
      rw [map_get, map_get]
      exact hg (h.ops k) }

theorem setPeg {e e' : Eg} (he : e = e') : ({ a with peg := e } : Regs).SameSound { b with peg := e' } :=
  { h with peg := he }

theorem modifyOp {g : Op → Op} (hg : ∀ {x y : Op}, x.SameSound y → (g x).SameSound (g y)) (k : Fin 6) :
    (modifyOp a k g).SameSound (modifyOp b k g) :=
  { h with
    ops := fun j => by
      rw [modifyOp_get, modifyOp_get]
      split
      · exact hg (h.ops k)
      · exact h.ops j }

theorem setVoice {i : Nat} (hi : i < 29) (v : Raw) :
    ({ a with pv := a.pv.set i v } : Regs).SameSound { b with pv := b.pv.set i v } :=
  { h with
    voice := fun g hg => by
      simp only [Fin.getElem_fin, Vector.getElem_set]
      split
      · rfl
      · exact h.voice g hg }

theorem voiceNoteOn (cfg : Config) (n v : Nat) : (voiceNoteOn cfg n v a).SameSound (voiceNoteOn cfg n v b) :=
  (h.mapOps fun hop => hop.noteOn cfg.num n v).setPeg (by rw [h.peg])

theorem voiceNoteOff (cfg : Config) (n : Nat) : (voiceNoteOff cfg n a).SameSound (voiceNoteOff cfg n b) :=
  (h.mapOps fun hop => hop.noteOff n).setPeg (by rw [h.peg])

theorem runtimeReset (cfg : Config) : (runtimeReset cfg a).SameSound (runtimeReset cfg b) := by
  have hclear : ({ a with
        op := a.op.map Op.runtimeReset, peg := Eg.initial, prev := Vector.replicate 6 (.rat 0), fb := .rat 0 } :
      Regs).SameSound { b with
        op := b.op.map Op.runtimeReset, peg := Eg.initial, prev := Vector.replicate 6 (.rat 0), fb := .rat 0 } :=
    { h.mapOps Op.SameSound.runtimeReset with peg := rfl, prev := rfl, fb := rfl }
  unfold Machine.runtimeReset
  dsimp only
  split
  · exact (hclear.mapOps fun hop => hop.refreshEg cfg.num).setPeg (hclear.refreshPeg_eq cfg.num)
  · exact hclear

/-- INIT's registers before RUNTIME_RESET: the new rate, and every parameter 0 (47 R221). -/
theorem zeroParams (fs : Nat) :
    ({ a with
        fs := fs, op := a.op.map (fun o => { o with p := Vector.replicate 21 0 }), pv := Vector.replicate 29 0 } :
      Regs).SameSound
      { b with
        fs := fs, op := b.op.map (fun o => { o with p := Vector.replicate 21 0 }), pv := Vector.replicate 29 0 } :=
  { h.mapOps (fun hop => hop.zeroParams) with fs := rfl, voice := fun _ _ => rfl }

/-- Steps 1 to 5 of V.TICK read ALG, FBL and the pitch envelope's registers alone of the voice's (45 R180 to R185). -/
theorem tickWith (cfg : Config) (i : Fin 32) :
    (tickWith cfg i a).1.SameSound (tickWith cfg i b).1 ∧ (tickWith cfg i a).2 = (tickWith cfg i b).2 := by
  have hpeg := h.refreshPeg_eq cfg.num
  have hprev : (Machine.tickWith cfg i a).1.prev = (Machine.tickWith cfg i b).1.prev := by
    refine Vector.ext fun k hk => ?_
    have hout := tickWith_prev cfg i a ⟨k, hk⟩
    rw [h.prev, h.fb, h.fs, hpeg, h.voice VField.FBL rfl, ((h.ops ⟨k, hk⟩).tick ..).2, ← tickWith_prev] at hout
    exact hout
  refine ⟨⟨h.fs, fun k => ?_, h.voice, ?_, hprev, ?_⟩, ?_⟩
  · rw [tickWith_op, tickWith_op, h.prev, h.fb, h.fs, hpeg, h.voice VField.FBL rfl]
    exact ((h.ops k).tick ..).1
  · rw [tickWith_peg, tickWith_peg, h.fs, hpeg]
  · rw [tickWith_fb, tickWith_fb, hprev]
  · rw [tickWith_out, tickWith_out, hprev]

theorem voiceTick (cfg : Config) :
    (voiceTick cfg a).1.SameSound (voiceTick cfg b).1 ∧ (voiceTick cfg a).2 = (voiceTick cfg b).2 := by
  unfold Machine.voiceTick
  rw [h.voice VField.ALG rfl]
  split
  · exact ⟨h, rfl⟩
  · exact h.tickWith cfg _

theorem voiceSetParam (cfg : Config) (i : Nat) (v : Raw) :
    (voiceSetParam cfg i v a).SameSound (voiceSetParam cfg i v b) := by
  unfold Machine.voiceSetParam
  split
  · exact h.modifyOp (fun hop => hop.setParam cfg _ v) _
  · split
    · have hset := h.setVoice (i := i - 126) (by omega) v
      dsimp only
      split
      · exact hset.setPeg (hset.refreshPeg_eq cfg.num)
      · exact hset
    · exact h

theorem setParamDefined_eq (i : Nat) (v : Raw) : setParamDefined i v a = setParamDefined i v b := by
  rw [setParamDefined, setParamDefined, (h.ops _).setParamDefined_eq]

theorem all_freqDefined_eq : a.op.all Op.freqDefined = b.op.all Op.freqDefined := by
  have hop : ∀ k (hk : k < 6), (a.op[k]).freqDefined = (b.op[k]).freqDefined := fun k hk =>
    (h.ops ⟨k, hk⟩).freqDefined_eq
  rw [Bool.eq_iff_iff, Vector.all_eq_true, Vector.all_eq_true]
  exact forall₂_congr fun k hk => by rw [hop k hk]

end Regs.SameSound

theorem writeFields_sameSound (cfg : Config) :
    ∀ (vs : List Raw) (i : Nat) {a b : Regs}, a.SameSound b →
      (writeFields cfg i vs a).SameSound (writeFields cfg i vs b)
  | [], _, _, _, h => h
  | v :: vs, i, _, _, h => writeFields_sameSound cfg vs (i + 1) (h.voiceSetParam cfg i v)

theorem patchLoad_sameSound (cfg : Config) (bank : Memory) (v len : Nat) {a b : Regs} (h : a.SameSound b) :
    (patchLoad cfg bank v len a).SameSound (patchLoad cfg bank v len b) := by
  unfold patchLoad
  split
  · exact h
  · unfold loadRecord loadVoiceBlock loadOpBlock
    iterate 7 refine writeFields_sameSound cfg _ _ ?_
    exact h

/-! ## Commands -/

/-- Two outcomes that compare are related next states or the same refusal: FMVE has no faults (60 R250). -/
theorem sameOutcome_cases {R : State → State → Prop} {o p : Host.Outcome State Fault Refusal}
    (h : SameOutcome R o p) :
    (∃ u v, R u v ∧ o = .next u ∧ p = .next v) ∨ ∃ r, o = .refused r ∧ p = .refused r := by
  cases o with
  | next u =>
    cases p with
    | next v => exact .inl ⟨u, v, h, rfl, rfl⟩
    | fault f => cases f
    | refused r => cases h
  | fault f => cases f
  | refused r =>
    cases p with
    | next v => cases h
    | fault f => cases f
    | refused r' => exact .inr ⟨r, rfl, congrArg _ (show r = r' from h).symm⟩

namespace State.SameSound

variable {s t : State} (h : s.SameSound t)
include h

theorem regs : s.toRegs.SameSound t.toRegs := ⟨h.fs, h.ops, h.voice, h.peg, h.prev, h.fb⟩

theorem complete {a b : Regs} (hr : a.SameSound b) : (complete s a).SameSound (complete t b) :=
  { h with
    fs := hr.fs, ops := hr.ops, voice := hr.voice, peg := hr.peg, prev := hr.prev, fb := hr.fb, sampleValid := rfl }

theorem completeTick {a b : Regs} (hr : a.SameSound b) {x y : Num} (hout : x = y) :
    (completeTick s a x).SameSound (completeTick t b y) :=
  { h.complete hr with sampleOut := hout, sampleValid := rfl }

theorem setStatus (status : Status) {n m : Nat} (hn : n = m) :
    ({ s with status := status, freeCtr := n } : State).SameSound { t with status := status, freeCtr := m } :=
  { h with status := rfl, freeCtr := hn }

theorem setHostPart {x y : Memory} (hbank : x = y) (rest : List HostInput) :
    ({ s with bank := x, inbox := rest } : State).SameSound { t with bank := y, inbox := rest } :=
  { h with bank := hbank, inbox := rfl }

/-- The refusal before INIT reads STATUS alone (47 R229). -/
theorem whenInited {o p : Host.Outcome State Fault Refusal} (ho : SameOutcome SameSound o p) :
    SameOutcome SameSound (whenInited s o) (whenInited t p) := by
  unfold Machine.whenInited
  rw [h.status]
  split
  · exact ho
  · rfl

theorem exec (i : Instr) : SameOutcome SameSound (exec i s) (exec i t) := by
  have hr := h.regs
  cases i with
  | init fs =>
    show SameOutcome SameSound (execInit fs s) (execInit fs t)
    unfold execInit
    rw [h.cfg, h.freeCtr]
    split
    · exact (h.complete (.refl _)).setStatus _ rfl
    · exact (h.complete ((hr.zeroParams fs).runtimeReset t.cfg)).setStatus _ h.freeCtr
  | reset =>
    refine h.whenInited ?_
    rw [h.cfg]
    exact h.complete (hr.runtimeReset _)
  | noteOn n v =>
    refine h.whenInited ?_
    rw [h.cfg, hr.all_freqDefined_eq]
    split
    · exact h.complete (hr.voiceNoteOn _ n v)
    · rfl
  | noteOff n =>
    refine h.whenInited ?_
    rw [h.cfg]
    exact h.complete (hr.voiceNoteOff _ n)
  | setParam x v =>
    refine h.whenInited ?_
    rw [h.cfg, hr.setParamDefined_eq]
    split
    · exact h.complete (hr.voiceSetParam _ x v)
    · rfl
  | tick =>
    refine h.whenInited ?_
    rw [h.cfg]
    exact h.completeTick (hr.voiceTick _).1 (hr.voiceTick _).2
  | loadVoice v len =>
    refine h.whenInited ?_
    rw [h.cfg, h.bank]
    exact h.complete (patchLoad_sameSound _ _ v len hr)

/-! ## Steps and runs -/

/-- The two fetch alike: nothing, a host write, a reserved word, or the same command. -/
theorem fetch_cases :
    (fetch s = .idle ∧ fetch t = .idle) ∨
      ∃ u v : State, u.SameSound v ∧
        ((fetch s = .hostWrite u ∧ fetch t = .hostWrite v) ∨ (fetch s = .reserved u ∧ fetch t = .reserved v) ∨
          ∃ i, fetch s = .run i u ∧ fetch t = .run i v) := by
  have ht := h.inbox.symm
  cases hs : s.inbox with
  | nil => exact .inl ⟨fetch_nil hs, fetch_nil (ht.trans hs)⟩
  | cons x rest =>
    rw [hs] at ht
    cases x with
    | bankWrite a bs =>
      have hwritten : s.bank.writeBytes a bs = t.bank.writeBytes a bs := by rw [h.bank]
      exact .inr ⟨_, _, h.setHostPart hwritten rest, .inl ⟨fetch_bankWrite hs, fetch_bankWrite ht⟩⟩
    | command w =>
      have hrest := h.setHostPart h.bank rest
      cases hd : decode w with
      | error e => exact .inr ⟨_, _, hrest, .inr (.inl ⟨fetch_reserved hs hd, fetch_reserved ht hd⟩)⟩
      | ok i => exact .inr ⟨_, _, hrest, .inr (.inr ⟨i, fetch_command hs hd, fetch_command ht hd⟩)⟩

theorem step : SameOutcome SameSound (step s) (step t) := by
  unfold Machine.step
  rcases h.fetch_cases with ⟨hs, ht⟩ | ⟨u, v, huv, ⟨hs, ht⟩ | ⟨hs, ht⟩ | ⟨i, hs, ht⟩⟩ <;> rw [hs, ht]
  · exact h
  · exact huv
  · exact huv
  · exact huv.exec i

/-- An observer sees STATUS and SAMPLE_OUT alone (70 R292). -/
theorem observed_eq (i : Instr) : observed i s = observed i t := by
  cases i <;> simp only [observed, h.status, h.sampleOut]

theorem stepObservation_eq : stepObservation s = stepObservation t := by
  unfold stepObservation
  rcases h.fetch_cases with ⟨hs, ht⟩ | ⟨u, v, huv, ⟨hs, ht⟩ | ⟨hs, ht⟩ | ⟨i, hs, ht⟩⟩ <;> rw [hs, ht]
  dsimp only
  rcases sameOutcome_cases (huv.exec i) with ⟨u', v', huv', hu, hv⟩ | ⟨r, hu, hv⟩ <;> rw [hu, hv]
  exact huv'.observed_eq i

end State.SameSound

/-- Two runs from such states yield the same, step by step. -/
theorem yields_eq_of_sameSound : ∀ (k : Nat) {s t : State}, s.SameSound t → yields k s = yields k t
  | 0, _, _, _ => rfl
  | k + 1, s, t, h => by
    rw [yields, yields, h.stepObservation_eq]
    rcases sameOutcome_cases h.step with ⟨u, v, huv, hu, hv⟩ | ⟨r, hu, hv⟩ <;> rw [hu, hv]
    exact congrArg (stepObservation t ++ ·) (yields_eq_of_sameSound k huv)

end Sys2Proof.Machine

open Sys2Proof Sys2Proof.Machine

/-- Settles O58: every command keeps the relation of two states that differ only in unread registers, and no rule that
makes an observation reads one. -/
theorem unreadRegistersAreUnobservable : Obligations.UnreadRegistersAreUnobservable := by
  refine ⟨fun s t i h => h.exec i, fun s t k h => ?_⟩
  have hyields := yields_eq_of_sameSound k h
  exact ⟨hyields, fun F => ⟨by rw [hyields], by rw [hyields]⟩⟩
end

section
/-! The memory-side rules of 20: what a run of host writes makes every BANK address read as (R62, R72), that PD.LOAD
reads no byte at or above L (R62; 46 R200 to R206), and that a flat index past the registers names nothing (R61). -/

namespace Sys2Proof.Machine

/-! ## A host write -/

/-- A run of writes leaves every address outside it. -/
theorem read_writeBytes_outside {m : Memory} (h : m.wf) {a x : Nat} {bs : List Byte}
    (hx : x < a ∨ a + bs.length ≤ x) : (m.writeBytes a bs).read x = m.read x := by
  induction bs generalizing m a with
  | nil => rfl
  | cons b bs ih =>
    rw [List.length_cons] at hx
    rw [Memory.writeBytes, ih (write_wf h a b) (by omega), read_write h, if_neg (by omega)]

/-- A run of writes puts each byte at its own address. -/
theorem read_writeBytes_inside {m : Memory} (h : m.wf) (a : Nat) {bs : List Byte} {j : Nat} (hj : j < bs.length) :
    (m.writeBytes a bs).read (a + j) = bs[j] := by
  induction bs generalizing m a j with
  | nil => cases hj
  | cons b bs ih =>
    have hw := write_wf h a b
    rw [Memory.writeBytes]
    cases j with
    | zero => exact (read_writeBytes_outside hw (.inl a.lt_succ_self)).trans (by rw [read_write h, if_pos rfl]; rfl)
    | succ j =>
      rw [show a + (j + 1) = a + 1 + j by omega]
      exact ih hw (a + 1) (Nat.lt_of_succ_lt_succ hj)

/-! ## What a load reads -/

/-- An operator block has 17 bytes (46 R205). -/
theorem opFields_congr {b c : Nat → Byte} (h : ∀ j, j < 17 → b j = c j) : opFields b = opFields c := by
  simp (disch := decide) only [opFields, h]

/-- No byte after the first 16 of the voice-level block is read: the name is not (46 R206, R207). -/
theorem voiceFields_congr {b c : Nat → Byte} (h : ∀ j, j < 16 → b j = c j) : voiceFields b = voiceFields c := by
  simp (disch := decide) only [voiceFields, h]

section
variable {m n : Memory}

/-- A record's decode reads the record's 128 bytes alone (46 R203). -/
theorem loadRecord_congr (cfg : Config) {base : Nat}
    (h : ∀ j, j < 128 → m.read (base + j) = n.read (base + j)) (r : Regs) :
    loadRecord cfg m base r = loadRecord cfg n base r := by
  have hop : ∀ o, o < 6 → loadOpBlock cfg m base o = loadOpBlock cfg n base o := fun o ho => by
    funext r
    rw [loadOpBlock, loadOpBlock, opFields_congr fun j hj => ?_]
    rw [Nat.add_assoc]
    exact h _ (by omega)
  have hvoice : loadVoiceBlock cfg m base = loadVoiceBlock cfg n base := by
    funext r
    rw [loadVoiceBlock, loadVoiceBlock, voiceFields_congr fun j hj => ?_]
    rw [Nat.add_assoc]
    exact h _ (by omega)
  simp (disch := decide) only [loadRecord, hop, hvoice]

variable {len : Nat} (h : ∀ a, a < len → m.read a = n.read a)
include h

/-- An accepted frame lies below L, and so does all that makes it one (46 R201, R202). -/
theorem frameAt_of_agree {s : Nat} (hf : FrameAt m len s) : FrameAt n len s := by
  obtain ⟨hfirst, hstart, hinner, hlast, hinside⟩ := hf
  refine ⟨fun a ha => ?_, ?_, fun a h1 h2 => ?_, ?_, hinside⟩ <;> rw [← h _ (by omega)]
  · exact hfirst a ha
  · exact hstart
  · exact hinner a h1 h2
  · exact hlast

theorem recordBase_of_agree (hm : m.wf) (hn : n.wf) {v base : Nat} (hb : recordBase m v len = some base) :
    recordBase n v len = some base := by
  obtain ⟨hv, a, hf, rfl⟩ := frame_of_recordBase hm hb
  exact recordBase_of_frame hn hv (frameAt_of_agree h hf)

/-- Two buffers in canonical form that agree below L hold the same accepted record, or none. -/
theorem recordBase_congr (hm : m.wf) (hn : n.wf) (v : Nat) : recordBase m v len = recordBase n v len :=
  Option.ext fun _ => ⟨recordBase_of_agree h hm hn, recordBase_of_agree (fun a ha => (h a ha).symm) hn hm⟩

end

/-! ## SET_PARAM above the operator registers -/

/-- A write at or above flat index 126 recomputes no frequency, so it is never refused (45 R187). -/
theorem setParamDefined_of_le {i : Nat} (hi : 126 ≤ i) (v : Raw) (r : Regs) : setParamDefined i v r = true := by
  rw [setParamDefined, decide_eq_false (Nat.not_lt.2 hi)]
  rfl

/-- A flat index at or above 155 names neither an operator register nor a voice register (45 R187, 60 R251 row E3). -/
theorem voiceSetParam_of_le (cfg : Config) {i : Nat} (hi : 155 ≤ i) (v : Raw) (r : Regs) :
    voiceSetParam cfg i v r = r := by
  rcases voiceSetParam_cases cfg i v r with ⟨hlt, -⟩ | ⟨⟨-, hlt⟩, -⟩ | ⟨-, hkept⟩
  · omega
  · omega
  · exact hkept

end Sys2Proof.Machine

open Sys2Proof Sys2Proof.Machine

/-- Settles O7: an empty inbox is fetched as idle; a host write is the run of its bytes' writes, each of which lands at
its own address and leaves the others. -/
theorem hostInputsChangeOnlyTheBank : Obligations.HostInputsChangeOnlyTheBank := by
  refine ⟨fun s hin => ?_, fun s a bs rest hw hin => ⟨s.bank.writeBytes a bs, ?_, writeBytes_wf hw a bs,
    fun j => read_writeBytes_inside hw a j.isLt, fun x hx => read_writeBytes_outside hw hx⟩⟩
  · rw [step, fetch_nil hin]
  · rw [step, fetch_bankWrite hin]

/-- Settles O49: both buffers hold the same accepted record or none, and a record lies below L with its frame. -/
theorem loadReadsOnlyTheBuffer : Obligations.LoadReadsOnlyTheBuffer := by
  intro s m v len hs hm h
  have hbase := recordBase_congr h hm hs v
  rcases patchLoad_cases s.cfg s.bank v len s.toRegs with ⟨hnone, hload⟩ | ⟨base, hsome, hload⟩
  · rw [hload, patchLoad, hbase, hnone]
  · obtain ⟨hv, a, hframe, rfl⟩ := frame_of_recordBase hs hsome
    have hinside := hframe.inside
    rw [hload, patchLoad, hbase, hsome]
    exact loadRecord_congr s.cfg (fun j hj => h _ (by omega)) s.toRegs

/-- Settles O41: such a write is never refused, and V.SETPARAM returns the registers it found. -/
theorem indexOutOfRangeIsAbsorbed : Obligations.IndexOutOfRangeIsAbsorbed := by
  intro s i v hinit hi
  rw [exec, execSetParam, whenInited_of hinit, if_pos (setParamDefined_of_le (by omega) v _),
    voiceSetParam_of_le s.cfg hi]
  rfl
end

section
/-! The encoding, both ways (30 R80 to R83): when a word stands for a command, said once, with the decoder finding
exactly that command; the fields of an assembled word; and the AND of a word with a mask, field by field. -/

namespace Sys2Proof

/-- The opcode field of `w` is that of the command (30 R81), and the operand fields hold its operands (30 R82). -/
def Instr.CarriedBy (w : Word) : Instr → Prop
  | .init fs => Word.opc w = 0x01 ∧ (Word.fieldB w).toNat = fs
  | .reset => Word.opc w = 0x02
  | .noteOn note velocity => Word.opc w = 0x03 ∧ Word.fieldNote w = note ∧ Word.fieldVelocity w = velocity
  | .noteOff note => Word.opc w = 0x04 ∧ Word.fieldNote w = note
  | .setParam index value => Word.opc w = 0x05 ∧ Word.fieldA w = index ∧ Word.fieldB w = value
  | .tick => Word.opc w = 0x06
  | .loadVoice v len => Word.opc w = 0x07 ∧ Word.fieldA w = v ∧ (Word.fieldB w).toNat = len

theorem carriedBy_of_decode {w : Word} {i : Instr} (h : decode w = .ok i) : i.CarriedBy w := by
  unfold decode at h
  split at h <;> cases h <;> simp only [Instr.CarriedBy, and_self, *]

theorem decode_of_carriedBy {w : Word} {i : Instr} (h : i.CarriedBy w) : decode w = .ok i := by
  cases i with
  | init fs => obtain ⟨ho, rfl⟩ := h; simp only [decode, ho]
  | reset => simp only [decode, show Word.opc w = 0x02 from h]
  | noteOn note velocity => obtain ⟨ho, rfl, rfl⟩ := h; simp only [decode, ho]
  | noteOff note => obtain ⟨ho, rfl⟩ := h; simp only [decode, ho]
  | setParam index value => obtain ⟨ho, rfl, rfl⟩ := h; simp only [decode, ho]
  | tick => simp only [decode, show Word.opc w = 0x06 from h]
  | loadVoice v len => obtain ⟨ho, rfl, rfl⟩ := h; simp only [decode, ho]

/-! ## The fields of an assembled word -/

theorem fieldA_packWord {opc a b : Nat} (ha : a < 16777216) (hb : b < 4294967296) :
    Word.fieldA (packWord opc a b) = a := by
  rw [fieldA_eq, packWord_toNat]; omega

theorem fieldB_packWord {opc a b : Nat} (hb : b < 4294967296) : (Word.fieldB (packWord opc a b)).toNat = b := by
  rw [fieldB_eq, packWord_toNat]; omega

theorem fieldNote_packWord {opc a b : Nat} (hb : b < 4294967296) :
    Word.fieldNote (packWord opc a b) = a / 256 % 128 := by
  rw [fieldNote_eq, packWord_toNat]; omega

theorem fieldVelocity_packWord {opc a b : Nat} (hb : b < 4294967296) :
    Word.fieldVelocity (packWord opc a b) = a % 128 := by
  rw [fieldVelocity_eq, packWord_toNat]; omega

/-- The encoder's word carries the command, at every operand its field admits (30 R82). -/
theorem carriedBy_encode {i : Instr} (h : i.wf = true) : i.CarriedBy (encode i) := by
  cases i with
  | init fs =>
    exact ⟨Laws.MatchMask.init fs h, fieldB_packWord (of_decide_eq_true h)⟩
  | reset => exact Laws.MatchMask.reset h
  | noteOn note velocity =>
    have ho := Laws.MatchMask.noteOn note velocity h
    simp only [Instr.wf, Bool.and_eq_true, decide_eq_true_eq] at h
    obtain ⟨hn, hv⟩ := h
    exact ⟨ho, (fieldNote_packWord (by decide)).trans (by omega),
      (fieldVelocity_packWord (by decide)).trans (by omega)⟩
  | noteOff note =>
    have hn : note < 128 := of_decide_eq_true h
    exact ⟨Laws.MatchMask.noteOff note h, (fieldNote_packWord (by decide)).trans (by omega)⟩
  | setParam index value =>
    exact ⟨Laws.MatchMask.setParam index value h, fieldA_packWord (of_decide_eq_true h) value.isLt,
      BitVec.eq_of_toNat_eq (fieldB_packWord value.isLt)⟩
  | tick => exact Laws.MatchMask.tick h
  | loadVoice v len =>
    have ho := Laws.MatchMask.loadVoice v len h
    simp only [Instr.wf, Bool.and_eq_true, decide_eq_true_eq] at h
    obtain ⟨hv, hlen⟩ := h
    exact ⟨ho, fieldA_packWord hv hlen, fieldB_packWord hlen⟩

/-! ## A word under a mask -/

/-- An AND taken apart at bit `k`. -/
theorem and_eq_high_add_low (k x y : Nat) :
    x &&& y = (x / 2 ^ k &&& y / 2 ^ k) * 2 ^ k + (x % 2 ^ k &&& y % 2 ^ k) := by
  rw [← Nat.and_div_two_pow, ← Nat.and_mod_two_pow, Nat.div_add_mod']

/-- A mask that keeps the opcode field acts on the fields A and B separately (30 R80). -/
theorem and_packWord (w : Word) {ma mb : Nat} (ha : ma < 16777216) (hb : mb < 4294967296) :
    w &&& packWord 0xFF ma mb = packWord (Word.opc w) (Word.fieldA w &&& ma) ((Word.fieldB w).toNat &&& mb) := by
  have hA : Word.fieldA w &&& ma < 2 ^ 24 := Nat.and_lt_two_pow _ ha
  have hB : (Word.fieldB w).toNat &&& mb < 2 ^ 32 := Nat.and_lt_two_pow _ hb
  have hmask : (packWord 0xFF ma mb).toNat = 0xFF * 2 ^ 56 + ma * 2 ^ 32 + mb := by rw [packWord_toNat]; omega
  have hopc : w.toNat / 2 ^ 32 / 2 ^ 24 &&& 2 ^ 8 - 1 = Word.opc w := by
    rw [Nat.and_two_pow_sub_one_eq_mod, opc_eq]; omega
  have hhigh : (0xFF * 2 ^ 56 + ma * 2 ^ 32 + mb) / 2 ^ 32 = 0xFF * 2 ^ 24 + ma := by omega
  have hlow : (0xFF * 2 ^ 56 + ma * 2 ^ 32 + mb) % 2 ^ 32 = mb := by omega
  have htop : (0xFF * 2 ^ 24 + ma) / 2 ^ 24 = 2 ^ 8 - 1 := by omega
  have hmid : (0xFF * 2 ^ 24 + ma) % 2 ^ 24 = ma := by omega
  have hfieldA : w.toNat / 2 ^ 32 % 2 ^ 24 = Word.fieldA w := (fieldA_eq w).symm
  have hfieldB : w.toNat % 2 ^ 32 = (Word.fieldB w).toNat := (fieldB_eq w).symm
  apply BitVec.eq_of_toNat_eq
  rw [BitVec.toNat_and, hmask, and_eq_high_add_low 32, hhigh, hlow, and_eq_high_add_low 24 (w.toNat / 2 ^ 32), htop,
    hmid, hopc, hfieldA, hfieldB, packWord_toNat]
  have ho : Word.opc w < 2 ^ 8 := (w.extractLsb 63 56).isLt
  omega

/-- The note is in the bits 14..8 of A (30 R82). -/
theorem fieldA_div_and_eq_fieldNote (w : Word) : Word.fieldA w / 2 ^ 8 &&& 2 ^ 7 - 1 = Word.fieldNote w := by
  rw [Nat.and_two_pow_sub_one_eq_mod, fieldA_eq, fieldNote_eq]; omega

/-- The velocity is in the bits 6..0 of A (30 R82). -/
theorem fieldA_mod_and_eq_fieldVelocity (w : Word) : Word.fieldA w % 2 ^ 8 &&& 2 ^ 7 - 1 = Word.fieldVelocity w := by
  rw [Nat.and_two_pow_sub_one_eq_mod, fieldA_eq, fieldVelocity_eq]; omega

theorem fieldA_and_note_velocity (w : Word) :
    Word.fieldA w &&& 0x7F7F = Word.fieldNote w * 256 + Word.fieldVelocity w := by
  rw [← fieldA_div_and_eq_fieldNote, ← fieldA_mod_and_eq_fieldVelocity]
  exact and_eq_high_add_low 8 _ 0x7F7F

theorem fieldA_and_note (w : Word) : Word.fieldA w &&& 0x7F00 = Word.fieldNote w * 256 := by
  have hlow : Word.fieldA w % 2 ^ 8 &&& 0x7F00 % 2 ^ 8 = 0 := Nat.and_zero _
  rw [and_eq_high_add_low 8, hlow, Nat.add_zero, ← fieldA_div_and_eq_fieldNote]
  rfl

theorem fieldA_and_all (w : Word) : Word.fieldA w &&& 0xFFFFFF = Word.fieldA w :=
  Nat.and_two_pow_sub_one_of_lt_two_pow (w.extractLsb 55 32).isLt

theorem fieldB_and_all (w : Word) : (Word.fieldB w).toNat &&& 0xFFFFFFFF = (Word.fieldB w).toNat :=
  Nat.and_two_pow_sub_one_of_lt_two_pow (Word.fieldB w).isLt

/-- A word under the mask of its opcode, where that mask keeps `ma` of A and `mb` of B (30 R82). -/
theorem and_assignedBits {w : Word} {opc : Nat} (ma mb : Nat) (ho : Word.opc w = opc) (ha : ma < 16777216)
    (hb : mb < 4294967296) (hmask : Machine.assignedBits opc = packWord 0xFF ma mb) :
    w &&& Machine.assignedBits (Word.opc w) = packWord opc (Word.fieldA w &&& ma) ((Word.fieldB w).toNat &&& mb) := by
  rw [ho, hmask, and_packWord w ha hb, ho]

/-- The masks of 30 R82 keep the command's fields and clear the rest (30 R83 (b)). -/
theorem encode_eq_and_assignedBits {w : Word} {i : Instr} (h : i.CarriedBy w) :
    encode i = w &&& Machine.assignedBits (Word.opc w) := by
  cases i with
  | init fs =>
    obtain ⟨ho, rfl⟩ := h
    rw [encode, and_assignedBits 0 0xFFFFFFFF ho (by decide) (by decide) (by decide), Nat.and_zero, fieldB_and_all]
  | reset =>
    have ho : Word.opc w = 0x02 := h
    rw [encode, and_assignedBits 0 0 ho (by decide) (by decide) (by decide), Nat.and_zero, Nat.and_zero]
  | noteOn note velocity =>
    obtain ⟨ho, rfl, rfl⟩ := h
    rw [encode, and_assignedBits 0x7F7F 0 ho (by decide) (by decide) (by decide), fieldA_and_note_velocity, Nat.and_zero]
  | noteOff note =>
    obtain ⟨ho, rfl⟩ := h
    rw [encode, and_assignedBits 0x7F00 0 ho (by decide) (by decide) (by decide), fieldA_and_note, Nat.and_zero]
  | setParam index value =>
    obtain ⟨ho, rfl, rfl⟩ := h
    rw [encode, and_assignedBits 0xFFFFFF 0xFFFFFFFF ho (by decide) (by decide) (by decide), fieldA_and_all,
      fieldB_and_all]
  | tick =>
    have ho : Word.opc w = 0x06 := h
    rw [encode, and_assignedBits 0 0 ho (by decide) (by decide) (by decide), Nat.and_zero, Nat.and_zero]
  | loadVoice v len =>
    obtain ⟨ho, rfl, rfl⟩ := h
    rw [encode, and_assignedBits 0xFFFFFF 0xFFFFFFFF ho (by decide) (by decide) (by decide), fieldA_and_all,
      fieldB_and_all]

end Sys2Proof

open Sys2Proof Sys2Proof.Machine

/-- Settles O2: the encoder's word carries the command, and the decoder finds the command a word carries. -/
theorem decodeEncodeRoundTrip : Obligations.DecodeEncodeRoundTrip := fun _ h =>
  decode_of_carriedBy (carriedBy_encode h)

/-- Settles O3: every operand is read from a field of its own width. -/
theorem decodedCommandsFitTheirFields : Obligations.DecodedCommandsFitTheirFields := fun _ _ h => wf_of_decode h

/-- Settles O4: the word a decoded command is read from carries it, and the mask of its opcode keeps its fields alone. -/
theorem wordCarriesOnlyAssignedBits : Obligations.WordCarriesOnlyAssignedBits := fun _ _ h =>
  encode_eq_and_assignedBits (carriedBy_of_decode h)

/-- Settles O1: each word is a literal, on which the decoder is run. -/
theorem specWordsDecode : Obligations.SpecWordsDecode := by
  unfold Obligations.SpecWordsDecode
  decide
end

section
/-! The sine ROM and the oscillator (41_oscillator.md): the machine's entries, table position and lookup are the
formulas on the reals, and under the reference semantics the position is 512 times the phase's fractional part. -/

namespace Sys2Proof.Machine

variable {F : Functions}

/-! ## The sine ROM -/

/-- Entry `i` of the ROM is the configuration function's value there, rounded once (41 R110): the four entries that are
computed are values of every lawful function. -/
theorem val_sine (hF : F.Lawful) (f : NumFormat) (i : Nat) : (sine f i).val F = F.entry f i := by
  rw [sine, NumFormat.val_round, Functions.entry]
  congr 1
  split_ifs with h0 h128 h256 h384
  · rw [h0, Num.val_rat, Nat.cast_zero, mul_zero, zero_div, hF.sin_zero, Rat.cast_zero]
  · rw [h128, show 2 * Real.pi * (128 : Nat) / 512 = Real.pi / 2 by push_cast; ring, hF.sin_half_pi, Num.val_rat,
      Rat.cast_one]
  · rw [h256, show 2 * Real.pi * (256 : Nat) / 512 = Real.pi by push_cast; ring, hF.sin_pi, Num.val_rat, Rat.cast_zero]
  · rw [h384, show 2 * Real.pi * (384 : Nat) / 512 = 3 * Real.pi / 2 by push_cast; ring, hF.sin_three_half_pi,
      Num.val_rat, Rat.cast_neg, Rat.cast_one]
  · rw [Num.val_sineOf]

/-- A rational result is rounded among the rationals. -/
theorem round_rat (f : NumFormat) (x : ℚ) : f.round (.rat x) = .rat (f.q x) := by cases f <;> rfl

/-- The second half of the table is the first half negated (41 R110). -/
theorem entry_half_add (hF : F.Lawful) (i : Nat) : F.entry .exact (256 + i) = -F.entry .exact i := by
  have hangle : 2 * Real.pi * ((256 + i : Nat) : ℝ) / 512 = Real.pi + 2 * Real.pi * i / 512 := by push_cast; ring
  simp only [Functions.entry, roundReal_exact]
  rw [hangle, hF.sin_pi_add]

/-- Each half of the table is its own mirror image (41 R110). -/
theorem entry_half_sub (hF : F.Lawful) {i : Nat} (hi : i ≤ 256) : F.entry .exact (256 - i) = F.entry .exact i := by
  have hangle : 2 * Real.pi * ((256 - i : Nat) : ℝ) / 512 = Real.pi - 2 * Real.pi * i / 512 := by
    push_cast [hi]; ring
  simp only [Functions.entry, roundReal_exact]
  rw [hangle, hF.sin_pi_sub]

theorem entry_mem_Icc (hF : F.Lawful) (i : Nat) : F.entry .exact i ∈ Set.Icc (-1) 1 := hF.sin_bounds _

/-! ## The table position and the lookup -/

/-- The position of a rational phase is the same among the reals (41 R111). -/
theorem oscPosition_cast (f : NumFormat) (phase : ℚ) : (oscPosition f phase : ℝ) = oscPositionReal f phase := by
  simp only [oscPosition, oscPositionReal, NumFormat.qadd, NumFormat.qmul, NumFormat.qsub, NumFormat.qdiv, q_cast,
    ← Rat.floor_cast (α := ℝ), Rat.cast_sub, Rat.cast_add, Rat.cast_mul, Rat.cast_div, Rat.cast_intCast,
    Rat.cast_ofNat]

/-- Under the reference semantics the position is 512 times the phase's fractional part: R111's 512 is a whole turn. -/
theorem oscPositionReal_exact (phase : ℝ) : oscPositionReal .exact phase = 512 * Int.fract phase := by
  have hturn : (phase * 512 + 512) / 512 = phase + 1 := by ring
  simp only [oscPositionReal, roundReal_exact]
  rw [hturn, Int.floor_add_one, Int.fract]
  push_cast
  ring

/-- OSC is R111's formula, each result rounded, on a known and on an unknown phase alike. -/
theorem val_osc (hF : F.Lawful) (f : NumFormat) (x : Num) : (osc f x).val F = F.osc f (x.val F) := by
  cases x with
  | rat phase =>
    simp only [osc, interpolate, Functions.osc, Num.val_rat, NumFormat.val_add, NumFormat.val_mul, NumFormat.val_sub,
      val_sine hF, NumFormat.qsub, q_cast, ← oscPosition_cast, Rat.floor_cast, Rat.cast_sub, Rat.cast_intCast]
  | _ => exact Num.val_oscOf F f _

/-! ## The lookup under the reference semantics -/

theorem oscPositionReal_exact_range (phase : ℝ) :
    0 ≤ oscPositionReal .exact phase ∧ oscPositionReal .exact phase < 512 := by
  rw [oscPositionReal_exact]
  constructor <;> linarith [Int.fract_nonneg phase, Int.fract_lt_one phase]

/-- Inside the table the index is the position's integer part (41 R111). -/
theorem tableIndex_floor {u : ℝ} (h0 : 0 ≤ u) (h512 : u < 512) : (tableIndex ⌊u⌋ : ℝ) = ⌊u⌋ := by
  have hindex : (tableIndex ⌊u⌋ : Int) = ⌊u⌋ := tableIndex_of_range (Int.floor_nonneg.2 h0) (Int.floor_lt.2 h512)
  exact_mod_cast hindex

/-- A value between two entries of the table is in [-1, 1], which is convex (41 R112 (e)). -/
theorem interpolated_entries_mem_Icc (hF : F.Lawful) (i j : Nat) {t : ℝ} (ht : t ∈ Set.Icc 0 1) :
    F.entry .exact i + t * (F.entry .exact j - F.entry .exact i) ∈ Set.Icc (-1) 1 :=
  (convex_Icc (-1) 1).add_smul_sub_mem (entry_mem_Icc hF i) (entry_mem_Icc hF j) ht

/-- Two phases a whole number of turns apart are at the same position (41 R112 (a)). -/
theorem oscPositionReal_exact_add_int (phase : ℝ) (n : Int) :
    oscPositionReal .exact (phase + n) = oscPositionReal .exact phase := by
  simp only [oscPositionReal_exact, Int.fract_add_intCast]

end Sys2Proof.Machine

open Sys2Proof Sys2Proof.Machine

/-- Settles O25: the position is 512 times the phase's fractional part, and the index and `fr` are its integer and
fractional parts. -/
theorem oscillatorInterpolates : Obligations.OscillatorInterpolates := by
  refine fun F hF => ⟨val_osc hF, fun n => ⟨tableIndex_lt n, tableIndex_spec n⟩, fun x => ?_⟩
  set u := oscPositionReal .exact (x.val F) with hu
  set i0 := tableIndex ⌊u⌋
  obtain ⟨h0, h512⟩ : 0 ≤ u ∧ u < 512 := oscPositionReal_exact_range _
  have hfr0 : 0 ≤ Int.fract u := Int.fract_nonneg u
  have hfr1 : Int.fract u < 1 := Int.fract_lt_one u
  have hturns : u = x.val F * 512 + 512 - 512 * ((⌊x.val F⌋ + 1 : Int) : ℝ) := by
    rw [hu, oscPositionReal_exact, Int.fract]
    push_cast
    ring
  have hindex : u = i0 + Int.fract u := by rw [tableIndex_floor h0 h512, Int.floor_add_fract]
  have hosc : (osc .exact x).val F =
      F.entry .exact i0 + Int.fract u * (F.entry .exact ((i0 + 1) % 512) - F.entry .exact i0) := val_osc hF .exact x
  refine ⟨u, Int.fract u, i0, ⟨_, hturns⟩, h0, h512, tableIndex_lt _, hindex, hfr0, hfr1, ?_, ?_⟩
  · rw [hosc, val_sine hF, val_sine hF]
  · rw [hosc]
    exact interpolated_entries_mem_Icc hF _ _ ⟨hfr0, hfr1.le⟩

/-- Settles O26: the value is a function of the position, which whole turns do not move. -/
theorem oscillatorHasPeriodOne : Obligations.OscillatorHasPeriodOne := by
  intro F x y n hF hxy
  rw [val_osc hF, val_osc hF, hxy, Functions.osc, oscPositionReal_exact_add_int, ← Functions.osc]

/-- Settles O27: each entry is the lawful function's value, whose symmetries about pi are the table's about 256. -/
theorem sineRomEntries : Obligations.SineRomEntries := by
  refine ⟨fun F f i hF => val_sine hF f i, fun i => val_sine standard_lawful .exact i, fun f h1 => ?_,
    fun F i hF hi => ?_⟩
  · have zero : f.round (.rat 0) = .rat 0 := by rw [round_rat, q_zero]
    have one : f.round (.rat 1) = .rat 1 := by rw [round_rat, q_of_holds (by exact_mod_cast h1)]
    have negOne : f.round (.rat (-1)) = .rat (-1) := by rw [round_rat, q_of_holds (by exact_mod_cast holds_neg h1)]
    exact ⟨zero, one, zero, negOne⟩
  · simp only [val_sine hF]
    exact ⟨entry_half_add hF i, entry_half_sub hF hi.le, entry_mem_Icc hF i⟩
end

section
/-! The envelope generator (42): the tick of each state as one equation, the completion of each moving state, and a
whole segment under the reference semantics, which runs on the straight line from START to TARGET. -/

namespace Sys2Proof.Machine

variable {f : NumFormat} {fs : Nat} {e : Eg}

/-- A latched register is its raw value times the constant 0.01, each rounded (42 R121). -/
theorem hundredth_eq (f : NumFormat) (r : Raw) : hundredth f r = f.q (f.q r.toInt * f.q (1 / 100)) := rfl

/-! ## One tick -/

/-- The value one slope on (42 R125). -/
def Eg.advanced (f : NumFormat) (fs : Nat) (e : Eg) : ℚ :=
  f.qadd e.val (f.qdiv (f.qsub e.target e.start) (e.segmentTicks f fs))

/-- In a moving state a tick snaps at the singular rate and at the target, and otherwise goes one slope on (42 R125,
R131). -/
theorem step_of_moving (hm : e.st.moving = true) :
    e.step f fs =
      if e.segmentTicks f fs = 0 ∨ |f.qsub e.target e.start| ≤ |f.qsub (e.advanced f fs) e.start| then e.snap
      else { e with val := e.advanced f fs } := by
  have hadv : e.step f fs = e.advance f fs := by
    rcases step_cases f fs e with ⟨-, h⟩ | ⟨hst, -⟩ | ⟨hst, -⟩
    · exact h
    all_goals simp [hst, EgState.moving] at hm
  rw [hadv, Eg.advance, ite_or]
  rfl

theorem step_of_sustain (h : e.st = .sustain) : e.step f fs = { e with val := e.el3 } := by simp only [Eg.step, h]

theorem step_of_idle (h : e.st = .idle) : e.step f fs = { e with val := e.el4 } := by simp only [Eg.step, h]

/-- A generator that holds a plateau is at its level after the tick, and holds it still (42 R126, R127). -/
theorem step_holds_level (f : NumFormat) (fs : Nat) (e : Eg) :
    (e.st = .sustain → (e.step f fs).st = .sustain ∧ (e.step f fs).val = e.el3) ∧
      (e.st = .idle → (e.step f fs).st = .idle ∧ (e.step f fs).val = e.el4) := by
  refine ⟨fun h => ?_, fun h => ?_⟩
  · rw [step_of_sustain h]
    exact ⟨h, rfl⟩
  · rw [step_of_idle h]
    exact ⟨h, rfl⟩

/-! ## The completion of each moving state (42 R128) -/

theorem snap_of_attack (h : e.st = .attack) :
    e.snap =
      if e.er2 < 1 then e.enter .decay1 e.target e.el2
      else if e.er3 < 1 then e.enter .decay2 e.target e.el3
      else { e with st := .sustain, val := e.target } := by
  simp only [Eg.snap, Eg.finish, h, Eg.enter]

theorem snap_of_decay1 (h : e.st = .decay1) :
    e.snap =
      if e.er3 < 1 then e.enter .decay2 e.target e.el3 else { e with st := .sustain, val := e.target } := by
  simp only [Eg.snap, Eg.finish, h, Eg.enter]

theorem snap_of_decay2 (h : e.st = .decay2) : e.snap = { e with st := .sustain, val := e.target } := by
  simp only [Eg.snap, Eg.finish, h]

theorem snap_of_release (h : e.st = .release) : e.snap = { e with st := .idle, val := e.target } := by
  simp only [Eg.snap, Eg.finish, h]

/-! ## A whole segment under the reference semantics (42 R129) -/

/-- The last of several ticks may be taken apart instead of the first. -/
theorem steps_succ (f : NumFormat) (fs n : Nat) (e : Eg) :
    Eg.steps f fs (n + 1) e = (Eg.steps f fs n e).step f fs := by
  induction n generalizing e with
  | zero => rfl
  | succ n ih => exact ih (e.step f fs)

/-- The generator whose value is where the straight line from START to TARGET is after `n` ticks. -/
def Eg.onLine (fs : Nat) (e : Eg) (n : Nat) : Eg :=
  { e with val := e.start + (n : ℚ) * (e.target - e.start) / e.segmentTicks .exact fs }

theorem onLine_zero (h : e.val = e.start) : e.onLine fs 0 = e := by
  have hval : e.start + ((0 : Nat) : ℚ) * (e.target - e.start) / e.segmentTicks .exact fs = e.val := by simp [h]
  rw [Eg.onLine, hval]

/-- One slope on from the line after `n` ticks is the line after `n + 1`. -/
theorem advanced_onLine (fs : Nat) (e : Eg) (n : Nat) :
    (e.onLine fs n).advanced .exact fs = (e.onLine fs (n + 1)).val := by
  have hN : (e.onLine fs n).segmentTicks .exact fs = e.segmentTicks .exact fs := rfl
  rw [Eg.advanced, hN]
  simp only [Eg.onLine, qadd_exact, qdiv_exact, qsub_exact]
  push_cast
  ring

/-- The line has reached the target after `n` ticks exactly when the segment is no longer than that. -/
theorem abs_onLine_iff (hN : 0 < e.segmentTicks .exact fs) (hne : e.start ≠ e.target) (n : Nat) :
    |e.target - e.start| ≤ |(e.onLine fs n).val - e.start| ↔ e.segmentTicks .exact fs ≤ n := by
  have hpos : 0 < |e.target - e.start| := abs_pos.2 (sub_ne_zero.2 hne.symm)
  have hdist : |(e.onLine fs n).val - e.start| = n * |e.target - e.start| / e.segmentTicks .exact fs := by
    rw [Eg.onLine, add_sub_cancel_left, abs_div, abs_mul, Nat.abs_cast, abs_of_pos hN]
  rw [hdist, le_div_iff₀ hN, mul_comm, mul_le_mul_iff_left₀ hpos]

/-- A tick goes along the line, and completes the segment when the line reaches the target. -/
theorem step_onLine (hm : e.st.moving = true) (hN : 0 < e.segmentTicks .exact fs) (hne : e.start ≠ e.target)
    (n : Nat) :
    (e.onLine fs n).step .exact fs =
      if e.segmentTicks .exact fs ≤ ((n + 1 : Nat) : ℚ) then e.snap else e.onLine fs (n + 1) := by
  have hlast := abs_onLine_iff hN hne (n + 1)
  have hcond : ((e.onLine fs n).segmentTicks .exact fs = 0 ∨
      |(e.onLine fs n).target - (e.onLine fs n).start| ≤ |(e.onLine fs (n + 1)).val - (e.onLine fs n).start|) ↔
      e.segmentTicks .exact fs ≤ ((n + 1 : Nat) : ℚ) :=
    (or_iff_right hN.ne').trans hlast
  rw [step_of_moving (e := e.onLine fs n) hm, advanced_onLine]
  simp only [qsub_exact, hcond]
  rfl

/-- Before the segment's length is up, the generator is on the line. -/
theorem steps_eq_onLine (hm : e.st.moving = true) (hN : 0 < e.segmentTicks .exact fs) (hne : e.start ≠ e.target)
    (hval : e.val = e.start) {n : Nat} (hn : (n : ℚ) < e.segmentTicks .exact fs) :
    Eg.steps .exact fs n e = e.onLine fs n := by
  induction n with
  | zero => exact (onLine_zero hval).symm
  | succ n ih =>
    have hlt : (n : ℚ) < e.segmentTicks .exact fs := lt_trans (by exact_mod_cast n.lt_succ_self) hn
    rw [steps_succ, ih hlt, step_onLine hm hN hne, if_neg (not_le.2 hn)]

/-- The segment completes at the tick `⌈N⌉`, the first that is not before its length. -/
theorem steps_ceil_eq_snap (hm : e.st.moving = true) (hN : 0 < e.segmentTicks .exact fs) (hne : e.start ≠ e.target)
    (hval : e.val = e.start) : Eg.steps .exact fs ⌈e.segmentTicks .exact fs⌉₊ e = e.snap := by
  obtain ⟨m, hceil⟩ := Nat.exists_eq_succ_of_ne_zero (Nat.ceil_pos.2 hN).ne'
  have hlt : (m : ℚ) < e.segmentTicks .exact fs := Nat.lt_ceil.1 (hceil ▸ m.lt_succ_self)
  have hle : e.segmentTicks .exact fs ≤ ((m + 1 : Nat) : ℚ) := Nat.ceil_le.1 hceil.le
  rw [hceil, steps_succ, steps_eq_onLine hm hN hne hval hlt, step_onLine hm hN hne, if_pos hle]

/-! ## The seven generators at a TICK -/

/-- A TICK whose algorithm index is used completes with the registers and the sample of V.TICK (47 R226). -/
theorem exec_tick_used {s : State} (hi : s.status.inited = true) (hu : s.indexUsed) :
    exec .tick s = .next (completeTick s (tickWith s.cfg (clampAlg s.pv[VField.ALG]) s.toRegs).1
      (tickWith s.cfg (clampAlg s.pv[VField.ALG]) s.toRegs).2) := by
  rw [← voiceTick_used hu]
  exact whenInited_of hi _

end Sys2Proof.Machine

open Sys2Proof Sys2Proof.Machine

/-- Settles O17: the tick's equation in a moving state, and the snap's in each of the four. -/
theorem movingSegmentTick : Obligations.MovingSegmentTick := by
  intro f fs e R hm hR q D N v
  have hrate : R = e.rate := by
    rw [hR, Eg.rate]
    cases hst : e.st
    case sustain | idle => simp [hst, EgState.moving] at hm
    all_goals rfl
  have hN : N = e.segmentTicks f fs := by rw [Eg.segmentTicks, ← hrate]; rfl
  have hv : v = e.advanced f fs := by rw [Eg.advanced, ← hN]; rfl
  have hstep : e.step f fs =
      if N = 0 ∨ |q (e.target - e.start)| ≤ |q (v - e.start)| then e.snap else { e with val := v } := by
    rw [hv, hN]
    exact step_of_moving hm
  refine ⟨fun h0 hlt => ?_, fun hdone => ?_⟩
  · rw [hstep, if_neg (not_or.2 ⟨h0, not_le.2 hlt⟩)]
  · rw [hstep, if_pos hdone]
    refine ⟨(snap_spec e hm).1, fun hst h2 => ?_, fun hst h2 h3 => ?_, fun hst h2 h3 => ?_, fun hst h3 => ?_,
      fun hst h3 => ?_, snap_of_decay2, snap_of_release⟩
    · rw [snap_of_attack hst, if_pos h2, Eg.enter]
    · rw [snap_of_attack hst, if_neg h2.not_gt, if_pos h3, Eg.enter]
    · rw [snap_of_attack hst, if_neg h2.not_gt, if_neg h3.not_gt]
    · rw [snap_of_decay1 hst, if_pos h3, Eg.enter]
    · rw [snap_of_decay1 hst, if_neg h3.not_gt]

/-- Settles O18: each of the seven generators is refreshed and then ticked, so it holds the level just loaded. -/
theorem holdingStatesFollowTheirLevel : Obligations.HoldingStatesFollowTheirLevel := by
  intro s hi hu scaled
  refine ⟨_, exec_tick_used hi hu, fun k => ?_, ?_⟩
  · rw [completeTick_op, tickWith_op, opTick_eg]
    exact step_holds_level s.cfg.num s.fs ((s.op[k]).refreshEg s.cfg.num).eg
  · rw [completeTick_peg, tickWith_peg]
    exact step_holds_level s.cfg.num s.fs (refreshPeg s.cfg.num s.toRegs)

/-- Settles O19: the generator runs on the line from START to TARGET, which is reached at the tick `⌈N⌉`. -/
theorem segmentLastsCeilN : Obligations.SegmentLastsCeilN := by
  intro fs e hfs hm hR hval N
  have hN : N = e.segmentTicks .exact fs := (segmentTicks_exact fs e).symm
  have hpos : 0 < N := mul_pos (pow_pos (sub_pos.2 hR) 4) (Nat.cast_pos.2 hfs)
  have hsnap : e.snap.val = e.target := (snap_spec e hm).1
  rw [hN] at hpos ⊢
  refine ⟨fun hne => ⟨fun n hn => ?_, ?_⟩, fun heq => ?_⟩
  · rw [steps_eq_onLine hm hpos hne hval hn]
    exact ⟨rfl, rfl⟩
  · rw [steps_ceil_eq_snap hm hpos hne hval]
    exact ⟨hsnap, rfl⟩
  · have hstep : e.step .exact fs = e.snap := by
      rw [step_of_moving hm, if_pos]
      exact .inr (by rw [heq, qsub_exact, sub_self, abs_zero]; exact abs_nonneg _)
    exact ⟨hstep, hstep ▸ hsnap⟩

/-- Settles O14: a refresh is the update of the eight latches, each with the register times 0.01. -/
theorem refreshLoadsTheLatches : Obligations.RefreshLoadsTheLatches := by
  intro f e r1 r2 r3 r4 l1 l2 l3 l4 scaled
  simp only [Eg.refresh, hundredth_eq, scaled]

/-- Settles O15: the choice of the first rate below 1, case by case. -/
theorem gateOnEntersFirstOpenSegment : Obligations.GateOnEntersFirstOpenSegment := by
  refine fun e => ⟨fun h1 => ?_, fun h1 h2 => ?_, fun h1 h2 h3 => ?_, fun h1 h2 h3 => ?_⟩
  · rw [Eg.gateOn, if_pos h1, Eg.enter]
  · rw [Eg.gateOn, if_neg h1.not_gt, if_pos h2, Eg.enter]
  · rw [Eg.gateOn, if_neg h1.not_gt, if_neg h2.not_gt, if_pos h3, Eg.enter]
  · rw [Eg.gateOn, if_neg h1.not_gt, if_neg h2.not_gt, if_neg h3.not_gt]

/-- Settles O16: the test for IDLE and then the test of ER4, case by case. -/
theorem gateOffReleasesFromCurrentValue : Obligations.GateOffReleasesFromCurrentValue := by
  refine fun e => ⟨fun hidle => ?_, fun hgated h4 => ?_, fun hgated h4 => ?_⟩
  · rw [Eg.gateOff, if_pos hidle]
  · rw [Eg.gateOff, if_neg hgated, if_pos h4, Eg.enter]
  · rw [Eg.gateOff, if_neg hgated, if_neg h4.not_gt]
end

section
/-! The averages of the crossbar (45 R183, R184, R190): the modulation input is the loop of R180 on the values, and under
the reference semantics an average of numbers in [-1, 1] is in [-1, 1]. -/

namespace Sys2Proof.Machine

/-! ## The modulation input as R180's loop -/

theorem countOn_congr {p q : Fin 6 → Prop} [DecidablePred p] [DecidablePred q] (h : ∀ s, p s ↔ q s) :
    countOn p = countOn q := by
  simp only [countOn, h]

theorem accumulate_congr (r : ℝ → ℝ) {p q : Fin 6 → Prop} [DecidablePred p] [DecidablePred q] (h : ∀ s, p s ↔ q s)
    (x : Fin 6 → ℝ) : accumulate r p x = accumulate r q x := by
  simp only [accumulate, h]

/-- The operators whose previous outputs modulation averages, in rising order (45 R183). -/
def modulators (rom : Vector AlgEntry 32) (a : Fin 32) (d : Fin 6) : List (Fin 6) :=
  (List.finRange 6).filter fun s => decide (isSource rom a d s)

theorem modulation_eq (f : NumFormat) (rom : Vector AlgEntry 32) (a : Fin 32) (prev : Vector Num 6) (fb : Num)
    (fbLevel : ℚ) (d : Fin 6) :
    modulation f rom a prev fb fbLevel d =
      average f ((modulators rom a d).map (fun s => prev[s])
        ++ if fbGate rom a d then [f.mul fb (.rat fbLevel)] else []) := by
  have hlist : ((sources rom a (d.castLE (by decide))).filter fun s => s ≠ d) = modulators rom a d := by
    rw [sources, List.filter_filter, modulators]
    exact List.filter_congr fun s _ => by
      rw [Bool.eq_iff_iff, Bool.and_eq_true, decide_eq_true_iff]
      exact decide_eq_true_iff.symm
  rw [modulation, hlist]
  rfl

/-- The modulation input is the rounded loop of 45 R180 on the values of its sources (45 R183, R190). -/
theorem val_modulation (F : Functions) (f : NumFormat) (rom : Vector AlgEntry 32) (a : Fin 32) (prev : Vector Num 6)
    (fb : Num) (fbLevel : ℚ) (d : Fin 6) :
    (modulation f rom a prev fb fbLevel d).val F =
      crossbarInput f rom a (fun s => (prev[s]).val F) (fb.val F) fbLevel d := by
  have hcount : (modulators rom a d).length = countOn (isSource rom a d) := by
    rw [modulators, filter_length]
    exact countOn_congr fun s => decide_eq_true_iff
  have hsum : (modulators rom a d).foldl (fun acc s => f.roundReal (acc + (prev[s]).val F)) 0 =
      accumulate f.roundReal (isSource rom a d) fun s => (prev[s]).val F := by
    rw [modulators, filter_accumulate]
    exact accumulate_congr _ (fun s => decide_eq_true_iff) _
  rw [modulation_eq, val_average, List.foldl_append, List.foldl_map, hsum, List.length_append, List.length_map, hcount,
    crossbarInput, crossbarSum, crossbarCount]
  split <;> simp

/-! ## Bounds under the reference semantics -/

/-- A sum of numbers in [-1, 1] is no larger than their count. -/
theorem abs_sum_le_length {l : List ℝ} (h : ∀ x ∈ l, |x| ≤ 1) : |l.sum| ≤ l.length := by
  induction l with
  | nil => simp
  | cons x l ih =>
    have hx : |x| ≤ 1 := h x List.mem_cons_self
    have hl : |l.sum| ≤ l.length := ih fun y hy => h y (List.mem_cons_of_mem x hy)
    rw [List.sum_cons, List.length_cons, Nat.cast_succ]
    linarith [abs_add_le x l.sum]

/-- An average of numbers in [-1, 1] is in [-1, 1] (45 R180: "average, not sum"). -/
theorem abs_average_le_one {F : Functions} {l : List Num} (h : ∀ x ∈ l, |x.val F| ≤ 1) :
    |(average .exact l).val F| ≤ 1 := by
  rw [val_average]
  split
  · simp
  · have hsum : l.foldl (fun acc x => NumFormat.exact.roundReal (acc + x.val F)) 0 = (l.map (Num.val F)).sum := by
      rw [List.sum_eq_foldl, List.foldl_map]
      rfl
    have hle : |(l.map (Num.val F)).sum| ≤ l.length := by
      simpa using abs_sum_le_length (l := l.map (Num.val F)) (by simpa using h)
    rw [hsum, roundReal_exact, roundReal_exact, abs_div, Nat.abs_cast]
    exact div_le_one_of_le₀ hle (Nat.cast_nonneg _)

theorem abs_mix_le_one {F : Functions} {tmp : Vector Num 6} (h : ∀ k : Fin 6, |(tmp[k]).val F| ≤ 1)
    (rom : Vector AlgEntry 32) (a : Fin 32) (row : Fin 8) : |(mix .exact rom a row tmp).val F| ≤ 1 :=
  abs_average_le_one (by simpa using fun k _ => h k)

theorem abs_modulation_le_one {F : Functions} {prev : Vector Num 6} {fb : Num} {fbLevel : ℚ}
    (hprev : ∀ k : Fin 6, |(prev[k]).val F| ≤ 1) (hfb : |fb.val F| ≤ 1) (hlevel : 0 ≤ fbLevel ∧ fbLevel ≤ 1)
    (rom : Vector AlgEntry 32) (a : Fin 32) (d : Fin 6) :
    |(modulation .exact rom a prev fb fbLevel d).val F| ≤ 1 := by
  have hlevel' : |(fbLevel : ℝ)| ≤ 1 := by
    rw [abs_of_nonneg (by exact_mod_cast hlevel.1)]
    exact_mod_cast hlevel.2
  have hscaled : |(NumFormat.exact.mul fb (.rat fbLevel)).val F| ≤ 1 := by
    rw [NumFormat.val_mul, roundReal_exact, Num.val_rat, abs_mul]
    exact mul_le_one₀ hfb (abs_nonneg _) hlevel'
  rw [modulation_eq]
  refine abs_average_le_one fun x hx => ?_
  rcases List.mem_append.1 hx with hsource | hfeedback
  · obtain ⟨k, -, rfl⟩ := List.mem_map.1 hsource
    exact hprev k
  · split at hfeedback
    · rw [List.mem_singleton.1 hfeedback]
      exact hscaled
    · cases hfeedback

end Sys2Proof.Machine
end

section
/-! A nominal voice under the reference semantics (43 R155, R157): each operation of an envelope keeps its values in
[0, 1], a TICK keeps every output and average in [-1, 1], and so every step keeps the voice nominal. -/

namespace Sys2Proof.Machine

/-! ## Scaled parameters -/

theorem hundredth_unit {r : Raw} (h : inRange r 0 100) : 0 ≤ hundredth .exact r ∧ hundredth .exact r ≤ 1 := by
  have h0 : (0 : ℚ) ≤ r.toInt := by exact_mod_cast h.1
  have h1 : (r.toInt : ℚ) ≤ 100 := by exact_mod_cast h.2
  simp only [hundredth_eq, q_exact]
  constructor <;> linarith

theorem seventh_unit {r : Raw} (h : inRange r 0 7) : 0 ≤ seventh .exact r ∧ seventh .exact r ≤ 1 := by
  have h0 : (0 : ℚ) ≤ r.toInt := by exact_mod_cast h.1
  have h1 : (r.toInt : ℚ) ≤ 7 := by exact_mod_cast h.2
  simp only [seventh, num, qdiv_exact, q_exact]
  constructor <;> linarith

/-- VEL is a mean of `velocity/127` and 1, weighted by KVS/7 (43 R155). -/
theorem velocityScalar_unit {kvs : Raw} (h : inRange kvs 0 7) {velocity : Nat} (hv : velocity < 128) :
    0 ≤ velocityScalar .exact kvs velocity ∧ velocityScalar .exact kvs velocity ≤ 1 := by
  obtain ⟨hk0, hk1⟩ := seventh_unit h
  have hv0 : (0 : ℚ) ≤ velocity / 127 := by positivity
  have hv1 : (velocity : ℚ) / 127 ≤ 1 := by
    rw [div_le_one (by norm_num)]
    exact_mod_cast Nat.le_of_lt_succ hv
  simp only [velocityScalar, qadd_exact, qsub_exact, qmul_exact, qdiv_exact, q_exact]
  constructor <;> nlinarith

/-! ## Envelopes in [0, 1] -/

section
variable {e : Eg}

theorem initial_unit : Eg.initial.unit := by
  constructor <;> exact ⟨le_rfl, zero_le_one⟩

theorem enter_unit (h : e.unit) (st : EgState) {a b : ℚ} (ha : 0 ≤ a ∧ a ≤ 1) (hb : 0 ≤ b ∧ b ≤ 1) :
    (e.enter st a b).unit :=
  { h with val := ha, start := ha, target := hb }

theorem hold_unit (h : e.unit) (st : EgState) {a : ℚ} (ha : 0 ≤ a ∧ a ≤ 1) :
    ({ e with st := st, val := a } : Eg).unit :=
  { h with val := ha }

theorem gateOn_unit (h : e.unit) : e.gateOn.unit := by
  unfold Eg.gateOn
  split_ifs
  · exact enter_unit h _ ⟨le_rfl, zero_le_one⟩ h.el1
  · exact enter_unit h _ h.el1 h.el2
  · exact enter_unit h _ h.el2 h.el3
  · exact hold_unit h _ h.el3

theorem gateOff_unit (h : e.unit) : e.gateOff.unit := by
  unfold Eg.gateOff
  split_ifs
  · exact h
  · exact enter_unit h _ h.val h.el4
  · exact hold_unit h _ h.el4

theorem snap_unit (h : e.unit) (hm : e.st.moving = true) : e.snap.unit := by
  cases hst : e.st with
  | attack =>
    rw [snap_of_attack hst]
    split_ifs
    · exact enter_unit h _ h.target h.el2
    · exact enter_unit h _ h.target h.el3
    · exact hold_unit h _ h.target
  | decay1 =>
    rw [snap_of_decay1 hst]
    split_ifs
    · exact enter_unit h _ h.target h.el3
    · exact hold_unit h _ h.target
  | decay2 =>
    rw [snap_of_decay2 hst]
    exact hold_unit h _ h.target
  | release =>
    rw [snap_of_release hst]
    exact hold_unit h _ h.target
  | sustain => simp [hst, EgState.moving] at hm
  | idle => simp [hst, EgState.moving] at hm

/-- A tick snaps to the target, stays between START and TARGET, or holds a level. -/
theorem step_unit (fs : Nat) (h : e.unit) (hb : e.between) : (e.step .exact fs).unit := by
  rcases step_cases .exact fs e with ⟨hm, hs⟩ | ⟨-, hs⟩ | ⟨-, hs⟩
  · rcases advance_cases .exact fs e with ha | ⟨-, -, ha⟩
    · rw [hs, ha]
      exact snap_unit h hm
    · have hbetween := step_between fs hb
      rw [hs, ha] at hbetween ⊢
      obtain ⟨hlo, hhi⟩ := hbetween hm
      exact { h with
        val := ⟨(le_min h.start.1 h.target.1).trans hlo, hhi.trans (max_le h.start.2 h.target.2)⟩ }
  · rw [hs]
    exact { h with val := h.el3 }
  · rw [hs]
    exact { h with val := h.el4 }

/-- Levels in 0..100 load latches in [0, 1] (42 R121). -/
theorem refresh_unit (h : e.unit) (r1 r2 r3 r4 : Raw) {l1 l2 l3 l4 : Raw} (h1 : inRange l1 0 100)
    (h2 : inRange l2 0 100) (h3 : inRange l3 0 100) (h4 : inRange l4 0 100) :
    (e.refresh .exact r1 r2 r3 r4 l1 l2 l3 l4).unit :=
  { h with
    el1 := hundredth_unit h1
    el2 := hundredth_unit h2
    el3 := hundredth_unit h3
    el4 := hundredth_unit h4 }

end

theorem refreshEg_unit {o : Op} (h : o.eg.unit) (hn : o.nominal) : (o.refreshEg .exact).eg.unit :=
  refresh_unit h _ _ _ _ (hn OpField.L1) (hn OpField.L2) (hn OpField.L3) (hn OpField.L4)

theorem refreshPeg_unit {r : Regs} (h : r.peg.unit) (hn : r.NominalParams) : (refreshPeg .exact r).unit :=
  refresh_unit h _ _ _ _ (hn.voice VField.PL1) (hn.voice VField.PL2) (hn.voice VField.PL3) (hn.voice VField.PL4)

theorem op_nominal_congr {o o' : Op} (h : o'.p = o.p) (hn : o.nominal) : o'.nominal := fun f => by
  rw [Op.raw, h]
  exact hn f

/-! ## TICK -/

section
variable {F : Functions} {r : Regs}

theorem abs_osc_le_one (hF : F.Lawful) (x : Num) : |(osc .exact x).val F| ≤ 1 := by
  obtain ⟨-, -, hosc⟩ := oscillatorInterpolates F hF
  obtain ⟨_, _, _, -, -, -, -, -, -, -, -, hrange⟩ := hosc x
  exact abs_le.2 hrange

/-- The output is a product of four factors in [-1, 1] (43 R154, R157). -/
theorem abs_tick_out_le_one (hF : F.Lawful) {o : Op} (hn : o.nominal) (he : o.eg.unit) (hb : o.eg.between)
    (hvel : 0 ≤ o.vel ∧ o.vel ≤ 1) (fs : Nat) (m : Num) (x a : ℚ) :
    |(o.tick .exact fs m x a).2.val F| ≤ 1 := by
  have hunit : ∀ y : ℚ, 0 ≤ y ∧ y ≤ 1 → |(y : ℝ)| ≤ 1 := fun y hy => by
    rw [abs_of_nonneg (by exact_mod_cast hy.1)]
    exact_mod_cast hy.2
  have heg := step_unit fs (refreshEg_unit he hn) (refreshEg_between .exact hb)
  simp only [tick_out, NumFormat.val_mul, roundReal_exact, Num.val_rat, abs_mul]
  refine mul_le_one₀ (mul_le_one₀ (mul_le_one₀ (abs_osc_le_one hF _) (abs_nonneg _) ?_) (abs_nonneg _) ?_)
    (abs_nonneg _) ?_
  · exact hunit _ heg.val
  · exact hunit _ hvel
  · exact hunit _ (hundredth_unit (hn OpField.OL))

theorem nominalParams_tickWith (cfg : Config) (a : Fin 32) (h : r.NominalParams) :
    (tickWith cfg a r).1.NominalParams :=
  ⟨fun k => by
    rw [tickWith_op]
    exact op_nominal_congr (opTick_p ..) (h.ops k), h.voice⟩

theorem abs_tickWith_prev_le_one (hF : F.Lawful) {cfg : Config} (hx : cfg.num = .exact) (h : r.Nominal F)
    (a : Fin 32) (k : Fin 6) : |((tickWith cfg a r).1.prev[k]).val F| ≤ 1 := by
  rw [tickWith_prev, hx]
  exact abs_tick_out_le_one hF (h.params.ops k) (h.egs k).1 (h.egs k).2 (h.vel k) ..

/-- Steps 1 to 5 of V.TICK keep a voice nominal, and the sample is in [-1, 1] (43 R157). -/
theorem nominal_tickWith (hF : F.Lawful) {cfg : Config} (hx : cfg.num = .exact) (h : r.Nominal F) (a : Fin 32) :
    (tickWith cfg a r).1.Nominal F ∧ |(tickWith cfg a r).2.val F| ≤ 1 := by
  have hprev := abs_tickWith_prev_le_one hF hx h a
  refine ⟨⟨h.fs_pos, nominalParams_tickWith cfg a h.params, fun k => ?_, fun k => ?_, ?_, hprev, ?_⟩, ?_⟩
  · rw [tickWith_op]
    exact h.vel k
  · obtain ⟨hunit, hbetween⟩ := h.egs k
    have hrefreshed := refreshEg_between .exact hbetween
    rw [tickWith_op, opTick_eg, hx]
    exact ⟨step_unit r.fs (refreshEg_unit hunit (h.params.ops k)) hrefreshed, step_between r.fs hrefreshed⟩
  · obtain ⟨hunit, hbetween⟩ := h.peg
    have hrefreshed := refreshPeg_between .exact hbetween
    rw [tickWith_peg, hx]
    exact ⟨step_unit r.fs (refreshPeg_unit hunit h.params) hrefreshed, step_between r.fs hrefreshed⟩
  · rw [tickWith_fb, hx]
    exact abs_mix_le_one hprev ..
  · rw [tickWith_out, hx]
    exact abs_mix_le_one hprev ..

/-- V.TICK keeps a voice nominal, and the sample is in [-1, 1]; the tick that 44 R174 makes a no-operation returns 0. -/
theorem nominal_voiceTick (hF : F.Lawful) {cfg : Config} (hx : cfg.num = .exact) (h : r.Nominal F) :
    (voiceTick cfg r).1.Nominal F ∧ |(voiceTick cfg r).2.val F| ≤ 1 := by
  rcases voiceTick_cases cfg r with hused | ⟨-, -, hnoop⟩
  · rw [hused]
    exact nominal_tickWith hF hx h _
  · rw [hnoop]
    exact ⟨h, by simp⟩

/-! ## RESET, NOTE_ON and NOTE_OFF -/

/-- RUNTIME_RESET makes a voice whose parameters are nominal a nominal one, whatever its runtime registers were
(47 R222). -/
theorem nominal_runtimeReset {cfg : Config} (hx : cfg.num = .exact) (hfs : 0 < r.fs)
    (hn : (runtimeReset cfg r).NominalParams) : (runtimeReset cfg r).Nominal F := by
  obtain ⟨hfs', hpv, hprev, hfb, hpeg, hop⟩ := runtimeReset_keeps cfg r
  rw [hx] at hpeg hop
  refine ⟨hfs' ▸ hfs, hn, fun k => ?_, fun k => ?_, ?_, fun k => by simp [hprev], by simp [hfb]⟩
  · rw [hop k]
    split <;> exact ⟨le_rfl, zero_le_one⟩
  · have hnk := hn.ops k
    rw [hop k] at hnk ⊢
    split_ifs at hnk ⊢
    · exact ⟨refreshEg_unit (o := (r.op[k]).runtimeReset) initial_unit hnk, initial_between⟩
    · exact ⟨initial_unit, initial_between⟩
  · rw [hpeg]
    split
    · exact ⟨refresh_unit initial_unit _ _ _ _ (hpv ▸ hn.voice VField.PL1) (hpv ▸ hn.voice VField.PL2)
        (hpv ▸ hn.voice VField.PL3) (hpv ▸ hn.voice VField.PL4), initial_between⟩
    · exact ⟨initial_unit, initial_between⟩

theorem nominal_voiceNoteOn {cfg : Config} (hx : cfg.num = .exact) (h : r.Nominal F) (n : Nat) {v : Nat}
    (hv : v < 128) : (voiceNoteOn cfg n v r).Nominal F := by
  refine ⟨h.fs_pos, ⟨fun k => ?_, h.params.voice⟩, fun k => ?_, fun k => ?_, ?_, h.prev, h.fb⟩
  · rw [voiceNoteOn_op, map_get]
    exact h.params.ops k
  · rw [voiceNoteOn_op, map_get, opNoteOn_vel, hx]
    exact velocityScalar_unit (h.params.ops k OpField.KVS) hv
  · rw [voiceNoteOn_op, map_get, opNoteOn_eg]
    exact ⟨gateOn_unit (h.egs k).1, gateOn_between _⟩
  · unfold voiceNoteOn
    split
    · exact ⟨gateOn_unit h.peg.1, gateOn_between _⟩
    · exact h.peg

theorem nominal_voiceNoteOff {cfg : Config} (h : r.Nominal F) (n : Nat) : (voiceNoteOff cfg n r).Nominal F := by
  refine ⟨h.fs_pos, ⟨fun k => ?_, h.params.voice⟩, fun k => ?_, fun k => ?_, ?_, h.prev, h.fb⟩
  · rw [voiceNoteOff_op, map_get]
    exact h.params.ops k
  · rw [voiceNoteOff_op, map_get, opNoteOff_vel]
    exact h.vel k
  · rw [voiceNoteOff_op, map_get, opNoteOff_eg]
    exact ⟨gateOff_unit (h.egs k).1, gateOff_between (h.egs k).2⟩
  · unfold voiceNoteOff
    split
    · exact ⟨gateOff_unit h.peg.1, gateOff_between h.peg.2⟩
    · exact h.peg

end

/-! ## Parameter writes

A load writes its registers one by one, and under at_write the latches follow each write: in between, they may be those
of parameters that are not nominal. What every write keeps is that the levels are in [0, 1] or are the present
parameters' own, so that they are in [0, 1] once the parameters are nominal. -/

/-- The four level latches are in [0, 1]. -/
structure Eg.levelsUnit (e : Eg) : Prop where
  el1 : 0 ≤ e.el1 ∧ e.el1 ≤ 1
  el2 : 0 ≤ e.el2 ∧ e.el2 ≤ 1
  el3 : 0 ≤ e.el3 ∧ e.el3 ≤ 1
  el4 : 0 ≤ e.el4 ∧ e.el4 ≤ 1

/-- The value and the segment are in [0, 1], and the value is between the segment's ends. -/
structure Eg.segmentUnit (e : Eg) : Prop where
  val : 0 ≤ e.val ∧ e.val ≤ 1
  start : 0 ≤ e.start ∧ e.start ≤ 1
  target : 0 ≤ e.target ∧ e.target ≤ 1
  between : e.between

theorem unit_of_segment_levels {e : Eg} (hs : e.segmentUnit) (hl : e.levelsUnit) : e.unit :=
  ⟨hs.val, hs.start, hs.target, hl.el1, hl.el2, hl.el3, hl.el4⟩

theorem segmentUnit_of_unit {e : Eg} (h : e.unit) (hb : e.between) : e.segmentUnit := ⟨h.val, h.start, h.target, hb⟩

theorem levelsUnit_of_unit {e : Eg} (h : e.unit) : e.levelsUnit := ⟨h.el1, h.el2, h.el3, h.el4⟩

/-- What an operator of a nominal voice keeps through any writes of its parameters. -/
structure Op.NominalRuntime (cfg : Config) (o : Op) : Prop where
  vel : 0 ≤ o.vel ∧ o.vel ≤ 1
  segment : o.eg.segmentUnit
  levels : o.eg.levelsUnit ∨ (cfg.egRefresh = .atWrite ∧ o.refreshEg cfg.num = o)

/-- What a nominal voice keeps through any parameter writes. -/
structure Regs.NominalRuntime (F : Functions) (cfg : Config) (r : Regs) : Prop where
  fs_pos : 0 < r.fs
  ops : ∀ k : Fin 6, (r.op[k]).NominalRuntime cfg
  segment : r.peg.segmentUnit
  levels : r.peg.levelsUnit ∨ (cfg.egRefresh = .atWrite ∧ refreshPeg cfg.num r = r.peg)
  prev : ∀ k : Fin 6, |(r.prev[k]).val F| ≤ 1
  fb : |r.fb.val F| ≤ 1

section
variable {F : Functions} {cfg : Config} {r : Regs}

theorem nominalRuntime_of_nominal (h : r.Nominal F) : r.NominalRuntime F cfg where
  fs_pos := h.fs_pos
  ops k := ⟨h.vel k, segmentUnit_of_unit (h.egs k).1 (h.egs k).2, .inl (levelsUnit_of_unit (h.egs k).1)⟩
  segment := segmentUnit_of_unit h.peg.1 h.peg.2
  levels := .inl (levelsUnit_of_unit h.peg.1)
  prev := h.prev
  fb := h.fb

/-- Current latches of nominal parameters are in [0, 1]. -/
theorem op_levelsUnit (hx : cfg.num = .exact) {o : Op} (h : o.NominalRuntime cfg) (hn : o.nominal) :
    o.eg.levelsUnit := by
  rcases h.levels with hl | ⟨-, hcurrent⟩
  · exact hl
  · rw [← hcurrent, hx]
    exact ⟨hundredth_unit (hn OpField.L1), hundredth_unit (hn OpField.L2), hundredth_unit (hn OpField.L3),
      hundredth_unit (hn OpField.L4)⟩

theorem peg_levelsUnit (hx : cfg.num = .exact) (h : r.NominalRuntime F cfg) (hn : r.NominalParams) :
    r.peg.levelsUnit := by
  rcases h.levels with hl | ⟨-, hcurrent⟩
  · exact hl
  · rw [← hcurrent, hx]
    exact ⟨hundredth_unit (hn.voice VField.PL1), hundredth_unit (hn.voice VField.PL2),
      hundredth_unit (hn.voice VField.PL3), hundredth_unit (hn.voice VField.PL4)⟩

theorem nominal_of_nominalRuntime (hx : cfg.num = .exact) (h : r.NominalRuntime F cfg) (hn : r.NominalParams) :
    r.Nominal F where
  fs_pos := h.fs_pos
  params := hn
  vel k := (h.ops k).vel
  egs k := ⟨unit_of_segment_levels (h.ops k).segment (op_levelsUnit hx (h.ops k) (hn.ops k)), (h.ops k).segment.between⟩
  peg := ⟨unit_of_segment_levels h.segment (peg_levelsUnit hx h hn), h.segment.between⟩
  prev := h.prev
  fb := h.fb

/-- OP.SETPARAM leaves VEL and the segment; at_write makes the latches current with each write of a rate or a level. -/
theorem op_nominalRuntime_setParam (f : Fin 21) (v : Raw) {o : Op} (h : o.NominalRuntime cfg) :
    (o.setParam cfg f v).NominalRuntime cfg := by
  obtain ⟨-, -, hvel, -, -, heg⟩ := setParam_spec cfg f v o
  by_cases hw : cfg.egRefresh = .atWrite ∧ f.val < 8
  · rw [if_pos hw] at heg
    obtain ⟨hval, hstart, htarget, hbetween⟩ := h.segment
    refine ⟨hvel ▸ h.vel, ?_, .inr ⟨hw.1, ?_⟩⟩
    · rw [heg]
      exact ⟨hval, hstart, htarget, refreshEg_between (o := o.store f v) _ hbetween⟩
    · simp only [Op.setParam, hw, and_self, if_true]
      rfl
  · rw [if_neg hw] at heg
    refine ⟨hvel ▸ h.vel, heg ▸ h.segment, ?_⟩
    rcases h.levels with hl | ⟨hat, hcurrent⟩
    · exact .inl (heg ▸ hl)
    · exact .inr ⟨hat, setParam_refreshEg hat f v hcurrent⟩

/-- V.SETPARAM leaves the delay registers and the pitch envelope's segment (45 R187). -/
theorem nominalRuntime_voiceSetParam (i : Nat) (v : Raw) (r : Regs) (h : r.NominalRuntime F cfg) :
    (voiceSetParam cfg i v r).NominalRuntime F cfg := by
  rcases voiceSetParam_cases cfg i v r with ⟨-, he⟩ | ⟨hi, he⟩ | ⟨-, he⟩
  · rw [he]
    refine { h with ops := fun k => ?_ }
    rw [modifyOp_get]
    split
    · exact op_nominalRuntime_setParam _ v (h.ops _)
    · exact h.ops k
  · rw [he]
    by_cases hw : cfg.egRefresh = .atWrite ∧ i - 126 < 8
    · obtain ⟨hval, hstart, htarget, hbetween⟩ := h.segment
      rw [if_pos hw]
      exact { h with
        segment := ⟨hval, hstart, htarget, hbetween⟩
        levels := .inr ⟨hw.1, rfl⟩ }
    · rw [if_neg hw]
      refine { h with levels := h.levels.imp_right fun ⟨hat, hcurrent⟩ => ⟨hat, ?_⟩ }
      have hi8 : ¬ i - 126 < 8 := fun hlt => hw ⟨hat, hlt⟩
      refine refreshPeg_eq_self_of_same hcurrent (fun g hg => ?_) rfl
      exact Vector.getElem_set_ne (by omega) _ (by omega)
  · rw [he]
    exact h

theorem nominalRuntime_patchLoad (bank : Memory) (v len : Nat) (h : r.NominalRuntime F cfg) :
    (patchLoad cfg bank v len r).NominalRuntime F cfg := by
  rcases patchLoad_cases cfg bank v len r with ⟨-, he⟩ | ⟨base, -, he⟩
  · rw [he]
    exact h
  · rw [he]
    exact loadRecord_induct cfg bank base nominalRuntime_voiceSetParam r h

end

/-! ## Commands -/

/-- Every command whose operands fit their fields leaves a nominal voice nominal if it leaves the engine initialised
and its parameters nominal. -/
theorem exec_nominal {F : Functions} (hF : F.Lawful) {i : Instr} {s t : State} (hwf : i.wf = true)
    (hx : s.cfg.num = .exact) (hs : s.toRegs.Nominal F) (h : exec i s = .next t) (hinit : t.status.inited = true)
    (hn : t.toRegs.NominalParams) : t.toRegs.Nominal F := by
  rcases exec_cases h with ⟨fs, -, ⟨-, rfl⟩ | ⟨hpos, -, rfl⟩⟩ | ⟨-, hcmd⟩
  · cases hinit
  · exact nominal_runtimeReset hx (Nat.pos_of_ne_zero hpos) hn
  · rcases hcmd with ⟨-, rfl⟩ | ⟨n, v, rfl, -, rfl⟩ | ⟨n, -, rfl⟩ | ⟨x, v, -, -, rfl⟩ | ⟨-, rfl⟩ | ⟨v, len, -, rfl⟩
    · exact nominal_runtimeReset hx hs.fs_pos hn
    · have hv : v < 128 := of_decide_eq_true (Bool.and_eq_true_iff.1 hwf).2
      exact nominal_voiceNoteOn hx hs n hv
    · exact nominal_voiceNoteOff hs n
    · exact nominal_of_nominalRuntime hx
        (nominalRuntime_voiceSetParam x v _ (nominalRuntime_of_nominal (cfg := s.cfg) hs)) hn
    · exact (nominal_voiceTick hF hx hs).1
    · exact nominal_of_nominalRuntime hx
        (nominalRuntime_patchLoad s.bank v len (nominalRuntime_of_nominal (cfg := s.cfg) hs)) hn

end Sys2Proof.Machine

open Sys2Proof Sys2Proof.Machine

/-- Settles O57: a step that runs no command leaves the registers, and a decoded command fits its fields. -/
theorem stepKeepsAVoiceNominal : Obligations.StepKeepsAVoiceNominal := by
  intro F s t hF hx hs h hinit hn
  rcases step_cases' h with ⟨-, rfl⟩ | ⟨a, bs, rest, -, rfl⟩ | ⟨w, rest, e, -, -, rfl⟩ | ⟨w, rest, i, -, hd, hexec⟩
  · exact hs
  · exact hs
  · exact hs
  · exact exec_nominal (s := { s with inbox := rest }) hF (wf_of_decode hd) hx hs hexec hinit hn

/-- Settles O56: the tick of a nominal voice, and the average of its sources, which are PREV and the scaled FB. -/
theorem nominalVoiceStaysBounded : Obligations.NominalVoiceStaysBounded := by
  intro F s hF hx hi hs
  obtain ⟨hnominal, hsample⟩ := nominal_voiceTick hF hx hs
  refine ⟨_, whenInited_of hi _, hnominal, hsample, fun k => ?_⟩
  rw [State.modInput, hx, ← val_modulation]
  exact abs_modulation_le_one hs.prev hs.fb (seventh_unit (hs.params.voice VField.FBL)) ..
end

section
/-! The operator's frequency (43 R150 to R152): its value in each mode as R151's and R152's formula, each result
rounded, and that the ratio mode's is positive for every note of a nominal operator. -/

namespace Sys2Proof.Machine

/-! ## The values of the scaled parameters -/

theorem num_cast (f : NumFormat) (r : Raw) : ((num f r : ℚ) : ℝ) = f.roundReal (r.toInt : ℝ) := by
  rw [num, q_cast, Rat.cast_intCast]

theorem centi_cast (f : NumFormat) : ((centi f : ℚ) : ℝ) = f.roundReal (1 / 100) := by
  rw [centi, q_cast]
  push_cast
  rfl

theorem hundredth_cast (f : NumFormat) (r : Raw) :
    ((hundredth f r : ℚ) : ℝ) = f.roundReal (f.roundReal (r.toInt : ℝ) * f.roundReal (1 / 100)) := by
  rw [hundredth, NumFormat.qmul, q_cast, Rat.cast_mul, num_cast, centi_cast]

/-! ## The two modes -/

section
variable {F : Functions} (hF : F.Lawful) (f : NumFormat) (o : Op)
include hF

/-- OP.CALCFREQ in ratio mode (43 R151). -/
theorem val_ratioFreq (n : Nat) :
    (o.ratioFreq f n).val F =
      f.roundReal (f.roundReal (f.roundReal
          (f.roundReal (440 / 32 * f.roundReal (F.exp2 (f.roundReal (f.roundReal ((n : ℝ) - 9) / 12))))
            + f.roundReal (f.roundReal ((o.raw OpField.DET).toInt : ℝ) - 7))
          * (coarseRatio f (o.raw OpField.COARSE) : ℝ))
        * f.roundReal (1 + (hundredth f (o.raw OpField.FINE) : ℝ))) := by
  simp only [Op.ratioFreq, NumFormat.val_mul, NumFormat.val_add, Num.val_rat, val_exp2 hF, NumFormat.qadd,
    NumFormat.qsub, NumFormat.qdiv, q_cast, Rat.cast_add, Rat.cast_sub, Rat.cast_div, Rat.cast_natCast,
    Rat.cast_ofNat, Rat.cast_one, num_cast]

/-- OP.CALCFREQ in fixed mode (43 R152). -/
theorem val_fixedFreq :
    (o.fixedFreq f).val F =
      f.roundReal (F.pow
        (f.roundReal (10 + f.roundReal
          (f.roundReal (f.roundReal ((o.raw OpField.DET).toInt : ℝ) - 7) * f.roundReal (1 / 100))))
        (f.roundReal (f.roundReal (((o.raw OpField.COARSE).toInt.tmod 4 : Int) : ℝ)
          + (hundredth f (o.raw OpField.FINE) : ℝ)))) := by
  simp only [Op.fixedFreq, val_pow hF, Op.fixedBase, Op.fixedExponent, coarseFixed, NumFormat.qadd, NumFormat.qsub,
    NumFormat.qmul, q_cast, Rat.cast_add, Rat.cast_sub, Rat.cast_mul, Rat.cast_intCast, Rat.cast_ofNat, num_cast,
    centi_cast]

end

theorem isFixed_iff {r : Raw} : isFixed r = true ↔ r ≠ 0 := decide_eq_true_iff

/-- In ratio mode, and with DET above -993, a frequency has a value (43 R152 corner (c)). -/
theorem freqDefined_iff {o : Op} :
    o.freqDefined = true ↔ (o.raw OpField.MODE ≠ 0 → -993 < (o.raw OpField.DET).toInt) := by
  rw [Op.freqDefined, Bool.or_eq_true, Bool.not_eq_true', decide_eq_true_iff, ← Bool.not_eq_true, isFixed_iff,
    imp_iff_not_or]

theorem freqDefined_eq_false_iff {o : Op} :
    o.freqDefined = false ↔ o.raw OpField.MODE ≠ 0 ∧ (o.raw OpField.DET).toInt ≤ -993 := by
  rw [← Bool.not_eq_true, freqDefined_iff, Classical.not_imp, not_lt]

/-! ## The ratio mode of a nominal operator -/

/-- COARSE of the ratio mode is positive, whatever the register holds (43 R151). -/
theorem coarse_pos (x : ℝ) : 0 < if 0 < x then x else 1 / 2 := by
  split
  · assumption
  · norm_num

section
variable {F : Functions} (hF : F.Lawful)
include hF

/-- A power of `exp2(x)` is `exp2` of the multiple (95 FN1, FN3). -/
theorem exp2_nsmul (k : Nat) (x : ℝ) : F.exp2 (k * x) = F.exp2 x ^ k := by
  induction k with
  | zero =>
    have h0 : F.exp2 0 = 1 := by simpa using hF.exp2_int 0
    rw [Nat.cast_zero, zero_mul, h0, pow_zero]
  | succ k ih => rw [Nat.cast_succ, add_one_mul, hF.exp2_add, ih, pow_succ]

/-- The lowest note's pitch is above 7, the most that a nominal DET takes from it: `exp2((note-9)/12)` is at least
`exp2(-9/12)`, whose twelfth power is `2^(-9)`. -/
theorem seven_lt_notePitch (n : Nat) : 7 < 440 / 32 * F.exp2 (((n : ℝ) - 9) / 12) := by
  have hpow : F.exp2 (((n : ℝ) - 9) / 12) ^ 12 = 2 ^ ((n : Int) - 9) := by
    rw [← exp2_nsmul hF, ← hF.exp2_int]
    congr 1
    push_cast
    ring
  have hle : (2 : ℝ) ^ (-9 : Int) ≤ 2 ^ ((n : Int) - 9) := zpow_le_zpow_right₀ (by norm_num) (by omega)
  have hlt : (28 / 55 : ℝ) ^ 12 < F.exp2 (((n : ℝ) - 9) / 12) ^ 12 := by
    rw [hpow]
    exact lt_of_lt_of_le (by norm_num) hle
  have := lt_of_pow_lt_pow_left₀ 12 (hF.exp2_pos _).le hlt
  linarith

end

end Sys2Proof.Machine

open Sys2Proof Sys2Proof.Machine

/-- Settles O20: MODE = 0 selects R151's formula, which always has a value. -/
theorem ratioModeFrequency : Obligations.RatioModeFrequency := by
  intro F f o n hF hmode
  dsimp only
  have hratio : ¬ isFixed (o.raw OpField.MODE) = true := fun h => isFixed_iff.1 h hmode
  refine ⟨freqDefined_iff.2 fun h => (h hmode).elim, ?_⟩
  rw [Op.freq, if_neg hratio, val_ratioFreq hF, coarseRatio_cast, hundredth_cast]

/-- Settles O21: a MODE other than 0 selects R152's formula. -/
theorem fixedModeFrequency : Obligations.FixedModeFrequency := by
  intro F f o n hF hmode
  refine ⟨freqDefined_iff.trans (imp_iff_right hmode), ?_⟩
  rw [Op.freq, if_pos (isFixed_iff.2 hmode), val_fixedFreq hF, hundredth_cast]

/-- Settles O24: the note's pitch exceeds what DET can take from it, and the two factors are positive. -/
theorem nominalRatioFrequencyIsPositive : Obligations.NominalRatioFrequencyIsPositive := by
  intro F o n hF hn hmode _
  have hvalue := (ratioModeFrequency F .exact o n hF hmode).2
  simp only [roundReal_exact] at hvalue
  have hdet : (0 : ℝ) ≤ (o.raw OpField.DET).toInt := by exact_mod_cast (hn OpField.DET).1
  have hfine : (0 : ℝ) ≤ (o.raw OpField.FINE).toInt := by exact_mod_cast (hn OpField.FINE).1
  have hpitch := seven_lt_notePitch hF n
  rw [hvalue]
  exact mul_pos (mul_pos (by linarith) (coarse_pos _)) (by linarith)
end

section
/-! What the commands do to the operators (43 R153 to R156): NOTE_ON, NOTE_OFF, SET_PARAM of an operator register and
TICK with their frames, when NOTE_ON and SET_PARAM are refused, and that BASEFREQ follows the latched note. -/

namespace Sys2Proof.Machine

/-! ## Frames and conditions -/

/-- A completed command changes nothing outside the registers it returns, if it keeps FS (47 R220, 30 R94). -/
theorem complete_outsideSame {s : State} {r : Regs} (hfs : r.fs = s.fs) : s.OutsideSame (complete s r) :=
  ⟨⟨fun _ => rfl, rfl, rfl, rfl⟩, hfs, rfl, rfl, rfl, rfl⟩

theorem all_freqDefined_iff {r : Regs} :
    r.op.all Op.freqDefined = true ↔ ∀ k : Fin 6, (r.op[k]).freqDefined = true := by
  rw [Vector.all_eq_true]
  exact ⟨fun h k => h k.val k.isLt, fun h i hi => h ⟨i, hi⟩⟩

theorem isFreqField_iff {f : Fin 21} :
    isFreqField f = true ↔ f ∈ [OpField.DET, OpField.COARSE, OpField.MODE, OpField.FINE] := by
  simp [isFreqField, or_assoc]

/-! ## Flat indices of operator registers (10 R26) -/

section
variable (k : Fin 6) (f : Fin 21)

theorem flatOp_lt : flatOp k f < 126 := by
  unfold flatOp
  omega

theorem opIndex_flatOp : opIndex (flatOp k f) = k ∧ opFieldIndex (flatOp k f) = f := opIndex_block k.isLt f.isLt

theorem voiceSetParam_flatOp (cfg : Config) (v : Raw) (r : Regs) :
    voiceSetParam cfg (flatOp k f) v r = modifyOp r k (Op.setParam cfg f v) := by
  obtain ⟨hk, hf⟩ := opIndex_flatOp k f
  rw [voiceSetParam, if_pos (flatOp_lt k f), hk, hf]

theorem setParamDefined_flatOp (v : Raw) (r : Regs) :
    setParamDefined (flatOp k f) v r = (r.op[k]).setParamDefined f v := by
  obtain ⟨hk, hf⟩ := opIndex_flatOp k f
  simp only [setParamDefined, flatOp_lt, hk, hf, decide_true, Bool.not_true, Bool.false_or]

end

/-- Every flat index below 126 names an operator register. -/
theorem exists_flatOp {i : Nat} (h : i < 126) : ∃ k f, i = flatOp k f := by
  refine ⟨opIndex i, opFieldIndex i, ?_⟩
  simp only [flatOp, opIndex, opFieldIndex]
  omega

/-! ## Refusals -/

/-- OP.SETPARAM's recompute has no value when the write leaves the operator without a frequency (43 R152 corner (c)). -/
theorem op_setParamDefined_eq_false_iff {o : Op} {f : Fin 21} {v : Raw} :
    o.setParamDefined f v = false ↔
      f ∈ [OpField.DET, OpField.COARSE, OpField.MODE, OpField.FINE] ∧
        (if f = OpField.MODE then v else o.raw OpField.MODE) ≠ 0 ∧
        (if f = OpField.DET then v else o.raw OpField.DET).toInt ≤ -993 := by
  rw [Op.setParamDefined, Bool.or_eq_false_iff, Bool.not_eq_false', isFreqField_iff, freqDefined_eq_false_iff,
    store_raw, store_raw]

theorem op_setParamDefined_of {o : Op} {f : Fin 21} {v : Raw}
    (h : f ∈ [OpField.DET, OpField.COARSE, OpField.MODE, OpField.FINE] → (o.store f v).freqDefined = true) :
    o.setParamDefined f v = true := by
  rw [Op.setParamDefined, Bool.or_eq_true, Bool.not_eq_true', ← Bool.not_eq_true, isFreqField_iff,
    ← imp_iff_not_or]
  exact h

section
variable {s : State} (hi : s.status.inited = true)
include hi

theorem exec_setParam_refused_iff (i : Nat) (v : Raw) :
    exec (.setParam i v) s = .refused .powBaseNotPositive ↔ setParamDefined i v s.toRegs = false := by
  rw [exec, execSetParam, whenInited_of hi]
  cases setParamDefined i v s.toRegs <;> simp

theorem exec_noteOn_refused_iff (n v : Nat) :
    exec (.noteOn n v) s = .refused .powBaseNotPositive ↔ s.op.all Op.freqDefined = false := by
  rw [exec, execNoteOn, whenInited_of hi]
  cases s.op.all Op.freqDefined <;> simp

theorem exec_noteOn_of (n v : Nat) (h : ∀ k : Fin 6, (s.op[k]).freqDefined = true) :
    exec (.noteOn n v) s = .next (complete s (voiceNoteOn s.cfg n v s.toRegs)) := by
  rw [exec, execNoteOn, whenInited_of hi, if_pos (all_freqDefined_iff.2 h)]

theorem exec_setParam_of {i : Nat} {v : Raw} (h : setParamDefined i v s.toRegs = true) :
    exec (.setParam i v) s = .next (complete s (voiceSetParam s.cfg i v s.toRegs)) := by
  rw [exec, execSetParam, whenInited_of hi, if_pos h]

end

/-! ## TICK -/

/-- After V.TICK, whatever the latches were, they hold their parameters times 0.01 (43 R154 (a), 45 R181). -/
theorem latchesCurrent_tickWith (cfg : Config) (a : Fin 32) (r : Regs) :
    (tickWith cfg a r).1.latchesCurrent cfg.num := by
  constructor
  · intro k
    rw [tickWith_op]
    exact tick_refreshEg ..
  · exact refreshPeg_eq_self_of_same (r := { r with peg := refreshPeg cfg.num r }) rfl (fun _ _ => rfl)
      (eg_step_latches ..)

/-- The phase increment of a tick (43 R154 (b)). -/
theorem val_increment {F : Functions} (hF : F.Lawful) (f : NumFormat) (fs : Nat) (pitch : ℚ) (o : Op) :
    (o.increment f fs pitch).val F =
      f.roundReal (f.roundReal (o.baseFreq.val F / f.roundReal (fs : ℝ))
        * f.roundReal (F.exp2 (f.roundReal (f.roundReal ((pitch : ℝ) * 8) - 4)))) := by
  simp only [Op.increment, NumFormat.val_mul, NumFormat.val_div, Num.val_rat, val_exp2 hF, NumFormat.qsub,
    NumFormat.qmul, q_cast, Rat.cast_sub, Rat.cast_mul, Rat.cast_natCast, Rat.cast_ofNat]

/-! ## BASEFREQ -/

/-- BASEFREQ is 0 or what the present parameters and the latched note give (70 R286). -/
def Op.FreqCurrent (f : NumFormat) (o : Op) : Prop := o.baseFreq = .rat 0 ∨ o.baseFreq = o.freq f o.note

/-- The same of all six operators. -/
def Regs.FreqCurrent (f : NumFormat) (r : Regs) : Prop := ∀ k : Fin 6, (r.op[k]).FreqCurrent f

/-- A frequency depends on the parameters and on nothing else of the operator. -/
theorem freq_of_params {o o' : Op} (h : o'.p = o.p) (f : NumFormat) (n : Nat) : o'.freq f n = o.freq f n := by
  refine freq_congr ?_ ?_ ?_ ?_ f n <;> rw [Op.raw, h] <;> rfl

theorem freqCurrent_congr {f : NumFormat} {o o' : Op} (hp : o'.p = o.p) (hb : o'.baseFreq = o.baseFreq)
    (hn : o'.note = o.note) (h : o.FreqCurrent f) : o'.FreqCurrent f := by
  rw [Op.FreqCurrent, hb, hn, freq_of_params hp]
  exact h

/-- OP.SETPARAM recomputes BASEFREQ with the latched note whenever the write can change the frequency (43 R153). -/
theorem freqCurrent_setParam {cfg : Config} {o : Op} (h : o.FreqCurrent cfg.num) (f : Fin 21) (v : Raw) :
    (o.setParam cfg f v).FreqCurrent cfg.num := by
  obtain ⟨hp, -, -, hnote, hbase, -⟩ := setParam_spec cfg f v o
  rw [Op.FreqCurrent, hbase, hnote, freq_of_params (o := o.store f v) hp]
  split
  · exact .inr rfl
  · next hf =>
    rw [store_freq (Bool.not_eq_true _ ▸ hf)]
    exact h

section
variable {cfg : Config} {r : Regs}

theorem freqCurrent_voiceSetParam (i : Nat) (v : Raw) (r : Regs) (h : r.FreqCurrent cfg.num) :
    (voiceSetParam cfg i v r).FreqCurrent cfg.num := by
  rcases voiceSetParam_cases cfg i v r with ⟨-, he⟩ | ⟨_, he⟩ | ⟨-, he⟩ <;> rw [he]
  · intro k
    rw [modifyOp_get]
    split
    · exact freqCurrent_setParam (h _) _ v
    · exact h k
  · exact h
  · exact h

theorem freqCurrent_patchLoad (bank : Memory) (v len : Nat) (h : r.FreqCurrent cfg.num) :
    (patchLoad cfg bank v len r).FreqCurrent cfg.num := by
  rcases patchLoad_cases cfg bank v len r with ⟨-, he⟩ | ⟨base, -, he⟩ <;> rw [he]
  · exact h
  · exact loadRecord_induct cfg bank base freqCurrent_voiceSetParam r h

theorem freqCurrent_runtimeReset : (runtimeReset cfg r).FreqCurrent cfg.num := fun k => by
  obtain ⟨-, -, -, -, -, hop⟩ := runtimeReset_keeps cfg r
  rw [hop k]
  split <;> exact .inl rfl

theorem freqCurrent_voiceNoteOn (n v : Nat) : (voiceNoteOn cfg n v r).FreqCurrent cfg.num := fun k => by
  rw [voiceNoteOn_op, map_get]
  exact .inr rfl

theorem freqCurrent_voiceNoteOff (n : Nat) (h : r.FreqCurrent cfg.num) :
    (voiceNoteOff cfg n r).FreqCurrent cfg.num := fun k => by
  rw [voiceNoteOff_op, map_get]
  exact h k

theorem freqCurrent_voiceTick (h : r.FreqCurrent cfg.num) : (voiceTick cfg r).1.FreqCurrent cfg.num := fun k => by
  obtain ⟨-, -, hops⟩ := voiceTick_keeps cfg r
  obtain ⟨hp, hbase, -, hnote⟩ := hops k
  exact freqCurrent_congr hp hbase hnote (h k)

end

/-- Every command keeps every BASEFREQ current; INIT and RESET make it 0. -/
theorem exec_freqInv {i : Instr} {s t : State} (hs : s.FreqInv) (h : exec i s = .next t) : t.FreqInv := by
  rcases exec_cases h with ⟨fs, -, ⟨-, rfl⟩ | ⟨-, -, rfl⟩⟩ | ⟨hi, hcmd⟩
  · intro hinit
    cases hinit
  · exact fun _ => freqCurrent_runtimeReset
  · rcases hcmd with ⟨-, rfl⟩ | ⟨n, v, -, -, rfl⟩ | ⟨n, -, rfl⟩ | ⟨x, v, -, -, rfl⟩ | ⟨-, rfl⟩ | ⟨v, len, -, rfl⟩
    · exact fun _ => freqCurrent_runtimeReset
    · exact fun _ => freqCurrent_voiceNoteOn n v
    · exact fun _ => freqCurrent_voiceNoteOff n (hs hi)
    · exact fun _ => freqCurrent_voiceSetParam x v _ (hs hi)
    · exact fun _ => freqCurrent_voiceTick (hs hi)
    · exact fun _ => freqCurrent_patchLoad s.bank v len (hs hi)

end Sys2Proof.Machine

open Sys2Proof Sys2Proof.Machine

/-- Settles O12: the registers that V.NOTEON returns, operator by operator. -/
theorem noteOnEffect : Obligations.NoteOnEffect := by
  intro s n v hi hdef q
  refine ⟨_, exec_noteOn_of hi n v hdef, ⟨fun k => ?_, rfl⟩, complete_outsideSame rfl, rfl, rfl, rfl, fun k => ?_⟩
  · rw [complete_op, voiceNoteOn_op, map_get, opNoteOn_p]
  · rw [complete_op, voiceNoteOn_op, map_get]
    exact ⟨rfl, rfl, rfl, rfl, rfl⟩

/-- Settles O13: the registers that V.NOTEOFF returns, which do not depend on the note. -/
theorem noteOffEffect : Obligations.NoteOffEffect := by
  intro s n hi
  refine ⟨_, whenInited_of hi _, ⟨fun k => ?_, rfl⟩, complete_outsideSame rfl, rfl, rfl, rfl, fun k => ?_,
    fun m => rfl⟩
  · rw [complete_op, voiceNoteOff_op, map_get, opNoteOff_p]
  · rw [complete_op, voiceNoteOff_op, map_get]
    exact ⟨rfl, rfl, rfl, rfl, rfl⟩

/-- Settles O28: each operator after V.TICK is what OP.TICK leaves, whose phase and output are R154's formulas. -/
theorem tickAdvancesEveryOperator : Obligations.TickAdvancesEveryOperator := by
  intro s hi hu
  refine ⟨_, exec_tick_used hi hu, rfl, fun k => ?_, fun F k hF => ⟨?_, ?_⟩⟩
  · rw [completeTick_op, tickWith_op]
    exact ⟨rfl, rfl, rfl, rfl, rfl⟩
  · rw [completeTick_op, tickWith_op, tick_phase]
    simp only [val_fmod1, NumFormat.val_add, NumFormat.val_mul, Num.val_rat, q_cast, val_increment hF, val_modulation,
      State.pitchEnv, State.modInput, Rat.cast_div, Rat.cast_one, Rat.cast_ofNat]
  · rw [completeTick_prev, completeTick_op, tickWith_prev, tickWith_op, tick_out, opTick_eg]
    simp only [NumFormat.val_mul, Num.val_rat, val_osc hF, hundredth_cast]

/-- Settles O38: V.TICK refreshes every latch and then leaves it. -/
theorem tickRefreshesLatches : Obligations.TickRefreshesLatches := by
  intro s hi hu
  exact ⟨_, exec_tick_used hi hu, latchesCurrent_tickWith ..⟩

/-- Settles O39: the flat index names one register of one operator, and OP.SETPARAM is applied to that operator. -/
theorem setOperatorParameter : Obligations.SetOperatorParameter := by
  intro s k f v hi hdef
  have hdefined : setParamDefined (flatOp k f) v s.toRegs = true :=
    (setParamDefined_flatOp k f v _).trans (op_setParamDefined_of hdef)
  have hexec := exec_setParam_of hi hdefined
  rw [voiceSetParam_flatOp] at hexec
  obtain ⟨hp, hphase, hvel, hnote, hbase, heg⟩ := setParam_spec s.cfg f v s.op[k]
  refine ⟨_, hexec, complete_outsideSame rfl, rfl, rfl, rfl, rfl, fun j g => ?_, fun j => ?_⟩
  · rw [complete_op, modifyOp_get]
    by_cases hj : j = k
    · subst hj
      simp only [if_true, setParam_raw, true_and, eq_comm]
    · rw [if_neg (Ne.symm hj), if_neg fun h => hj h.1]
  · rw [complete_op, modifyOp_get]
    by_cases hj : j = k
    · subst hj
      have hfreq : ((s.op[j]).setParam s.cfg f v).freq s.cfg.num (s.op[j]).note =
          ((s.op[j]).store f v).freq s.cfg.num (s.op[j]).note := freq_of_params hp ..
      rw [if_pos rfl, hfreq]
      simp only [true_and, ← isFreqField_iff]
      refine ⟨hphase, hvel, hnote, hbase, heg.trans ?_⟩
      simp only [setParam_raw, ← store_raw]
      rfl
    · simp only [if_neg (Ne.symm hj), hj, false_and, if_false, and_self]

/-- Settles O42: only a write to an operator register can be refused, and then by the value it leaves. -/
theorem setParamRefusedExactlyWithoutFrequency : Obligations.SetParamRefusedExactlyWithoutFrequency := by
  intro s i v hi
  rw [exec_setParam_refused_iff hi]
  constructor
  · intro hundef
    have hlt : i < 126 := by
      by_contra hge
      rw [setParamDefined_of_le (not_lt.1 hge)] at hundef
      cases hundef
    obtain ⟨k, f, rfl⟩ := exists_flatOp hlt
    rw [setParamDefined_flatOp] at hundef
    exact ⟨k, f, rfl, op_setParamDefined_eq_false_iff.1 hundef⟩
  · rintro ⟨k, f, rfl, hundef⟩
    rw [setParamDefined_flatOp]
    exact op_setParamDefined_eq_false_iff.2 hundef

/-- Settles O43: NOTE_ON tests each operator's frequency, and nothing else. -/
theorem noteOnRefusedExactlyWithoutFrequency : Obligations.NoteOnRefusedExactlyWithoutFrequency := by
  intro s n v hi
  rw [exec_noteOn_refused_iff hi, ← Bool.not_eq_true, all_freqDefined_iff, not_forall]
  simp only [Bool.not_eq_true, freqDefined_eq_false_iff]

/-- Settles O55: at power-on no operator is initialised, a step that runs no command leaves the registers, and every
command keeps every BASEFREQ current. -/
theorem frequencyFollowsTheLatchedNote : Obligations.FrequencyFollowsTheLatchedNote := by
  refine ⟨fun hinit => (Bool.false_ne_true hinit).elim, fun s t hs h => ?_⟩
  rcases step_cases' h with ⟨-, rfl⟩ | ⟨a, bs, rest, -, rfl⟩ | ⟨w, rest, e, -, -, rfl⟩ | ⟨w, rest, i, -, -, hexec⟩
  · exact hs
  · exact hs
  · exact hs
  · exact exec_freqInv (s := { s with inbox := rest }) hs hexec
end

section
/-! The algorithm ROM (44): the entry a TICK uses (R174), the cells its crossbar reads (R172), and that the ROM is free
of self-modulation and never written (R171). -/

namespace Sys2Proof.Machine

/-! ## The index in use (44 R174) -/

theorem clampAlg_val (r : Raw) : ((clampAlg r).val : Int) = min (max r.toInt 0) 31 :=
  Int.toNat_of_nonneg (by omega)

theorem algInRange_eq_false_iff {r : Raw} : algInRange r = false ↔ r.toInt < 0 ∨ 31 < r.toInt := by
  rw [algInRange, Bool.and_eq_false_iff, decide_eq_false_iff_not, decide_eq_false_iff_not, not_le, not_le]

/-- With ALG_OOR = noop a TICK of an index out of range changes SAMPLE_OUT and its validity alone. -/
theorem exec_tick_noop {s : State} (hi : s.status.inited = true) (hnoop : s.cfg.algOor = .noop)
    (hout : algInRange s.pv[VField.ALG] = false) :
    exec .tick s = .next { s with sampleOut := .rat 0, sampleValid := true } := by
  have hvoice : voiceTick s.cfg s.toRegs = (s.toRegs, .rat 0) := if_pos ⟨hnoop, hout⟩
  calc exec .tick s
      = .next (completeTick s (voiceTick s.cfg s.toRegs).1 (voiceTick s.cfg s.toRegs).2) := whenInited_of hi _
    _ = .next { s with sampleOut := .rat 0, sampleValid := true } := by rw [hvoice]; rfl

/-! ## The cells that the crossbar reads (44 R172) -/

/-- An average of step 4 reads the six operator cells of its row alone (45 R184). -/
theorem mix_congr {x y : Vector AlgEntry 32} {a : Fin 32} {row : Fin 8}
    (hrow : ∀ s, rowGate x a row s = rowGate y a row s) (f : NumFormat) (tmp : Vector Num 6) :
    mix f x a row tmp = mix f y a row tmp := by
  have hsources : sources x a row = sources y a row := List.filter_congr fun s _ => hrow s
  rw [mix, mix, hsources]

/-- The modulation input of an operator reads its gates from the other operators and its feedback gate alone
(45 R183). -/
theorem modulation_congr {x y : Vector AlgEntry 32} {a : Fin 32} {d : Fin 6}
    (hgate : ∀ s, s ≠ d → gate x a d s = gate y a d s) (hfb : fbGate x a d = fbGate y a d) (f : NumFormat)
    (prev : Vector Num 6) (fb : Num) (fbLevel : ℚ) :
    modulation f x a prev fb fbLevel d = modulation f y a prev fb fbLevel d := by
  have hmodulators : modulators x a d = modulators y a d :=
    List.filter_congr fun s _ => decide_eq_decide.2 (and_congr_right fun hne => by rw [hgate s hne])
  rw [modulation_eq, modulation_eq, hmodulators, hfb]

/-- Steps 1 to 5 of V.TICK are the same under two ROMs that agree on the cells that a rule reads. -/
theorem tickWith_of_sameReadCells {cfg : Config} {rom : AlgRom} (h : SameReadCells cfg.algRom.cells rom.cells)
    (a : Fin 32) (r : Regs) : tickWith { cfg with algRom := rom } a r = tickWith cfg a r := by
  obtain ⟨hgate, hfb, hfeedback, hcarriers⟩ := h a
  simp only [tickWith, tickOps, modulation_congr (hgate _) (hfb _), mix_congr hfeedback, mix_congr hcarriers]

/-! ## The constant ROM (44 R171) -/

/-- The check that every configured ROM has passed, cell by cell. -/
theorem gate_self_of_selfFree {cells : Vector AlgEntry 32} (h : selfFree cells = true) (a : Fin 32) (d : Fin 6) :
    gate cells a d d = false := by
  have hentry := List.all_eq_true.1 h a (List.mem_finRange a)
  have hcell := List.all_eq_true.1 hentry d (List.mem_finRange d)
  exact Bool.eq_false_of_not_eq_true' hcell

/-- No command writes the open parameters of the configuration (00 R6). -/
theorem exec_cfg {i : Instr} {s t : State} (h : exec i s = .next t) : t.cfg = s.cfg := by
  rcases exec_cases h with ⟨fs, -, ⟨-, rfl⟩ | ⟨-, -, rfl⟩⟩ |
    ⟨-, ⟨-, rfl⟩ | ⟨n, v, -, -, rfl⟩ | ⟨n, -, rfl⟩ | ⟨x, v, -, -, rfl⟩ | ⟨-, rfl⟩ | ⟨v, len, -, rfl⟩⟩
  all_goals rfl

/-- No step writes the open parameters of the configuration. -/
theorem step_cfg {s t : State} (h : step s = .next t) : t.cfg = s.cfg := by
  rcases step_cases' h with ⟨-, rfl⟩ | ⟨a, bs, rest, -, rfl⟩ | ⟨w, rest, e, -, -, rfl⟩ | ⟨w, rest, i, -, -, hexec⟩
  · rfl
  · rfl
  · rfl
  · exact exec_cfg (s := { s with inbox := rest }) hexec

end Sys2Proof.Machine

open Sys2Proof Sys2Proof.Machine

/-- Settles O32: the entry of a used index is the clamped one, and a TICK keeps the register it is read from. -/
theorem algorithmIndexOutOfRange : Obligations.AlgorithmIndexOutOfRange := by
  refine fun s hi => ⟨fun hu => ?_, fun hnoop hout => exec_tick_noop hi hnoop (algInRange_eq_false_iff.2 hout)⟩
  refine ⟨_, clampAlg s.pv[VField.ALG], exec_tick_used hi hu, clampAlg_val _, ?_, rfl, rfl⟩
  rw [completeTick_pv, tickWith_pv]

/-- Settles O33: both ROMs give the same tick with every entry, and which entry is used is not the ROM's to say. -/
theorem unreadRomCellsAreUnobservable : Obligations.UnreadRomCellsAreUnobservable := by
  intro s rom h
  rw [voiceTick, voiceTick, tickWith_of_sameReadCells h]

/-- Settles O34: the ROM carries the check of R171 (b), and it stands in the configuration, which no step writes. -/
theorem romIsConstantWithoutSelfModulation : Obligations.RomIsConstantWithoutSelfModulation :=
  ⟨fun cfg => gate_self_of_selfFree cfg.algRom.noSelf, fun _ _ h => congrArg Config.algRom (step_cfg h)⟩
end

section
/-! The voice (45): the modulation input under the reference semantics (R190), what a TICK writes and what it leaves
(R180, R184 to R186), SET_PARAM of a voice register (R187), and the pitch envelope that PEG_GATE = 0 leaves IDLE
(R189). -/

namespace Sys2Proof.Machine

/-! ## The modulation input under the reference semantics (45 R183) -/

theorem crossbarSum_exact (rom : Vector AlgEntry 32) (a : Fin 32) (prev : Fin 6 → ℝ) (fb fbLevel : ℝ) (d : Fin 6) :
    crossbarSum .exact rom a prev fb fbLevel d =
      (∑ s : Fin 6, if isSource rom a d s then prev s else 0)
        + if fbGate rom a d = true then fb * fbLevel else 0 := by
  rw [crossbarSum, accumulate_exact]
  split
  · rfl
  · exact (add_zero _).symm

/-! ## TICK -/

/-- A TICK that completes has done so with the registers and the sample of V.TICK (47 R226). -/
theorem eq_of_exec_tick {s t : State} (h : exec .tick s = .next t) :
    t = completeTick s (voiceTick s.cfg s.toRegs).1 (voiceTick s.cfg s.toRegs).2 := by
  obtain ⟨-, hnext⟩ := whenInited_next.1 h
  cases hnext
  rfl

/-- The modulation input reaches the phase of an operator's tick alone (43 R154): its output and its other registers
are the same for any other input. -/
theorem tick_modulation_reaches_phase (f : NumFormat) (o : Op) (n : Nat) (m m' : Num) (x a : ℚ) :
    (o.tick f n m' x a).2 = (o.tick f n m x a).2 ∧
      { (o.tick f n m' x a).1 with phase := (o.tick f n m x a).1.phase } = (o.tick f n m x a).1 :=
  ⟨rfl, rfl⟩

/-- What PREV and FB hold reaches no output of the operators (45 R186). -/
theorem tickWith_prev_of_delay (cfg : Config) (a : Fin 32) (r : Regs) (prev : Vector Num 6) (fb : Num) :
    (tickWith cfg a { r with prev := prev, fb := fb }).1.prev = (tickWith cfg a r).1.prev := by
  refine Vector.ext fun k hk => ?_
  have hout := fun r' => tickWith_prev cfg a r' ⟨k, hk⟩
  exact (hout _).trans ((tick_modulation_reaches_phase ..).1.trans (hout r).symm)

/-! ## SET_PARAM of a voice register -/

/-- V.SETPARAM at a voice register's flat index (45 R187). -/
theorem voiceSetParam_flatVoice (cfg : Config) (g : Fin 29) (v : Raw) (r : Regs) :
    voiceSetParam cfg (flatVoice g) v r =
      { r with
        pv := r.pv.set g v
        peg := if cfg.egRefresh = .atWrite ∧ g.val < 8 then refreshPeg cfg.num { r with pv := r.pv.set g v }
          else r.peg } := by
  have hindex : flatVoice g = 126 + g.val := rfl
  have hsub : flatVoice g - 126 = g.val := by omega
  rcases voiceSetParam_cases cfg (flatVoice g) v r with ⟨hlt, -⟩ | ⟨_, he⟩ | ⟨hge, -⟩
  · omega
  · simpa only [hsub] using he
  · omega

/-! ## The pitch envelope with PEG_GATE = 0 (45 R189) -/

/-- A parameter write loads the pitch envelope's latches at most (45 R187). -/
theorem voiceSetParam_peg_st (cfg : Config) (i : Nat) (v : Raw) (r : Regs) :
    (voiceSetParam cfg i v r).peg.st = r.peg.st := by
  rcases voiceSetParam_cases cfg i v r with ⟨-, he⟩ | ⟨_, he⟩ | ⟨-, he⟩ <;> rw [he]
  · rfl
  · dsimp only
    split <;> rfl

theorem patchLoad_peg_st (cfg : Config) (bank : Memory) (v len : Nat) (r : Regs) :
    (patchLoad cfg bank v len r).peg.st = r.peg.st := by
  rcases patchLoad_cases cfg bank v len r with ⟨-, he⟩ | ⟨base, -, he⟩ <;> rw [he]
  exact loadRecord_induct (P := fun r' => r'.peg.st = r.peg.st) cfg bank base
    (fun i w r' h => (voiceSetParam_peg_st cfg i w r').trans h) r rfl

theorem runtimeReset_peg_st (cfg : Config) (r : Regs) : (runtimeReset cfg r).peg.st = .idle := by
  obtain ⟨-, -, -, -, hpeg, -⟩ := runtimeReset_keeps cfg r
  rw [hpeg]
  split <;> rfl

/-- An IDLE pitch envelope is IDLE after a tick, at the level just loaded (45 R181, 42 R127). -/
theorem tickWith_peg_of_idle {r : Regs} (h : r.peg.st = .idle) (cfg : Config) (a : Fin 32) :
    (tickWith cfg a r).1.peg.st = .idle ∧
      (tickWith cfg a r).1.peg.val = hundredth cfg.num r.pv[VField.PL4] := by
  rw [tickWith_peg]
  exact (step_holds_level cfg.num r.fs (refreshPeg cfg.num r)).2 h

theorem voiceTick_peg_st {r : Regs} (h : r.peg.st = .idle) (cfg : Config) : (voiceTick cfg r).1.peg.st = .idle := by
  rcases voiceTick_cases cfg r with hused | ⟨-, -, hnoop⟩
  · rw [hused]
    exact (tickWith_peg_of_idle h cfg _).1
  · rw [hnoop]
    exact h

/-- INIT and RESET make the pitch envelope IDLE; with PEG_GATE = 0 no note event gates it, and no other command takes
it out of IDLE. -/
theorem exec_pegInv {i : Instr} {s t : State} (hs : s.PegInv) (h : exec i s = .next t) : t.PegInv := by
  rcases exec_cases h with ⟨fs, -, ⟨-, rfl⟩ | ⟨-, -, rfl⟩⟩ | ⟨hi, hcmd⟩
  · intro hinit
    cases hinit
  · exact fun _ _ => runtimeReset_peg_st ..
  · rcases hcmd with ⟨-, rfl⟩ | ⟨n, v, -, -, rfl⟩ | ⟨n, -, rfl⟩ | ⟨x, v, -, -, rfl⟩ | ⟨-, rfl⟩ | ⟨v, len, -, rfl⟩ <;>
      intro _ hgate
    · exact runtimeReset_peg_st ..
    · have hkept : (voiceNoteOn s.cfg n v s.toRegs).peg = s.peg := if_neg (Bool.eq_false_iff.1 hgate)
      exact (congrArg Eg.st hkept).trans (hs hi hgate)
    · have hkept : (voiceNoteOff s.cfg n s.toRegs).peg = s.peg := if_neg (Bool.eq_false_iff.1 hgate)
      exact (congrArg Eg.st hkept).trans (hs hi hgate)
    · exact (voiceSetParam_peg_st ..).trans (hs hi hgate)
    · exact voiceTick_peg_st (hs hi hgate) s.cfg
    · exact (patchLoad_peg_st ..).trans (hs hi hgate)

end Sys2Proof.Machine

open Sys2Proof Sys2Proof.Machine

/-- Settles O29: the loop of R180 on the values of the sources, and the sum it is where nothing is rounded. -/
theorem modulationIsTheAverageOfItsSources : Obligations.ModulationIsTheAverageOfItsSources := by
  refine ⟨val_modulation, fun rom a prev fb fbLevel d => ?_⟩
  rw [crossbarInput, crossbarSum_exact]
  rfl

/-- Settles O30: TMP is what V.TICK leaves in PREV, and both averages are taken of it. -/
theorem tickMixesAndCommits : Obligations.TickMixesAndCommits := by
  intro s hi hu a
  refine ⟨_, (tickWith s.cfg a s.toRegs).1.prev, exec_tick_used hi hu, tickWith_prev s.cfg a s.toRegs, rfl, rfl,
    fun F => ⟨?_, ?_⟩⟩
  · rw [completeTick_fb, tickWith_fb, val_mix]
  · rw [completeTick_sampleOut, tickWith_out, val_mix]

/-- Settles O31: a TICK completes with the registers of V.TICK, which keeps these. -/
theorem tickFrame : Obligations.TickFrame := by
  intro s t h
  obtain rfl := eq_of_exec_tick h
  obtain ⟨hfs, hpv, hops⟩ := voiceTick_keeps s.cfg s.toRegs
  exact ⟨⟨fun k => (hops k).1, hpv⟩, ⟨fun _ => rfl, rfl, rfl, rfl⟩, hfs, rfl, rfl, fun k => (hops k).2⟩

/-- Settles O35: PREV and FB reach a tick through the modulation inputs, which reach the phases alone. -/
theorem delayRegistersReachOnlyPhases : Obligations.DelayRegistersReachOnlyPhases := by
  intro s prev fb hi hu
  have hprev := tickWith_prev_of_delay s.cfg (clampAlg s.pv[VField.ALG]) s.toRegs prev fb
  refine ⟨_, _, exec_tick_used hi hu, exec_tick_used (s := { s with prev := prev, fb := fb }) hi hu, ?_, hprev, ?_, rfl,
    fun k => ?_⟩
  · rw [completeTick_sampleOut, completeTick_sampleOut, tickWith_out, tickWith_out, hprev]
  · rw [completeTick_fb, completeTick_fb, tickWith_fb, tickWith_fb, hprev]
  · rw [completeTick_op, completeTick_op, tickWith_op, tickWith_op]
    exact (tick_modulation_reaches_phase ..).2

/-- Settles O40: the flat index names one voice register, and the write of it is never refused. -/
theorem setVoiceParameter : Obligations.SetVoiceParameter := by
  intro s g v hi
  have hexec := exec_setParam_of hi (setParamDefined_of_le (Nat.le_add_right 126 g.val) v s.toRegs)
  rw [← flatVoice, voiceSetParam_flatVoice] at hexec
  refine ⟨_, hexec, complete_outsideSame rfl, rfl, rfl, rfl, fun h => ?_, rfl⟩
  rw [complete_pv]
  simp only [Fin.getElem_fin, Vector.getElem_set, Fin.ext_iff, eq_comm]

/-- Settles O54: a step that runs no command leaves the registers, every command leaves an ungated pitch envelope IDLE,
and a tick in IDLE sets the value to the level. -/
theorem ungatedPitchEnvelopeRests : Obligations.UngatedPitchEnvelopeRests := by
  refine ⟨fun s t hs h => ?_, fun s hs hi hgate hu => ?_⟩
  · rcases step_cases' h with ⟨-, rfl⟩ | ⟨a, bs, rest, -, rfl⟩ | ⟨w, rest, e, -, -, rfl⟩ | ⟨w, rest, i, -, -, hexec⟩
    · exact hs
    · exact hs
    · exact hs
    · exact exec_pegInv (s := { s with inbox := rest }) hs hexec
  · exact ⟨_, exec_tick_used hi hu, tickWith_peg_of_idle (hs hi hgate) ..⟩
end

section
/-! The patch decoder (46): the numbers that the packed fields hold (R205, R206), and what LOAD_VOICE does (R200, R210):
every write of a load goes through V.SETPARAM and a load writes each of the flat indices 0 to 144, so what every write
keeps and one write establishes holds after it. -/

namespace Sys2Proof.Machine

/-! ## The packed fields as numbers -/

theorem wholeByte_toNat (b : Byte) : (wholeByte b).toNat = b.toNat := by
  rw [wholeByte, BitVec.toNat_setWidth, Nat.mod_eq_of_lt (by omega)]

theorem byteField_toNat (b : Byte) (h l : Nat) :
    (byteField b h l).toNat = b.toNat / 2 ^ l % 2 ^ (h - l + 1) := by
  have hle : b.toNat / 2 ^ l % 2 ^ (h - l + 1) ≤ b.toNat := (Nat.mod_le ..).trans (Nat.div_le_self ..)
  rw [byteField, BitVec.toNat_setWidth, BitVec.extractLsb_toNat, Nat.shiftRight_eq_div_pow,
    Nat.mod_eq_of_lt (by omega)]

/-! ## What a load establishes -/

section
variable {cfg : Config}

/-- What every write keeps holds after a run of writes, if it held before or the run has a write that establishes it. -/
theorem writeFields_establishes {P : Regs → Prop} (keep : ∀ i v r, P r → P (voiceSetParam cfg i v r)) {j : Nat}
    (establish : ∀ v r, P (voiceSetParam cfg j v r)) (vs : List Raw) (i : Nat) (r : Regs)
    (h : (i ≤ j ∧ j < i + vs.length) ∨ P r) : P (writeFields cfg i vs r) := by
  induction vs generalizing i r with
  | nil => exact h.resolve_left fun hmem => Nat.not_lt.2 hmem.1 hmem.2
  | cons v vs ih =>
    rw [List.length_cons] at h
    refine ih (i + 1) _ ?_
    rcases h with hmem | hr
    · by_cases hij : i = j
      · exact .inr (hij ▸ establish v r)
      · exact .inl (by omega)
    · exact .inr (keep i v r hr)

/-- A load writes every flat index below 145 (46 R204, R206). -/
theorem loadRecord_establishes {P : Regs → Prop} (keep : ∀ i v r, P r → P (voiceSetParam cfg i v r)) {j : Nat}
    (hj : j < 145) (establish : ∀ v r, P (voiceSetParam cfg j v r)) (bank : Memory) (base : Nat) (r : Regs) :
    P (loadRecord cfg bank base r) := by
  unfold loadRecord loadVoiceBlock loadOpBlock
  iterate 7 refine writeFields_establishes keep establish _ _ _ (or_iff_not_imp_left.2 fun _ => ?_)
  simp only [opFields, voiceFields, List.length_cons, List.length_nil] at *
  omega

/-! ## The operators -/

/-- What OP.SETPARAM keeps of an operator, V.SETPARAM keeps of each of the six. -/
theorem voiceSetParam_op_induct {P : Op → Prop} (keep : ∀ f v o, P o → P (o.setParam cfg f v)) (k : Fin 6) (i : Nat)
    (v : Raw) (r : Regs) (h : P r.op[k]) : P (voiceSetParam cfg i v r).op[k] := by
  rcases voiceSetParam_cases cfg i v r with ⟨-, he⟩ | ⟨_, he⟩ | ⟨-, he⟩ <;> rw [he]
  · rw [modifyOp_get]
    split
    · next hk => exact hk ▸ keep _ v _ (hk ▸ h)
    · exact h
  · exact h
  · exact h

/-- What every OP.SETPARAM keeps, a load keeps of each operator. -/
theorem loadRecord_op_induct {P : Op → Prop} (keep : ∀ f v o, P o → P (o.setParam cfg f v)) (bank : Memory)
    (base : Nat) (r : Regs) (k : Fin 6) (h : P r.op[k]) : P (loadRecord cfg bank base r).op[k] :=
  loadRecord_induct (P := fun r => P r.op[k]) cfg bank base (voiceSetParam_op_induct keep k) r h

/-- What every OP.SETPARAM keeps and the write of one field establishes holds of each operator after a load. -/
theorem loadRecord_op_establishes {P : Op → Prop} (keep : ∀ f v o, P o → P (o.setParam cfg f v)) {f : Fin 21}
    (establish : ∀ v (o : Op), P (o.setParam cfg f v)) (bank : Memory) (base : Nat) (r : Regs) (k : Fin 6) :
    P (loadRecord cfg bank base r).op[k] :=
  loadRecord_establishes (P := fun r => P r.op[k]) (voiceSetParam_op_induct keep k)
    ((flatOp_lt k f).trans (by decide))
    (fun v r => by rw [voiceSetParam_flatOp, modifyOp_get, if_pos rfl]; exact establish v _) bank base r

/-- A write of a field that a frequency reads recomputes BASEFREQ with the latched note, and the write of another field
leaves both (43 R153). -/
theorem setParam_baseFreq_eq_freq {f : Fin 21} {o : Op} (v : Raw)
    (h : isFreqField f = true ∨ o.baseFreq = o.freq cfg.num o.note) :
    (o.setParam cfg f v).baseFreq = (o.setParam cfg f v).freq cfg.num (o.setParam cfg f v).note := by
  obtain ⟨hp, -, -, hnote, hbase, -⟩ := setParam_spec cfg f v o
  rw [hbase, hnote, freq_of_params (o := o.store f v) hp]
  split
  · rfl
  · next hf => rw [store_freq (Bool.not_eq_true _ ▸ hf), h.resolve_left hf]

/-- Under at_write an operator's latches are current after a write of a rate or level, and stay so after any other
(10 R39). -/
theorem setParam_refreshEg_of {f : Fin 21} {o : Op} (hw : cfg.egRefresh = .atWrite) (v : Raw)
    (h : f.val < 8 ∨ o.refreshEg cfg.num = o) :
    (o.setParam cfg f v).refreshEg cfg.num = o.setParam cfg f v := by
  rcases h with hf | ho
  · unfold Op.setParam
    simp only [hw, hf, and_self, if_true]
    rfl
  · exact setParam_refreshEg hw f v ho

/-- A parameter write reaches the latches of the operator's envelope at most, and a refresh overwrites them. -/
theorem refreshEg_setParam_eg (f : Fin 21) (v : Raw) (o p : Op) :
    Op.refreshEg cfg.num { p with eg := (o.setParam cfg f v).eg } = Op.refreshEg cfg.num { p with eg := o.eg } := by
  obtain ⟨-, -, -, -, -, heg⟩ := setParam_spec cfg f v o
  rw [heg]
  split <;> rfl

/-! ## The pitch envelope -/

/-- Under at_write the latches of the pitch envelope are current after a write of a pitch rate or level, and stay so
after any other (45 R187, 10 R39). -/
theorem voiceSetParam_refreshPeg (hw : cfg.egRefresh = .atWrite) {i : Nat} (v : Raw) {r : Regs}
    (h : (126 ≤ i ∧ i < 134) ∨ refreshPeg cfg.num r = r.peg) :
    refreshPeg cfg.num (voiceSetParam cfg i v r) = (voiceSetParam cfg i v r).peg := by
  rcases voiceSetParam_cases cfg i v r with ⟨hi, he⟩ | ⟨hi, he⟩ | ⟨hi, he⟩ <;> rw [he]
  · exact h.resolve_left (by omega)
  · by_cases hlt : i - 126 < 8
    · simp only [hw, hlt, and_self, if_true]
      rfl
    · simp only [hlt, and_false, if_false]
      exact refreshPeg_eq_self_of_same (h.resolve_left (by omega))
        (fun g hg => Vector.getElem_set_ne (by omega) _ (by omega)) rfl
  · exact h.resolve_left (by omega)

/-- A parameter write reaches the latches of the pitch envelope at most, and a refresh overwrites them. -/
theorem refreshPeg_voiceSetParam_peg (i : Nat) (v : Raw) (r q : Regs) :
    refreshPeg cfg.num { q with peg := (voiceSetParam cfg i v r).peg } =
      refreshPeg cfg.num { q with peg := r.peg } := by
  rcases voiceSetParam_cases cfg i v r with ⟨-, he⟩ | ⟨_, he⟩ | ⟨-, he⟩ <;> rw [he]
  · rfl
  · dsimp only
    split <;> rfl

/-! ## The registers of a decoded record -/

section
variable (bank : Memory) (base : Nat) (r : Regs)

theorem loadOpBlock_op {o : Nat} (ho : o < 6) (k : Fin 6) :
    (loadOpBlock cfg bank base o r).op[k] =
      if o = k.val then opWrites cfg 0 (opFields fun j => bank.read (base + 17 * k.val + j)) r.op[k] else r.op[k] := by
  rw [loadOpBlock_eq cfg bank base ho, modifyOp_get]
  by_cases hk : o = k.val
  · subst hk
    simp only [if_true]
  · rw [if_neg hk, if_neg fun h => hk (congrArg Fin.val h)]

theorem loadOpBlock_pv {o : Nat} (ho : o < 6) : (loadOpBlock cfg bank base o r).pv = r.pv := by
  rw [loadOpBlock_eq cfg bank base ho, modifyOp_pv]

theorem loadVoiceBlock_op : (loadVoiceBlock cfg bank base r).op = r.op :=
  (writeFields_voice cfg _ 126 r (le_refl _) (by simp [voiceFields])).1

theorem loadVoiceBlock_pv (g : Fin 29) :
    some (loadVoiceBlock cfg bank base r).pv[g] =
      if g.val < 19 then (voiceFields fun j => bank.read (base + 102 + j))[g.val]? else some r.pv[g] := by
  have hlen : (voiceFields fun j => bank.read (base + 102 + j)).length = 19 := rfl
  obtain ⟨-, -, -, -, hpv⟩ :=
    writeFields_voice cfg (voiceFields fun j => bank.read (base + 102 + j)) 126 r (le_refl _) (by omega)
  rw [loadVoiceBlock, hpv g, hlen, Nat.add_sub_cancel_left]
  simp only [Nat.le_add_right, true_and, Nat.add_lt_add_iff_left]

/-- Each operator is written from its own block, and the voice-level block reaches none (46 R204, 00 R12). -/
theorem loadRecord_op (k : Fin 6) :
    (loadRecord cfg bank base r).op[k] =
      opWrites cfg 0 (opFields fun j => bank.read (base + 17 * k.val + j)) r.op[k] := by
  rw [loadRecord, loadVoiceBlock_op]
  simp (disch := decide) only [loadOpBlock_op]
  fin_cases k <;> rfl

theorem loadRecord_raw (k : Fin 6) (f : Fin 21) :
    some (((loadRecord cfg bank base r).op[k]).raw f) =
      (opFields fun j => bank.read (base + 17 * k.val + j))[f.val]? := by
  have hlen : (opFields fun j => bank.read (base + 17 * k.val + j)).length = 21 := rfl
  rw [loadRecord_op, opWrites_raw _ _ _ _ _ (by omega), dif_pos (by omega), List.getElem?_eq_getElem (by omega)]
  rfl

theorem loadRecord_pv (g : Fin 29) :
    some (loadRecord cfg bank base r).pv[g] =
      if g.val < 19 then (voiceFields fun j => bank.read (base + 102 + j))[g.val]? else some r.pv[g] := by
  rw [loadRecord, loadVoiceBlock_pv]
  simp (disch := decide) only [loadOpBlock_pv]

/-- A load leaves FS, PREV and FB (46 R210). -/
theorem loadRecord_keeps :
    (loadRecord cfg bank base r).fs = r.fs ∧ (loadRecord cfg bank base r).prev = r.prev ∧
      (loadRecord cfg bank base r).fb = r.fb :=
  loadRecord_induct (P := fun t => t.fs = r.fs ∧ t.prev = r.prev ∧ t.fb = r.fb) cfg bank base
    (fun i v t ⟨hfs, hprev, hfb⟩ => by
      obtain ⟨kfs, kprev, kfb⟩ := voiceSetParam_keeps cfg i v t
      exact ⟨kfs.trans hfs, kprev.trans hprev, kfb.trans hfb⟩) r ⟨rfl, rfl, rfl⟩

/-- A load leaves PHASE, VEL and NOTE (46 R210 (c)). -/
theorem loadRecord_op_keeps (k : Fin 6) :
    ((loadRecord cfg bank base r).op[k]).phase = (r.op[k]).phase ∧
      ((loadRecord cfg bank base r).op[k]).vel = (r.op[k]).vel ∧
      ((loadRecord cfg bank base r).op[k]).note = (r.op[k]).note := by
  rw [loadRecord_op]
  exact opWrites_keeps ..

/-- DET is among the fields of a block, so a load recomputes every BASEFREQ, with the latched note (46 R204). -/
theorem loadRecord_baseFreq (k : Fin 6) :
    ((loadRecord cfg bank base r).op[k]).baseFreq =
      ((loadRecord cfg bank base r).op[k]).freq cfg.num (r.op[k]).note := by
  obtain ⟨-, -, hnote⟩ := loadRecord_op_keeps (cfg := cfg) bank base r k
  rw [← hnote]
  exact loadRecord_op_establishes (P := fun o => o.baseFreq = o.freq cfg.num o.note) (f := OpField.DET)
    (fun _ v _ h => setParam_baseFreq_eq_freq v (.inr h)) (fun v _ => setParam_baseFreq_eq_freq v (.inl rfl))
    bank base r k

/-- Under at_write a load refreshes each operator's latches from the loaded parameters; otherwise it leaves the
envelope (10 R39). -/
theorem loadRecord_eg (k : Fin 6) :
    ((loadRecord cfg bank base r).op[k]).eg =
      if cfg.egRefresh = .atWrite then
        (Op.refreshEg cfg.num { (loadRecord cfg bank base r).op[k] with eg := (r.op[k]).eg }).eg
      else (r.op[k]).eg := by
  split
  · next hw =>
    have hcurrent := loadRecord_op_establishes (P := fun o => o.refreshEg cfg.num = o) (f := OpField.R1)
      (fun _ v _ h => setParam_refreshEg_of hw v (.inr h)) (fun v _ => setParam_refreshEg_of hw v (.inl (by decide)))
      bank base r k
    have hlatchesOnly := loadRecord_op_induct
      (P := fun o => ∀ p : Op, Op.refreshEg cfg.num { p with eg := o.eg } =
        Op.refreshEg cfg.num { p with eg := (r.op[k]).eg })
      (fun f v o h p => (refreshEg_setParam_eg f v o p).trans (h p)) bank base r k fun _ => rfl
    exact congrArg Op.eg (hcurrent.symm.trans (hlatchesOnly _))
  · next hw =>
    refine loadRecord_op_induct (P := fun o => o.eg = (r.op[k]).eg) (fun f v o h => ?_) bank base r k rfl
    obtain ⟨-, -, -, -, -, heg⟩ := setParam_spec cfg f v o
    rw [heg, if_neg fun hc => hw hc.1, h]

/-- The same of the pitch envelope and the loaded voice registers (45 R187). -/
theorem loadRecord_peg :
    (loadRecord cfg bank base r).peg =
      if cfg.egRefresh = .atWrite then refreshPeg cfg.num { loadRecord cfg bank base r with peg := r.peg }
      else r.peg := by
  split
  · next hw =>
    have hcurrent := loadRecord_establishes (P := fun r => refreshPeg cfg.num r = r.peg) (j := 126)
      (fun _ v _ h => voiceSetParam_refreshPeg hw v (.inr h)) (by decide)
      (fun v _ => voiceSetParam_refreshPeg hw v (.inl (by decide))) bank base r
    have hlatchesOnly := loadRecord_induct
      (P := fun t => ∀ q : Regs, refreshPeg cfg.num { q with peg := t.peg } =
        refreshPeg cfg.num { q with peg := r.peg }) cfg bank base
      (fun i v t h q => (refreshPeg_voiceSetParam_peg i v t q).trans (h q)) r fun _ => rfl
    exact hcurrent.symm.trans (hlatchesOnly _)
  · next hw =>
    refine loadRecord_induct (P := fun t => t.peg = r.peg) cfg bank base (fun i v t h => ?_) r rfl
    rcases voiceSetParam_cases cfg i v t with ⟨-, he⟩ | ⟨_, he⟩ | ⟨-, he⟩ <;> rw [he]
    · exact h
    · exact (if_neg fun hc => hw hc.1).trans h
    · exact h

end
end

/-! ## LOAD_VOICE -/

theorem exec_loadVoice {s : State} (hi : s.status.inited = true) (v len : Nat) :
    exec (.loadVoice v len) s = .next (complete s (patchLoad s.cfg s.bank v len s.toRegs)) := by
  rw [exec, execLoadVoice, whenInited_of hi]

theorem patchLoad_of_frame {bank : Memory} (hw : bank.wf) {len a v : Nat} (hv : v < 32) (hf : FrameAt bank len a)
    (cfg : Config) (r : Regs) : patchLoad cfg bank v len r = loadRecord cfg bank (a + 6 + 128 * v) r := by
  rw [patchLoad, recordBase_of_frame hw hv hf]

theorem patchLoad_of_rejected {bank : Memory} (hw : bank.wf) {len v : Nat}
    (h : 32 ≤ v ∨ ∀ a : Nat, ¬ FrameAt bank len a) (cfg : Config) (r : Regs) : patchLoad cfg bank v len r = r := by
  rcases patchLoad_cases cfg bank v len r with ⟨-, he⟩ | ⟨base, hbase, -⟩
  · exact he
  · obtain ⟨hv, a, hframe, -⟩ := frame_of_recordBase hw hbase
    exact absurd hframe (h.resolve_left (Nat.not_le.2 hv) a)

end Sys2Proof.Machine

open Sys2Proof Sys2Proof.Machine

/-- Settles O45: a whole byte is its number, and a slice is a quotient and a remainder by powers of 2. -/
theorem packedOperatorLayout : Obligations.PackedOperatorLayout := by
  intro b
  simp [opFields, wholeByte_toNat, byteField_toNat]

/-- Settles O46: each field of the voice-level block is again a whole byte or a slice of one. -/
theorem packedVoiceLayout : Obligations.PackedVoiceLayout := by
  intro c
  simp [voiceFields, wholeByte_toNat, byteField_toNat]

/-- Settles O47: the record of the frame is decoded, each block into its own registers; DET recomputes BASEFREQ, and
under at_write the rates and levels load the latches. -/
theorem loadOfAnAcceptedFrame : Obligations.LoadOfAnAcceptedFrame := by
  intro s v len a hi hw hv hf base
  have hexec := exec_loadVoice hi v len
  rw [patchLoad_of_frame hw hv hf] at hexec
  obtain ⟨hfs, hprev, hfb⟩ := loadRecord_keeps (cfg := s.cfg) s.bank base s.toRegs
  refine ⟨_, hexec, complete_outsideSame hfs, hprev, hfb, loadRecord_raw s.bank base s.toRegs,
    loadRecord_pv s.bank base s.toRegs, fun o => ?_, loadRecord_peg s.bank base s.toRegs⟩
  obtain ⟨hphase, hvel, hnote⟩ := loadRecord_op_keeps (cfg := s.cfg) s.bank base s.toRegs o
  exact ⟨loadRecord_baseFreq s.bank base s.toRegs o, hphase, hvel, hnote, loadRecord_eg s.bank base s.toRegs o⟩

/-- Settles O48: a record is found only for an index below 32 and in an accepted frame, so none is decoded. -/
theorem rejectedLoadWritesNothing : Obligations.RejectedLoadWritesNothing := by
  intro s v len hi hw h
  rw [exec_loadVoice hi, patchLoad_of_rejected hw h]
  rfl
end

section
/-! Silence and what begins it (10 R37, R38, 47 R221 to R226): an operator is silent when a factor of its output is 0,
a TICK of silent operators puts out 0, and PREV, FB and the phases stay 0. -/

namespace Sys2Proof.Machine

/-! ## Silent operators (43 R154) -/

theorem hundredth_zero (f : NumFormat) : hundredth f 0 = 0 := by
  simp [hundredth, num, NumFormat.qmul]

/-- Whatever its inputs, the operator's tick puts out 0. -/
def Op.Silent (f : NumFormat) (o : Op) : Prop := ∀ (n : Nat) (m : Num) (x a : ℚ), (o.tick f n m x a).2 = .rat 0

section
variable {f : NumFormat} {o : Op}

theorem silent_of_level_zero (h : o.raw OpField.OL = 0) : o.Silent f := tick_out_of_level_zero f h

theorem silent_of_vel_zero (h : o.vel = 0) : o.Silent f := fun n m x a => by
  rw [tick_out, h, NumFormat.mul_zero_rat, NumFormat.zero_rat_mul]

theorem silent_of_phase_zero (hf : ample f = true) (h : o.phase = .rat 0) : o.Silent f := fun n m x a => by
  rw [tick_out, h, osc_zero hf, NumFormat.zero_rat_mul, NumFormat.zero_rat_mul, NumFormat.zero_rat_mul]

/-- Without a frequency and without modulation a phase of 0 stands still. -/
theorem tick_phase_of_freq_zero (hfreq : o.baseFreq = .rat 0) (hphase : o.phase = .rat 0) (n : Nat) (x a : ℚ) :
    (o.tick f n (.rat 0) x a).1.phase = .rat 0 := by
  have hinc : o.increment f n x = .rat 0 := by
    rw [Op.increment, hfreq, NumFormat.zero_div_rat, NumFormat.zero_rat_mul]
  rw [tick_phase, hphase, hinc, NumFormat.zero_rat_mul, NumFormat.add_zero_zero, NumFormat.add_zero_zero, fmod1_zero]

end

/-! ## A TICK of silent operators -/

/-- PREV and FB are 0. -/
structure Regs.DelayZero (r : Regs) : Prop where
  prev : ∀ k : Fin 6, r.prev[k] = .rat 0
  fb : r.fb = .rat 0

theorem mix_of_zero (f : NumFormat) (rom : Vector AlgEntry 32) (a : Fin 32) (row : Fin 8) {tmp : Vector Num 6}
    (h : ∀ k : Fin 6, tmp[k] = .rat 0) : mix f rom a row tmp = .rat 0 :=
  average_zero f _ <| List.forall_mem_map.2 fun k _ => h k

/-- Delay registers that hold 0 modulate nothing (45 R183). -/
theorem modulation_of_delayZero (f : NumFormat) (rom : Vector AlgEntry 32) (a : Fin 32) {r : Regs} (h : r.DelayZero)
    (fbLevel : ℚ) (d : Fin 6) : modulation f rom a r.prev r.fb fbLevel d = .rat 0 := by
  refine average_zero f _ fun x hx => ?_
  rcases List.mem_append.1 hx with hsource | hfeedback
  · obtain ⟨k, -, rfl⟩ := List.mem_map.1 hsource
    exact h.prev k
  · split at hfeedback
    · rw [List.mem_singleton.1 hfeedback, h.fb, NumFormat.zero_rat_mul]
    · cases hfeedback

section
variable {cfg : Config} {r : Regs}

theorem tickWith_prev_of_silent (h : ∀ k : Fin 6, (r.op[k]).Silent cfg.num) (a : Fin 32) (k : Fin 6) :
    (tickWith cfg a r).1.prev[k] = .rat 0 := by
  rw [tickWith_prev]
  exact h k ..

theorem voiceTick_out_of_silent (h : ∀ k : Fin 6, (r.op[k]).Silent cfg.num) : (voiceTick cfg r).2 = .rat 0 := by
  rcases voiceTick_cases cfg r with hused | ⟨-, -, hnoop⟩
  · rw [hused, tickWith_out]
    exact mix_of_zero _ _ _ _ (tickWith_prev_of_silent h _)
  · rw [hnoop]

theorem delayZero_voiceTick (h : ∀ k : Fin 6, (r.op[k]).Silent cfg.num) (hr : r.DelayZero) :
    (voiceTick cfg r).1.DelayZero := by
  rcases voiceTick_cases cfg r with hused | ⟨-, -, hnoop⟩
  · rw [hused]
    refine ⟨tickWith_prev_of_silent h _, ?_⟩
    rw [tickWith_fb]
    exact mix_of_zero _ _ _ _ (tickWith_prev_of_silent h _)
  · rw [hnoop]
    exact hr

theorem voiceTick_phase_of_freq_zero (hr : r.DelayZero) {k : Fin 6} (hfreq : (r.op[k]).baseFreq = .rat 0)
    (hphase : (r.op[k]).phase = .rat 0) : ((voiceTick cfg r).1.op[k]).phase = .rat 0 := by
  rcases voiceTick_cases cfg r with hused | ⟨-, -, hnoop⟩
  · rw [hused, tickWith_op, modulation_of_delayZero _ _ _ hr]
    exact tick_phase_of_freq_zero hfreq hphase ..
  · rw [hnoop]
    exact hphase

end

/-- A TICK after INIT, all of whose operators are silent, completes with the sample 0. -/
theorem exec_tick_of_silent {s : State} (hi : s.status.inited = true) (h : ∀ k : Fin 6, (s.op[k]).Silent s.cfg.num) :
    ∃ u : State, exec .tick s = .next u ∧ u.sampleOut = .rat 0 :=
  ⟨_, whenInited_of hi _, voiceTick_out_of_silent h⟩

/-! ## What the other operations make of the delay registers and the phases -/

section
variable (cfg : Config) (r : Regs)

theorem delayZero_runtimeReset : (runtimeReset cfg r).DelayZero := by
  obtain ⟨-, -, hprev, hfb, -, -⟩ := runtimeReset_keeps cfg r
  exact ⟨fun k => by rw [hprev]; exact Vector.getElem_replicate .., hfb⟩

/-- RUNTIME_RESET keeps each operator's parameters and clears its runtime registers (47 R222). -/
theorem runtimeReset_op_clears (k : Fin 6) :
    ((runtimeReset cfg r).op[k]).p = (r.op[k]).p ∧ ((runtimeReset cfg r).op[k]).phase = .rat 0 ∧
      ((runtimeReset cfg r).op[k]).baseFreq = .rat 0 ∧ ((runtimeReset cfg r).op[k]).vel = 0 ∧
      ((runtimeReset cfg r).op[k]).note = 0 := by
  obtain ⟨-, -, -, -, -, hop⟩ := runtimeReset_keeps cfg r
  rw [hop k]
  split <;> exact ⟨rfl, rfl, rfl, rfl, rfl⟩

theorem voiceSetParam_phase (i : Nat) (v : Raw) (k : Fin 6) :
    ((voiceSetParam cfg i v r).op[k]).phase = (r.op[k]).phase :=
  voiceSetParam_op_induct (P := fun o => o.phase = (r.op[k]).phase)
    (fun f w o h => (setParam_spec cfg f w o).2.1.trans h) k i v r rfl

/-- A load leaves PREV, FB and every PHASE, accepted or not (46 R210). -/
theorem patchLoad_keeps (bank : Memory) (v len : Nat) :
    (patchLoad cfg bank v len r).prev = r.prev ∧ (patchLoad cfg bank v len r).fb = r.fb ∧
      ∀ k : Fin 6, ((patchLoad cfg bank v len r).op[k]).phase = (r.op[k]).phase := by
  rcases patchLoad_cases cfg bank v len r with ⟨-, he⟩ | ⟨base, -, he⟩ <;> rw [he]
  · exact ⟨rfl, rfl, fun _ => rfl⟩
  · obtain ⟨-, hprev, hfb⟩ := loadRecord_keeps (cfg := cfg) bank base r
    exact ⟨hprev, hfb, fun k => (loadRecord_op_keeps bank base r k).1⟩

end

/-! ## Commands and steps -/

/-- No command of a quiet engine fills the delay registers. -/
theorem exec_delayZero {i : Instr} {s t : State} (hs : s.Quiet) (h : exec i s = .next t)
    (hinit : t.status.inited = true) : t.toRegs.DelayZero := by
  have hdelay : s.toRegs.DelayZero := ⟨hs.prev, hs.fb⟩
  rcases exec_cases h with ⟨fs, -, ⟨-, rfl⟩ | ⟨-, -, rfl⟩⟩ | ⟨-, hcmd⟩
  · cases hinit
  · exact delayZero_runtimeReset ..
  · rcases hcmd with ⟨-, rfl⟩ | ⟨n, v, -, -, rfl⟩ | ⟨n, -, rfl⟩ | ⟨x, v, -, -, rfl⟩ | ⟨-, rfl⟩ | ⟨v, len, -, rfl⟩
    · exact delayZero_runtimeReset ..
    · exact ⟨hdelay.prev, hdelay.fb⟩
    · exact ⟨hdelay.prev, hdelay.fb⟩
    · obtain ⟨-, hprev, hfb⟩ := voiceSetParam_keeps s.cfg x v s.toRegs
      exact ⟨fun k => by rw [complete_prev, hprev]; exact hdelay.prev k, hfb.trans hdelay.fb⟩
    · exact delayZero_voiceTick (fun k => silent_of_level_zero (hs.levels k)) hdelay
    · obtain ⟨hprev, hfb, -⟩ := patchLoad_keeps s.cfg s.toRegs s.bank v len
      exact ⟨fun k => by rw [complete_prev, hprev]; exact hdelay.prev k, hfb.trans hdelay.fb⟩

/-- No command moves the phases of an engine that stands still. -/
theorem exec_phase_of_still {i : Instr} {s t : State} (hs : s.Still) (h : exec i s = .next t)
    (hinit : t.status.inited = true) (k : Fin 6) : (t.op[k]).phase = .rat 0 := by
  have hreset : ∀ r, ((runtimeReset s.cfg r).op[k]).phase = .rat 0 := fun r =>
    (runtimeReset_op_clears s.cfg r k).2.1
  rcases exec_cases h with ⟨fs, -, ⟨-, rfl⟩ | ⟨-, -, rfl⟩⟩ | ⟨-, hcmd⟩
  · cases hinit
  · exact hreset _
  · rcases hcmd with ⟨-, rfl⟩ | ⟨n, v, -, -, rfl⟩ | ⟨n, -, rfl⟩ | ⟨x, v, -, -, rfl⟩ | ⟨-, rfl⟩ | ⟨v, len, -, rfl⟩
    · exact hreset _
    · rw [complete_op, voiceNoteOn_op, map_get, opNoteOn_phase]
    · rw [complete_op, voiceNoteOff_op, map_get, opNoteOff_phase]
      exact hs.phase k
    · exact (voiceSetParam_phase s.cfg s.toRegs x v k).trans (hs.phase k)
    · exact voiceTick_phase_of_freq_zero ⟨hs.quiet.prev, hs.quiet.fb⟩ (hs.freq k) (hs.phase k)
    · obtain ⟨-, -, hphase⟩ := patchLoad_keeps s.cfg s.toRegs s.bank v len
      exact (hphase k).trans (hs.phase k)

/-- A step leaves the registers, or it is a command. -/
theorem step_regs_or_exec {s t : State} (h : step s = .next t) :
    t.toRegs = s.toRegs ∨ ∃ (i : Instr) (rest : List HostInput), exec i { s with inbox := rest } = .next t := by
  rcases step_cases' h with ⟨-, rfl⟩ | ⟨a, bs, rest, -, rfl⟩ | ⟨w, rest, e, -, -, rfl⟩ | ⟨w, rest, i, -, -, hexec⟩
  · exact .inl rfl
  · exact .inl rfl
  · exact .inl rfl
  · exact .inr ⟨i, rest, hexec⟩

theorem step_quiet {s t : State} (hs : s.Quiet) (h : step s = .next t) (hinit : t.status.inited = true)
    (hlevels : ∀ k : Fin 6, (t.op[k]).raw OpField.OL = 0) : t.Quiet := by
  have hdelay : t.toRegs.DelayZero := by
    rcases step_regs_or_exec h with hregs | ⟨i, rest, hexec⟩
    · rw [hregs]
      exact ⟨hs.prev, hs.fb⟩
    · exact exec_delayZero (s := { s with inbox := rest }) ⟨hs.inited, hs.levels, hs.prev, hs.fb⟩ hexec hinit
  exact ⟨hinit, hlevels, hdelay.prev, hdelay.fb⟩

theorem step_phase_of_still {s t : State} (hs : s.Still) (h : step s = .next t) (hinit : t.status.inited = true)
    (k : Fin 6) : (t.op[k]).phase = .rat 0 := by
  rcases step_regs_or_exec h with hregs | ⟨i, rest, hexec⟩
  · rw [hregs]
    exact hs.phase k
  · obtain ⟨⟨hinited, hlevels, hprev, hfb⟩, hfreq, hphase⟩ := hs
    exact exec_phase_of_still (s := { s with inbox := rest }) ⟨⟨hinited, hlevels, hprev, hfb⟩, hfreq, hphase⟩ hexec
      hinit k

/-! ## INIT (47 R221) -/

/-- The registers that INIT hands to RUNTIME_RESET: FS written, the 155 parameter registers zeroed. -/
def Regs.forInit (fs : Nat) (r : Regs) : Regs :=
  { r with
    fs := fs, op := r.op.map (fun o => { o with p := Vector.replicate 21 0 }), pv := Vector.replicate 29 0 }

theorem exec_init_of_supported {s : State} {fs : Nat} (hpos : fs ≠ 0) (hsup : fsSupported s.cfg fs = true) :
    exec (.init fs) s =
      .next { complete s (runtimeReset s.cfg (s.toRegs.forInit fs)) with status := Status.afterInit } := by
  rw [exec, execInit, if_neg (by simp [hpos, hsup])]
  rfl

theorem exec_init_of_unsupported {s : State} {fs : Nat} (h : fs = 0 ∨ fsSupported s.cfg fs = false) :
    exec (.init fs) s =
      .next { complete s (Config.undefinedRegs s.freeCtr) with
        status := Status.afterFailedInit, freeCtr := s.freeCtr + 1 } := by
  rw [exec, execInit, if_pos h]

/-- A latch refresh from zeroed parameters leaves the envelope that RUNTIME_RESET writes. -/
theorem refresh_initial_of_zero (f : NumFormat) : Eg.initial.refresh f 0 0 0 0 0 0 0 0 = Eg.initial := by
  rw [Eg.refresh, hundredth_zero]
  rfl

section
variable (cfg : Config) (fs : Nat) (r : Regs)

theorem runtimeReset_forInit_raw (k : Fin 6) (f : Fin 21) :
    ((runtimeReset cfg (r.forInit fs)).op[k]).raw f = 0 := by
  rw [Op.raw, (runtimeReset_op_clears cfg (r.forInit fs) k).1, Regs.forInit, map_get]
  exact Vector.getElem_replicate ..

theorem runtimeReset_forInit_pv (g : Fin 29) : (runtimeReset cfg (r.forInit fs)).pv[g] = 0 := by
  obtain ⟨-, hpv, -, -, -, -⟩ := runtimeReset_keeps cfg (r.forInit fs)
  rw [hpv]
  exact Vector.getElem_replicate ..

end

/-- INIT that succeeds leaves an engine that is silent and stands still (10 R38). -/
theorem still_of_exec_init {s t : State} {fs : Nat} (h : exec (.init fs) s = .next t)
    (hinit : t.status.inited = true) : t.Still := by
  by_cases hfs : fs = 0 ∨ fsSupported s.cfg fs = false
  · rw [exec_init_of_unsupported hfs] at h
    cases h
    cases hinit
  · rw [not_or, Bool.not_eq_false] at hfs
    rw [exec_init_of_supported hfs.1 hfs.2] at h
    cases h
    obtain ⟨hprev, hfb⟩ := delayZero_runtimeReset s.cfg (s.toRegs.forInit fs)
    refine ⟨⟨rfl, fun k => runtimeReset_forInit_raw s.cfg fs s.toRegs k _, hprev, hfb⟩, fun k => ?_, fun k => ?_⟩ <;>
      obtain ⟨-, hphase, hfreq, -, -⟩ := runtimeReset_op_clears s.cfg (s.toRegs.forInit fs) k
    · exact hfreq
    · exact hphase

end Sys2Proof.Machine

open Sys2Proof Sys2Proof.Machine

/-- Settles O37: with every OL at 0 each operator is silent, so PREV, FB and the sample are 0; PREV and FB at 0 modulate
nothing, so without a frequency no phase moves. -/
theorem silentUntilALevelIsWritten : Obligations.SilentUntilALevelIsWritten := by
  refine ⟨fun _ _ => step_quiet, fun s t hs h => ?_, fun s t hs h hinit hlevels hfreq => ?_,
    fun _ _ _ => still_of_exec_init⟩
  · rw [eq_of_exec_tick h]
    exact voiceTick_out_of_silent fun k => silent_of_level_zero (hs.levels k)
  · exact ⟨step_quiet hs.quiet h hinit hlevels, hfreq, step_phase_of_still hs h hinit⟩
end

section
/-! What INIT and RESET leave (47 R221, R222, 10 R37), and the first samples after RESET and after NOTE_ON (R222,
R223 (d)). -/

namespace Sys2Proof.Machine

/-! ## STATUS and the envelopes after INIT -/

theorem afterInit_word : Status.afterInit.word = 0b001#3 := by decide

theorem afterFailedInit_word : Status.afterFailedInit.word = 0b010#3 := by decide

theorem refreshEg_eg_of_zero {o : Op} (hraw : ∀ f : Fin 21, o.raw f = 0) (heg : o.eg = Eg.initial) (f : NumFormat) :
    (o.refreshEg f).eg = Eg.initial := by
  simp only [Op.refreshEg, hraw, heg, refresh_initial_of_zero]

theorem refreshPeg_of_zero {r : Regs} (hpv : ∀ g : Fin 29, r.pv[g] = 0) (hpeg : r.peg = Eg.initial) (f : NumFormat) :
    refreshPeg f r = Eg.initial := by
  simp only [refreshPeg, hpv, hpeg, refresh_initial_of_zero]

section
variable (cfg : Config) (fs : Nat) (r : Regs)

/-- With zeroed parameters the refresh of the at_write variant changes nothing (10 R37). -/
theorem runtimeReset_forInit_eg (k : Fin 6) : ((runtimeReset cfg (r.forInit fs)).op[k]).eg = Eg.initial := by
  obtain ⟨-, -, -, -, -, hop⟩ := runtimeReset_keeps cfg (r.forInit fs)
  rw [hop k]
  split
  · refine refreshEg_eg_of_zero (fun f => ?_) rfl cfg.num
    rw [Regs.forInit, map_get, runtimeReset_raw, zeroParams_raw]
  · rfl

theorem runtimeReset_forInit_peg : (runtimeReset cfg (r.forInit fs)).peg = Eg.initial := by
  obtain ⟨-, -, -, -, hpeg, -⟩ := runtimeReset_keeps cfg (r.forInit fs)
  rw [hpeg]
  split
  · exact refreshPeg_of_zero (fun g => Vector.getElem_replicate ..) rfl cfg.num
  · rfl

end

/-! ## RESET -/

theorem exec_reset_of {s : State} (hi : s.status.inited = true) :
    exec .reset s = .next (complete s (runtimeReset s.cfg s.toRegs)) := by
  rw [exec, execReset, whenInited_of hi]

end Sys2Proof.Machine

open Sys2Proof Sys2Proof.Machine

/-- Settles O8: a supported rate runs RUNTIME_RESET on the zeroed parameters; any other leaves STATUS with the error. -/
theorem initOutcome : Obligations.InitOutcome := by
  intro s fs
  constructor
  · intro hpos hsup
    obtain ⟨hfs, -, -, hfb, -, -⟩ := runtimeReset_keeps s.cfg (s.toRegs.forInit fs)
    refine ⟨_, exec_init_of_supported hpos hsup, hfs, runtimeReset_forInit_raw s.cfg fs s.toRegs,
      runtimeReset_forInit_pv s.cfg fs s.toRegs, fun k => ?_, runtimeReset_forInit_peg s.cfg fs s.toRegs, hfb, rfl,
      afterInit_word, rfl, rfl, ⟨fun _ => rfl, rfl, rfl, rfl⟩, rfl⟩
    obtain ⟨-, hphase, hfreq, hvel, hnote⟩ := runtimeReset_op_clears s.cfg (s.toRegs.forInit fs) k
    exact ⟨hphase, hfreq, hvel, hnote, runtimeReset_forInit_eg s.cfg fs s.toRegs k,
      (delayZero_runtimeReset s.cfg (s.toRegs.forInit fs)).prev k⟩
  · intro hfail
    exact ⟨_, exec_init_of_unsupported hfail, rfl, afterFailedInit_word, rfl, rfl, ⟨fun _ => rfl, rfl, rfl, rfl⟩⟩

/-- Settles O10: RUNTIME_RESET clears VEL, so every operator is silent at the next TICK. -/
theorem resetClearsRuntimeState : Obligations.ResetClearsRuntimeState := by
  refine ⟨fun _ hw => decode_of_carriedBy (i := .reset) hw, fun s hi => ?_⟩
  have hclear := runtimeReset_op_clears s.cfg s.toRegs
  obtain ⟨hfs, hpv, -, hfb, hpeg, hop⟩ := runtimeReset_keeps s.cfg s.toRegs
  have hprev := (delayZero_runtimeReset s.cfg s.toRegs).prev
  refine ⟨_, exec_reset_of hi, exec_tick_of_silent hi fun k => ?_, ⟨fun k => ?_, hpv⟩, complete_outsideSame hfs, hfb,
    fun k => ?_, fun hat => ⟨fun k => ?_, ?_⟩, fun hat => ⟨fun k => ?_, ?_⟩⟩
  · obtain ⟨-, -, -, hvel, -⟩ := hclear k
    exact silent_of_vel_zero hvel
  · exact (hclear k).1
  · obtain ⟨-, hphase, hfreq, hvel, hnote⟩ := hclear k
    exact ⟨hphase, hfreq, hvel, hnote, hprev k⟩
  · rw [complete_op, hop k, hat]
    rfl
  · rw [complete_peg, hpeg, hat]
    rfl
  · rw [complete_op, hop k, if_pos hat]
    rfl
  · rw [complete_peg, hpeg, if_pos hat]
    rfl

/-- Settles O36: NOTE_ON sets every PHASE to 0, where the sine table holds 0. -/
theorem firstSampleOfANoteIsZero : Obligations.FirstSampleOfANoteIsZero := by
  intro s t n v hample h
  obtain ⟨hi, hnext⟩ := whenInited_next.1 h
  split at hnext
  · cases hnext
    refine exec_tick_of_silent hi fun k => silent_of_phase_zero hample ?_
    rw [complete_op, voiceNoteOn_op, map_get, opNoteOn_phase]
  · cases hnext
end

section
/-! The command stream and the outputs: reserved words (47 R228), commands before INIT (R229) and after it, and who
writes SAMPLE_OUT, STATUS and what a run yields (R220, 30 R94, 70 R292). -/

namespace Sys2Proof

/-- The decoder knows no opcode outside 0x01..0x07 (30 R81, R83 (a)). -/
theorem decode_reserved {w : Word} (h : Word.opc w = 0x00 ∨ 0x08 ≤ Word.opc w) :
    decode w = .error (.reservedOpcode (Word.opc w)) := by
  unfold decode
  split
  case h_8 => rfl
  all_goals omega

namespace Machine

variable {s t : State}

/-! ## Commands that complete or are refused -/

/-- INIT completes with any rate, before and after an INIT (47 R221, R229). -/
theorem exec_init_completes (fs : Nat) (s : State) : ∃ t : State, exec (.init fs) s = .next t := by
  by_cases hfs : fs = 0 ∨ fsSupported s.cfg fs = false
  · exact ⟨_, exec_init_of_unsupported hfs⟩
  · rw [not_or, Bool.not_eq_false] at hfs
    exact ⟨_, exec_init_of_supported hfs.1 hfs.2⟩

theorem exec_refused_before_init (hi : s.status.inited = false) {i : Instr} (h : ∀ fs : Nat, i ≠ .init fs) :
    exec i s = .refused .notInitialised := by
  cases i with
  | init fs => exact absurd rfl (h fs)
  | reset => exact whenInited_refused hi _
  | noteOn n v => exact whenInited_refused hi _
  | noteOff n => exact whenInited_refused hi _
  | setParam x v => exact whenInited_refused hi _
  | tick => exact whenInited_refused hi _
  | loadVoice v len => exact whenInited_refused hi _

/-! ## What a command writes of the outputs and of the host's part -/

/-- The host's part is no command's to write (20 R62). -/
theorem exec_hostPartSame {i : Instr} (h : exec i s = .next t) : s.HostPartSame t := by
  rcases exec_cases h with ⟨fs, -, ⟨-, rfl⟩ | ⟨-, -, rfl⟩⟩ |
    ⟨-, ⟨-, rfl⟩ | ⟨n, v, -, -, rfl⟩ | ⟨n, -, rfl⟩ | ⟨x, v, -, -, rfl⟩ | ⟨-, rfl⟩ | ⟨v, len, -, rfl⟩⟩
  all_goals exact ⟨fun _ => rfl, rfl, rfl, rfl⟩

/-- Every command but TICK keeps SAMPLE_OUT and ends its validity (47 R220, 30 R94). -/
theorem exec_sampleOut_of_ne_tick {i : Instr} (h : exec i s = .next t) (hi : i ≠ .tick) :
    t.sampleOut = s.sampleOut ∧ t.sampleValid = false := by
  rcases exec_cases h with ⟨fs, -, ⟨-, rfl⟩ | ⟨-, -, rfl⟩⟩ |
    ⟨-, ⟨-, rfl⟩ | ⟨n, v, -, -, rfl⟩ | ⟨n, -, rfl⟩ | ⟨x, v, -, -, rfl⟩ | ⟨htick, -⟩ | ⟨v, len, -, rfl⟩⟩
  any_goals exact ⟨rfl, rfl⟩
  exact absurd htick hi

theorem exec_tick_sample (h : exec .tick s = .next t) : t.sample = some t.sampleOut := by
  rw [eq_of_exec_tick h]
  rfl

/-- Every command but INIT keeps STATUS (10 R28). -/
theorem exec_status_of_ne_init {i : Instr} (h : exec i s = .next t) (hi : ∀ fs : Nat, i ≠ .init fs) :
    t.status = s.status := by
  rcases exec_cases h with ⟨fs, hinit, -⟩ |
    ⟨-, ⟨-, rfl⟩ | ⟨n, v, -, -, rfl⟩ | ⟨n, -, rfl⟩ | ⟨x, v, -, -, rfl⟩ | ⟨-, rfl⟩ | ⟨v, len, -, rfl⟩⟩
  · exact absurd hinit (hi fs)
  all_goals rfl

/-! ## What a step shows -/

variable {w : Word} {rest : List HostInput} {i : Instr}

theorem step_reserved {e : DecodeError} (hin : s.inbox = .command w :: rest) (hd : decode w = .error e) :
    step s = .next { s with inbox := rest } := by
  rw [step, fetch_reserved hin hd]

/-- A command that completes shows what its own observation is. -/
theorem stepObservation_command (hin : s.inbox = .command w :: rest) (hd : decode w = .ok i)
    (h : step s = .next t) : stepObservation s = observed i t := by
  have hexec : exec i { s with inbox := rest } = .next t := by
    rw [step, fetch_command hin hd] at h
    exact h
  rw [stepObservation, fetch_command hin hd]
  simp only [hexec]

theorem observed_of_ne (htick : i ≠ .tick) (hinit : ∀ fs : Nat, i ≠ .init fs) (t : State) : observed i t = [] := by
  cases i with
  | init fs => exact absurd rfl (hinit fs)
  | tick => exact absurd rfl htick
  | reset => rfl
  | noteOn n v => rfl
  | noteOff n => rfl
  | setParam x v => rfl
  | loadVoice v len => rfl

/-- A step that executes no command shows nothing. -/
theorem stepObservation_of_no_command (h : step s = .next t)
    (hno : ∀ (w : Word) (rest : List HostInput) (i : Instr), s.inbox = .command w :: rest → decode w ≠ .ok i) :
    stepObservation s = [] := by
  rcases step_cases' h with ⟨hin, -⟩ | ⟨a, bs, rest, hin, -⟩ | ⟨w, rest, e, hin, hd, -⟩ | ⟨w, rest, i, hin, hd, -⟩
  · rw [stepObservation, fetch_nil hin]
  · rw [stepObservation, fetch_bankWrite hin]
  · rw [stepObservation, fetch_reserved hin hd]
  · exact absurd hd (hno w rest i hin)

/-- A step that is refused shows nothing. -/
theorem stepObservation_of_stop (h : ∀ t : State, step s ≠ .next t) : stepObservation s = [] := by
  unfold step at h
  unfold stepObservation
  split
  case h_4 i t hfetch =>
    simp only [hfetch] at h
    split
    case h_1 u hu => exact absurd hu (h u)
    all_goals rfl
  all_goals rfl

/-! ## What a run yields -/

theorem yields_succ (h : step s = .next t) (k : Nat) : yields (k + 1) s = stepObservation s ++ yields k t := by
  simp only [yields, h]

theorem yields_succ_of_silent (h : step s = .next t) (hobs : stepObservation s = []) (k : Nat) :
    yields (k + 1) s = yields k t := by
  rw [yields_succ h, hobs, List.nil_append]

theorem yields_of_stop (h : ∀ t : State, step s ≠ .next t) (k : Nat) : yields k s = [] := by
  cases k with
  | zero => rfl
  | succ k =>
    cases hstep : step s with
    | next t => exact absurd hstep (h t)
    | fault r => cases r
    | refused r => simp only [yields, hstep]

/-- A sample shown joins the sequence of samples alone, a STATUS value that of STATUS values alone (70 R292). -/
theorem samplesOf_statusesOf_yields_of_sample {x : Num} (h : step s = .next t) (hobs : stepObservation s = [.sample x])
    (k : Nat) :
    samplesOf (yields (k + 1) s) = x :: samplesOf (yields k t) ∧
      statusesOf (yields (k + 1) s) = statusesOf (yields k t) := by
  rw [yields_succ h, hobs]
  exact ⟨rfl, rfl⟩

theorem samplesOf_statusesOf_yields_of_status {x : BitVec 3} (h : step s = .next t)
    (hobs : stepObservation s = [.status x]) (k : Nat) :
    samplesOf (yields (k + 1) s) = samplesOf (yields k t) ∧
      statusesOf (yields (k + 1) s) = x :: statusesOf (yields k t) := by
  rw [yields_succ h, hobs]
  exact ⟨rfl, rfl⟩

end Machine

end Sys2Proof

open Sys2Proof Sys2Proof.Machine

/-- Settles O5: such a word decodes to no command, so the step takes it from the stream and shows nothing. -/
theorem reservedWordsDoNothing : Obligations.ReservedWordsDoNothing := by
  intro s w rest hin hopc
  have hd := decode_reserved hopc
  exact ⟨step_reserved hin hd, by rw [stepObservation, fetch_reserved hin hd]⟩

/-- Settles O9: the guard of every command but INIT refuses it, and a reserved word is no command. -/
theorem onlyInitBeforeInit : Obligations.OnlyInitBeforeInit := fun s hi =>
  ⟨fun fs => exec_init_completes fs s, fun _ h => exec_refused_before_init hi h, fun _ _ _ => step_reserved⟩

/-- Settles O11: the frames of the commands, and what a step shows by the kind of host input it takes. -/
theorem outputsWrittenByTickAndInitAlone : Obligations.OutputsWrittenByTickAndInitAlone := by
  refine ⟨fun i s t h => ?_, fun s t w rest i hin hd h => ?_, fun s t h hno => ?_, fun _ => rfl, fun s h => ?_⟩
  · refine ⟨exec_hostPartSame h, exec_sampleOut_of_ne_tick h, ?_, exec_status_of_ne_init h⟩
    rintro rfl
    exact exec_tick_sample h
  · have hobs := stepObservation_command hin hd h
    refine ⟨?_, ?_, fun htick hinit => ?_⟩
    · rintro rfl
      exact ⟨hobs, samplesOf_statusesOf_yields_of_sample h hobs⟩
    · rintro fs rfl
      exact ⟨hobs, samplesOf_statusesOf_yields_of_status h hobs⟩
    · rw [observed_of_ne htick hinit] at hobs
      exact ⟨hobs, yields_succ_of_silent h hobs⟩
  · have hobs := stepObservation_of_no_command h hno
    exact ⟨hobs, yields_succ_of_silent h hobs⟩
  · exact ⟨stepObservation_of_stop h, yields_of_stop h⟩

/-- Settles O52: after INIT only a missing frequency refuses a command, and the run invariant gives NOTE_ON its six. -/
theorem runsAreRefusedOnlyBySetParam : Obligations.RunsAreRefusedOnlyBySetParam := by
  intro s i hs hi hne
  cases i with
  | init fs => exact exec_init_completes fs s
  | reset => exact ⟨_, exec_reset_of hi⟩
  | noteOn n v => exact ⟨_, exec_noteOn_of hi n v fun k => ((hs.regs hi).ops k).freq_defined⟩
  | noteOff n => exact ⟨_, whenInited_of hi _⟩
  | setParam x v => exact absurd rfl (hne x v)
  | tick => exact ⟨_, whenInited_of hi _⟩
  | loadVoice v len => exact ⟨_, exec_loadVoice hi v len⟩
end

section
/-! Power-on, and the hazards of a parameter write (70 R280, R284, R285, R289): the write reaches no running segment,
and under EG_REFRESH = at_tick no envelope register at all. -/

namespace Sys2Proof.Machine

variable {s t : State} {cfg : Config}

/-! ## What a parameter write has done -/

theorem exec_setParam_next {x : Nat} {v : Raw} (h : exec (.setParam x v) s = .next t) :
    s.status.inited = true ∧ setParamDefined x v s.toRegs = true ∧
      t = complete s (voiceSetParam s.cfg x v s.toRegs) := by
  obtain ⟨hi, hnext⟩ := whenInited_next.1 h
  split at hnext
  · next hd =>
    cases hnext
    exact ⟨hi, hd, rfl⟩
  · cases hnext

theorem exec_loadVoice_next {v len : Nat} (h : exec (.loadVoice v len) s = .next t) :
    t = complete s (patchLoad s.cfg s.bank v len s.toRegs) := by
  obtain ⟨-, hnext⟩ := whenInited_next.1 h
  cases hnext
  rfl

/-! ## Running segments (R285, R289) -/

/-- The registers of an envelope generator that a running segment moves; a refresh, which loads the latches, leaves
them (42 R132). -/
def Eg.segment (e : Eg) : EgState × ℚ × ℚ × ℚ := (e.st, e.val, e.start, e.target)

theorem refresh_segment (f : NumFormat) (e : Eg) (r1 r2 r3 r4 l1 l2 l3 l4 : Raw) :
    (e.refresh f r1 r2 r3 r4 l1 l2 l3 l4).segment = e.segment := rfl

theorem setParam_segment (f : Fin 21) (v : Raw) (o : Op) : (o.setParam cfg f v).eg.segment = o.eg.segment := by
  obtain ⟨-, -, -, -, -, heg⟩ := setParam_spec cfg f v o
  rw [heg]
  split
  · exact refresh_segment ..
  · rfl

/-- All seven envelopes are in the same segments. -/
structure Regs.SameSegments (r q : Regs) : Prop where
  ops : ∀ k : Fin 6, (q.op[k]).eg.segment = (r.op[k]).eg.segment
  peg : q.peg.segment = r.peg.segment

theorem sameSegments_voiceSetParam (x : Nat) (v : Raw) (r : Regs) : r.SameSegments (voiceSetParam cfg x v r) where
  ops k := voiceSetParam_op_induct (P := fun o => o.eg.segment = (r.op[k]).eg.segment)
    (fun f v o h => (setParam_segment f v o).trans h) k x v r rfl
  peg := by
    rcases voiceSetParam_cases cfg x v r with ⟨-, he⟩ | ⟨_, he⟩ | ⟨-, he⟩ <;> rw [he]
    · rfl
    · dsimp only
      split
      · exact refresh_segment ..
      · rfl

theorem sameSegments_loadRecord (bank : Memory) (base : Nat) (r : Regs) :
    r.SameSegments (loadRecord cfg bank base r) :=
  loadRecord_induct (P := r.SameSegments) cfg bank base
    (fun x v q h =>
      have hstep := sameSegments_voiceSetParam x v q
      ⟨fun k => (hstep.ops k).trans (h.ops k), hstep.peg.trans h.peg⟩)
    r ⟨fun _ => rfl, rfl⟩

theorem sameSegments_patchLoad (bank : Memory) (v len : Nat) (r : Regs) :
    r.SameSegments (patchLoad cfg bank v len r) := by
  rcases patchLoad_cases cfg bank v len r with ⟨-, he⟩ | ⟨base, -, he⟩ <;> rw [he]
  · exact ⟨fun _ => rfl, rfl⟩
  · exact sameSegments_loadRecord bank base r

/-! ## The latches under EG_REFRESH = at_tick (R284) -/

/-- All seven envelope generators, with their latches, are the same. -/
structure Regs.SameEnvelopes (r q : Regs) : Prop where
  peg : r.peg = q.peg
  ops : ∀ k : Fin 6, (r.op[k]).eg = (q.op[k]).eg

/-- Where a parameter write refreshes no latch, it leaves every envelope register (10 R39). -/
theorem sameEnvelopes_voiceSetParam (hr : cfg.egRefresh ≠ .atWrite) (x : Nat) (v : Raw) (r : Regs) :
    (voiceSetParam cfg x v r).SameEnvelopes r where
  peg := by
    rcases voiceSetParam_cases cfg x v r with ⟨-, he⟩ | ⟨_, he⟩ | ⟨-, he⟩ <;> rw [he]
    · rfl
    · exact if_neg fun hc => hr hc.1
  ops k := by
    refine voiceSetParam_op_induct (P := fun o => o.eg = (r.op[k]).eg) (fun f w o h => ?_) k x v r rfl
    obtain ⟨-, -, -, -, -, heg⟩ := setParam_spec cfg f w o
    rw [heg, if_neg fun hc => hr hc.1, h]

variable {r q : Regs}

theorem sameEnvelopes_voiceNoteOn (h : r.SameEnvelopes q) (n v : Nat) :
    (voiceNoteOn cfg n v r).SameEnvelopes (voiceNoteOn cfg n v q) where
  peg := by simp only [voiceNoteOn, h.peg]
  ops k := by rw [voiceNoteOn_op, voiceNoteOn_op, map_get, map_get, opNoteOn_eg, opNoteOn_eg, h.ops k]

theorem sameEnvelopes_voiceNoteOff (h : r.SameEnvelopes q) (n : Nat) :
    (voiceNoteOff cfg n r).SameEnvelopes (voiceNoteOff cfg n q) where
  peg := by simp only [voiceNoteOff, h.peg]
  ops k := by rw [voiceNoteOff_op, voiceNoteOff_op, map_get, map_get, opNoteOff_eg, opNoteOff_eg, h.ops k]

end Sys2Proof.Machine

open Sys2Proof Sys2Proof.Machine

/-- Settles O44: a parameter write loads latches at most, and a load is a run of parameter writes. -/
theorem parameterWritesLeaveSegments : Obligations.ParameterWritesLeaveSegments := by
  intro s t i hwrite h
  have hsame : s.toRegs.SameSegments t.toRegs := by
    rcases hwrite with ⟨x, v, rfl⟩ | ⟨v, len, rfl⟩
    · obtain ⟨-, -, rfl⟩ := exec_setParam_next h
      exact sameSegments_voiceSetParam x v s.toRegs
    · obtain rfl := exec_loadVoice_next h
      exact sameSegments_patchLoad s.bank v len s.toRegs
  obtain ⟨hops, hpeg⟩ := hsame
  simp only [Eg.segment, Prod.mk.injEq] at hops hpeg
  exact ⟨hops, hpeg⟩

/-- Settles O59: the write leaves all seven envelopes, and the run invariant gives NOTE_ON its six frequencies before
and after it. -/
theorem noteEventsUseTheOldLatches : Obligations.NoteEventsUseTheOldLatches := by
  intro s t x n v value hs htick h
  obtain ⟨hi, hd, rfl⟩ := exec_setParam_next h
  have hinv := hs.regs hi
  have hinv' := regs_inv_voiceSetParam hinv hd
  have hatTick : s.cfg.egRefresh ≠ .atWrite := by
    rw [htick]
    decide
  have hsame := sameEnvelopes_voiceSetParam hatTick x value s.toRegs
  have hon := sameEnvelopes_voiceNoteOn (cfg := s.cfg) hsame n v
  have hoff := sameEnvelopes_voiceNoteOff (cfg := s.cfg) hsame n
  exact
    ⟨⟨_, _, exec_noteOn_of (s := complete s _) hi n v fun k => (hinv'.ops k).freq_defined,
        exec_noteOn_of hi n v fun k => (hinv.ops k).freq_defined, hon.peg, hon.ops⟩,
      ⟨_, _, whenInited_of (s := complete s _) hi _, whenInited_of hi _, hoff.peg, hoff.ops⟩⟩

/-- Settles O51: BANK lists no cell, ERR is 0, and no INIT has succeeded. -/
theorem powerOnMeetsTheRunInvariant : Obligations.PowerOnMeetsTheRunInvariant where
  bank_wf := by
    show Memory.wf []
    decide
  err_legal := .inl rfl
  err_of_inited _ := rfl
  regs hinit := (Bool.false_ne_true hinit).elim
end
